-- ==== Sys2Proof/Word.lean ====
section
/-! DEFINITION. The word types of WTOSC: the command word, and the two IEEE interchange formats as bit patterns. -/

namespace Sys2Proof

/-- One command word, as it stands on the command port (30_encoding.md R80). -/
abbrev Command := BitVec 64

/-- A binary32 pattern: table entries, bridge messages, the quantizer's input (00_scope.md R12, 92_eei_decisions.md D5). -/
abbrev Binary32 := BitVec 32

/-- A binary64 pattern: the quantizer's F64 output (43_quantizer.md R185). -/
abbrev Binary64 := BitVec 64

/-- One byte of a storage space (20_memory.md R65). -/
abbrev Byte := BitVec 8

end Sys2Proof
end

