-- ==== Sys2Proof/Syntax.lean ====
section
/-! DEFINITION. The command set: one constructor per row of spec/opcode_table.json (30_encoding.md R85), with the operands
the assembler writes (R92), and the names of formats (R90) and generators (R91). -/

namespace Sys2Proof

/-- The nine commands. An operand is the unsigned integer its field holds; QCONV's value is a binary32 pattern.
Whether an operand fits its field is `Instr.wf` (30_encoding.md R93). -/
inductive Instr where
  /-- TNEW cap: create the table (40_wavetable.md R107) -/
  | tnew (cap : Nat)
  /-- TFILL gen: fill the table (40_wavetable.md R108) -/
  | tfill (gen : Nat)
  /-- TLEN: read the populated length (40_wavetable.md R109) -/
  | tlen
  /-- TREAD index: read one table entry (40_wavetable.md R110) -/
  | tread (index : Nat)
  /-- OINIT slot, freq, sr: create an oscillator; freq is the raw Q16.16 field (41_oscillator.md R132) -/
  | oinit (slot : Nat) (freq : Nat) (sr : Nat)
  /-- OFREQ slot, freq: change an oscillator's frequency (41_oscillator.md R135) -/
  | ofreq (slot : Nat) (freq : Nat)
  /-- OSTEP slot: step an oscillator (41_oscillator.md R134) -/
  | ostep (slot : Nat)
  /-- SSTART fmt, ch: start the stream (42_bridge.md R152) -/
  | sstart (fmt : Nat) (ch : Nat)
  /-- QCONV fmt, value: convert one value (43_quantizer.md R188) -/
  | qconv (fmt : Nat) (value : Binary32)
  deriving DecidableEq, Repr

/-- The assigned opcodes (30_encoding.md R85). -/
inductive Opcode where
  | tnew | tfill | tlen | tread | oinit | ofreq | ostep | sstart | qconv
  deriving DecidableEq, Repr

/-- The opcode of a command. -/
def Instr.opcode : Instr → Opcode
  | .tnew _ => .tnew
  | .tfill _ => .tfill
  | .tlen => .tlen
  | .tread _ => .tread
  | .oinit _ _ _ => .oinit
  | .ofreq _ _ => .ofreq
  | .ostep _ => .ostep
  | .sstart _ _ => .sstart
  | .qconv _ _ => .qconv

/-- The ten sample formats (30_encoding.md R90). -/
inductive Format where
  | i8 | i16 | i32 | i64 | u8 | u16 | u32 | u64 | f32 | f64
  deriving DecidableEq, Repr

/-- The two waveform generators (30_encoding.md R91). -/
inductive Generator where
  | sine | saw
  deriving DecidableEq, Repr

end Sys2Proof
end

