-- ==== Sys2Proof/WellFormed.lean ====
section
/-! DEFINITION. When a command's operands fit the fields of the command word (30_encoding.md R81, R93).
A value that fits its field but lies outside its legal range is well-formed: it raises its fault when executed (R87, R93). -/

namespace Sys2Proof

/-- Fits the selector field [7:4] (30_encoding.md R81, R84). -/
def fitsSel (n : Nat) : Bool := decide (n < 2 ^ 4)

/-- Fits the field B [31:12] (30_encoding.md R81, R83). -/
def fitsB (n : Nat) : Bool := decide (n < 2 ^ 20)

/-- Fits the field A [63:32] (30_encoding.md R81, R82). -/
def fitsA (n : Nat) : Bool := decide (n < 2 ^ 32)

/-- Every operand fits its field. -/
def Instr.wf : Instr → Bool
  | .tnew cap => fitsA cap
  | .tfill gen => fitsSel gen
  | .tlen => true
  | .tread index => fitsA index
  | .oinit slot freq sr => fitsSel slot && fitsA freq && fitsB sr
  | .ofreq slot freq => fitsSel slot && fitsA freq
  | .ostep slot => fitsSel slot
  | .sstart fmt ch => fitsSel fmt && fitsB ch
  | .qconv fmt _ => fitsSel fmt

end Sys2Proof
end

