-- ==== Sys2Proof/Decode.lean ====
section
/-! DEFINITION. The decoder (30_encoding.md R81, R85 to R89), total on every 64-bit word and rejecting by name, and the
encoder written from the same tables. -/

namespace Sys2Proof

/-- Field op, bits [3:0] (30_encoding.md R81). -/
def opField (w : Command) : BitVec 4 := w.extractLsb' 0 4

/-- Field sel, bits [7:4]. -/
def selField (w : Command) : BitVec 4 := w.extractLsb' 4 4

/-- Field rsv, bits [11:8]. -/
def rsvField (w : Command) : BitVec 4 := w.extractLsb' 8 4

/-- Field B, bits [31:12]. -/
def bField (w : Command) : BitVec 20 := w.extractLsb' 12 20

/-- Field A, bits [63:32]. -/
def aField (w : Command) : BitVec 32 := w.extractLsb' 32 32

/-- `word = {A, B, rsv, sel, op}` with rsv = 0 (30_encoding.md R81). -/
def packWord (a : BitVec 32) (b : BitVec 20) (sel : BitVec 4) (op : BitVec 4) : Command :=
  a ++ b ++ (0#4) ++ sel ++ op

/-- The value of `op` (30_encoding.md R85). -/
def Opcode.code : Opcode → BitVec 4
  | .tnew => 0x1
  | .tfill => 0x2
  | .tlen => 0x3
  | .tread => 0x4
  | .oinit => 0x5
  | .ofreq => 0x6
  | .ostep => 0x7
  | .sstart => 0x8
  | .qconv => 0x9

/-- The opcode a value of `op` stands for; 0x0 and 0xA .. 0xF are reserved (30_encoding.md R85, R88). -/
def Opcode.ofCode (c : BitVec 4) : Option Opcode :=
  match c.toNat with
  | 1 => some .tnew
  | 2 => some .tfill
  | 3 => some .tlen
  | 4 => some .tread
  | 5 => some .oinit
  | 6 => some .ofreq
  | 7 => some .ostep
  | 8 => some .sstart
  | 9 => some .qconv
  | _ => none

/-- Column `match` of 30_encoding.md R86. -/
def Opcode.matchBits : Opcode → Command
  | .tnew => 0x0000000000000001
  | .tfill => 0x0000000000000002
  | .tlen => 0x0000000000000003
  | .tread => 0x0000000000000004
  | .oinit => 0x0000000000000005
  | .ofreq => 0x0000000000000006
  | .ostep => 0x0000000000000007
  | .sstart => 0x0000000000000008
  | .qconv => 0x0000000000000009

/-- Column `mask` of 30_encoding.md R86. -/
def Opcode.maskBits : Opcode → Command
  | .tnew => 0x00000000FFFFFFFF
  | .tfill => 0xFFFFFFFFFFFFFF0F
  | .tlen => 0xFFFFFFFFFFFFFFFF
  | .tread => 0x00000000FFFFFFFF
  | .oinit => 0x0000000000000F0F
  | .ofreq => 0x00000000FFFFFF0F
  | .ostep => 0xFFFFFFFFFFFFFF0F
  | .sstart => 0xFFFFFFFF00000F0F
  | .qconv => 0x00000000FFFFFF0F

/-- `(word AND mask) = match` (30_encoding.md R86). -/
def Opcode.spells (o : Opcode) (w : Command) : Bool := (w &&& o.maskBits) == o.matchBits

/-- Why a word spells no instruction (30_encoding.md R87). -/
inductive Illegal where
  /-- op = 0x0 or op ≥ 0xA -/
  | reservedOpcode
  /-- rsv ≠ 0 -/
  | reservedField
  /-- a must-be-zero field of the opcode's row is not 0 -/
  | mustBeZero
  deriving DecidableEq, Repr

/-- The command of an opcode with the operands its row reads (30_encoding.md R82 to R85). -/
def Opcode.build (o : Opcode) (sel b a : Nat) (pattern : Binary32) : Instr :=
  match o with
  | .tnew => .tnew a
  | .tfill => .tfill sel
  | .tlen => .tlen
  | .tread => .tread a
  | .oinit => .oinit sel a b
  | .ofreq => .ofreq sel a
  | .ostep => .ostep sel
  | .sstart => .sstart sel b
  | .qconv => .qconv sel pattern

/-- The decoder of 30_encoding.md R89. It reads no state. -/
def decode (w : Command) : Except Illegal Instr :=
  match Opcode.ofCode (opField w) with
  | none => .error .reservedOpcode
  | some o =>
    if rsvField w ≠ 0 then .error .reservedField
    else if o.spells w then
      .ok (o.build (selField w).toNat (bField w).toNat (aField w).toNat (aField w))
    else .error .mustBeZero

/-- The encoder: the word of a command, from 30_encoding.md R81 and R85. -/
def encode : Instr → Command
  | .tnew cap => packWord (BitVec.ofNat 32 cap) 0 0 Opcode.tnew.code
  | .tfill gen => packWord 0 0 (BitVec.ofNat 4 gen) Opcode.tfill.code
  | .tlen => packWord 0 0 0 Opcode.tlen.code
  | .tread index => packWord (BitVec.ofNat 32 index) 0 0 Opcode.tread.code
  | .oinit slot freq sr =>
    packWord (BitVec.ofNat 32 freq) (BitVec.ofNat 20 sr) (BitVec.ofNat 4 slot) Opcode.oinit.code
  | .ofreq slot freq => packWord (BitVec.ofNat 32 freq) 0 (BitVec.ofNat 4 slot) Opcode.ofreq.code
  | .ostep slot => packWord 0 0 (BitVec.ofNat 4 slot) Opcode.ostep.code
  | .sstart fmt ch => packWord 0 (BitVec.ofNat 20 ch) (BitVec.ofNat 4 fmt) Opcode.sstart.code
  | .qconv fmt value => packWord value 0 (BitVec.ofNat 4 fmt) Opcode.qconv.code

/-- The command the decoder reads from the low `nbits` bits of `w`. A command is one whole 64-bit word on a port, with no
byte order (20_memory.md R65, R66), so the word is the number itself. -/
def decodeTableWord (nbits w : Nat) : Option Instr :=
  match decode (BitVec.ofNat 64 (w % 2 ^ nbits)) with
  | .ok i => some i
  | .error _ => none

end Sys2Proof
end

