-- ==== Sys2Proof/Config.lean ====
section
/-! DEFINITION. The implementation parameters of 00_scope.md R8, their defaults, and the free values
(their legal ranges are `Params.legal` of Machine/Ops.lean). Parameters are configuration: no command reads or changes them (R9). -/

namespace Sys2Proof.Config

/-- QUANT_ROUND, the rounding of the integer quantizer (00_scope.md R8, 43_quantizer.md R182). -/
inductive QuantRound where
  /-- nearest, ties to the even integer -/
  | rne
  /-- toward zero -/
  | rtz
  deriving DecidableEq, Repr

/-- SINE_ROM, the sine generator's table values (40_wavetable.md R103). -/
inductive SineRom where
  /-- the default: the correctly rounded value of sin(2πi/c) -/
  | rounded
  /-- any ROM within S1 to S3: its values are the free function `sineFree`, kept within S1 and S2 -/
  | other
  deriving DecidableEq, Repr

/-- GAIN, which the spec leaves OPEN (00_scope.md R8, 92_eei_decisions.md D20). -/
inductive Gain where
  /-- the hardware's own gain: some legal value, of which nothing more is known -/
  | unstated
  /-- a gain a claim names, as a binary32 pattern -/
  | given (bits : Binary32)
  deriving DecidableEq, Repr

/-- The parameters of 00_scope.md R8, one field each. -/
structure Params where
  /-- CAP_MAX, the largest table capacity TNEW accepts -/
  capMax : Nat
  /-- N_OSC, the number of oscillator slots -/
  nOsc : Nat
  /-- CH_MAX, the largest channel count SSTART accepts -/
  chMax : Nat
  /-- FRAMES_MAX, the longest burst the device may request -/
  framesMax : Nat
  /-- QDEPTH, the capacity of each bridge queue -/
  qdepth : Nat
  /-- GAIN, the fixed attenuation gain -/
  gain : Gain
  /-- SINE_ROM -/
  sineRom : SineRom
  /-- QUANT_ROUND -/
  quantRound : QuantRound
  deriving DecidableEq, Repr

/-- The defaults of 00_scope.md R8. GAIN has none and stays unstated. -/
def Params.default : Params :=
  { capMax := 65536, nOsc := 2, chMax := 8, framesMax := 4096, qdepth := 1000,
    gain := .unstated, sineRom := .rounded, quantRound := .rne }

/-- FREE VALUE (notes/assumptions/4): what the unstated GAIN is made of. Any number. -/
opaque gainFree : Nat

/-- FREE VALUE (notes/assumptions/6): the ROM other than the default, capacity and index to pattern. -/
opaque sineFree : Nat → Nat → Binary32

/-- FREE VALUE (notes/assumptions/7): the NaN that a binary32 product of two operands is, where it is one. -/
opaque nanProduct : Binary32 → Binary32 → Binary32

end Sys2Proof.Config
end

