-- ==== Sys2Proof/Machine/State.lean ====
section
/-! DEFINITION. The state of WTOSC (10_state.md R22) and of the parties around it that the step needs, the fault codes
(60_exceptions.md R201), the reasons a step of the model can stop, and the state after reset. -/

namespace Sys2Proof.Machine

open Sys2Proof

/-- A storage space as (byte address, byte) pairs, addresses strictly rising; an unlisted byte holds no value
(20_memory.md R60, R62, R65). -/
abbrev Memory := List Host.Cell

/-- One live oscillator: the values of a slot whose OV is 1 (10_state.md R31). -/
structure Slot where
  /-- F, the frequency in Hz·2^16 -/
  freq : BitVec 32
  /-- SR, the sample rate in Hz -/
  rate : BitVec 20
  /-- P, the phase accumulator -/
  phase : Nat
  deriving DecidableEq, Repr

/-- The stream's configuration once SEN is 1 (10_state.md R33). -/
structure Stream where
  /-- FMT, the sample format -/
  fmt : Format
  /-- CH, the channel count -/
  ch : BitVec 20
  deriving DecidableEq, Repr

/-- The fault codes 0x01 .. 0x15 (60_exceptions.md R201); 0x00 NONE is the absence of one. -/
inductive FaultCode where
  | illegal | capZero | capRange | tableExists | noTable | refill | badGen | notFilled | indexRange
  | badSlot | badFreq | badSr | oscInvalid | oscOwned | badFmt | badCh | streamActive | streamNoOsc
  | qnan | disconnect | device
  deriving DecidableEq, Repr

/-- What became of an accepted command (10_state.md R26, R28). -/
inductive CommandOutcome where
  | completed
  /-- it raised a fault; the value FAULT then holds -/
  | raised (code : BitVec 8)
  deriving DecidableEq, Repr

/-- The events of the history (10_state.md R28). -/
inductive Event where
  | command (word : Command) (outcome : CommandOutcome)
  | ctlSample (s : Binary32)
  | rndSample (s : Binary32)
  | burstDone (frames : Nat)
  | fault (code : FaultCode)
  deriving DecidableEq, Repr

/-- The two read ports (10_state.md R24). -/
inductive ReadPort where
  | status | res
  deriving DecidableEq, Repr

/-- Which agent's step comes next (00_scope.md R17, 42_bridge.md R165, 70_reset_and_hazards.md R230). -/
inductive Turn where
  /-- the host offers the next word of its program on the command port -/
  | command
  /-- the host reads a read port -/
  | hostRead (port : ReadPort)
  /-- the device offers its next burst request -/
  | burstReq
  /-- the device reads a slot of its buffer -/
  | deviceRead (slot : Nat)
  /-- the render unit's issue step -/
  | issue
  /-- the render unit's frame step -/
  | frame
  /-- the control unit's step -/
  | control
  /-- the device's teardown event -/
  | teardown
  /-- the device's failure event -/
  | devFail
  /-- the reset input -/
  | reset
  deriving DecidableEq, Repr

/-- All the state of 10_state.md R22, then what R22 leaves to other parties and the step still needs. -/
structure State where
  /-- CAP, the table capacity; 0 means no table exists (R22, R29) -/
  cap : Nat
  /-- TLEN, the populated length (R22, R29) -/
  tlen : Nat
  /-- T, entry i at bytes 4i .. 4i+3, little-endian (R22, R29; 20_memory.md R65) -/
  table : Memory
  /-- OV, F, SR and P, one place for each of the N_OSC slots: OV is 1 iff the place holds a slot (R22, R31) -/
  slots : List (Option Slot)
  /-- SEN, FMT and CH: SEN is 1 iff there is a configuration (R22, R33) -/
  stream : Option Stream
  /-- REQQ, the request queue's occupancy (R22, R34) -/
  reqq : Nat
  /-- RESPQ, the response queue, head first (R22, R34) -/
  respq : List Binary32
  /-- PEND, a request is outstanding (R22, R35) -/
  pend : Bool
  /-- BACT, a burst is being filled (R22, R35) -/
  bact : Bool
  /-- BN, the frames of the current burst (R22, R35) -/
  bn : Nat
  /-- BPOS, the frames of the current burst already written (R22, R35) -/
  bpos : Nat
  /-- RES, the result register (R22, R23) -/
  res : BitVec 64
  /-- FAULT, the first fault code raised (R22, R25) -/
  fault : BitVec 8
  /-- HALTED (R22, R25) -/
  halted : Bool
  /-- OUT, the device's buffer as bytes (R36; 20_memory.md R64, R65) -/
  out : Memory
  /-- the event history, oldest first (R28) -/
  hist : List Event
  /-- the host's commands not yet accepted (R21, R39) -/
  prog : List Command
  /-- the host's index of its next command (R21) -/
  pc : Nat
  /-- the device's burst requests not yet accepted, by their number of frames (42_bridge.md R153) -/
  bursts : List Nat
  /-- the scheduler's choices to come (R39; 42_bridge.md R165) -/
  sched : List Turn
  /-- the parameters (00_scope.md R8), which no step changes (R9) -/
  cfg : Config.Params
  deriving DecidableEq, Repr

/-- Reasons for which a step of the MODEL stops. None is a fault of WTOSC: those are taken, as next states with FAULT and
HALTED written (60_exceptions.md R203). Each stands for a read of state that holds no value, which the spec says no rule makes
(10_state.md R22; 93_implementation_defined.md U15: a model error, never a value). -/
inductive Fault where
  /-- Raised by TREAD, OSTEP and the control step where the table entry they read holds no value. Safe: the hardware is never
  in such a state (20_memory.md R62; notes/assumptions/9). -/
  | tableEntryAbsent
  /-- Raised by the control step where slot 0 holds no oscillator. Safe: the step is enabled only with slot 0 live
  (42_bridge.md R157; notes/assumptions/10). -/
  | streamSlotDead
  /-- Raised by the frame step where SEN is 0, so that FMT and CH hold no value. Safe: a burst is active only with SEN = 1
  (42_bridge.md R153, 10_state.md R33; notes/assumptions/10). -/
  | streamNotStarted
  deriving DecidableEq, Repr

/-- Reasons for which the model refuses a step. -/
inductive Refusal where
  /-- Raised by `exec` for a command that has no meaning yet. Safe: nothing is claimed of it. -/
  | notModelled (mnemonic : String)
  /-- Raised by `step` where a parameter lies outside its legal range. Safe: 00_scope.md R8 refuses such a model at
  configuration (notes/assumptions/3). -/
  | illegalConfiguration
  deriving DecidableEq, Repr

/-- What a step or a meaning answers. -/
abbrev Result := Host.Outcome State Fault Refusal

/-- The state after reset (10_state.md R22, 70_reset_and_hazards.md R230) with the default parameters (00_scope.md R8), a host
that has no command to issue, a device that requests nothing, and no choice made. -/
def State.reset : State :=
  { cap := 0, tlen := 0, table := [], slots := List.replicate Config.Params.default.nOsc none,
    stream := none, reqq := 0, respq := [], pend := false, bact := false, bn := 0, bpos := 0,
    res := 0, fault := 0, halted := false,
    out := [], hist := [], prog := [], pc := 0, bursts := [], sched := [],
    cfg := Config.Params.default }

end Sys2Proof.Machine
end

