-- ==== Sys2Proof/Machine/Ops.lean ====
section
/-! DEFINITION. The shared operations: the ranges of the parameters (00_scope.md R8), bytes and storage spaces (20_memory.md), slots,
RES, the event history, and the fault entry (60_exceptions.md R203) with the reset that alone leaves it
(70_reset_and_hazards.md R230). -/

namespace Sys2Proof

/-! ### Legal parameters -/

/-- 0 < GAIN ≤ 1 as a range of patterns: the positive binary32 patterns up to that of 1.0 are in numeric order. -/
def Config.Gain.legal : Config.Gain → Bool
  | .unstated => true
  | .given b => decide (1 ≤ b.toNat) && decide (b.toNat ≤ 0x3F800000)

/-- The legal ranges of 00_scope.md R8. -/
def Config.Params.legal (p : Config.Params) : Bool :=
  decide (1 ≤ p.capMax) && decide (p.capMax ≤ 2 ^ 20) &&
  decide (1 ≤ p.nOsc) && decide (p.nOsc ≤ 16) &&
  decide (1 ≤ p.chMax) && decide (p.chMax ≤ 2 ^ 20 - 1) &&
  decide (1 ≤ p.framesMax) && decide (1 ≤ p.qdepth) && p.gain.legal

end Sys2Proof

namespace Sys2Proof.Machine

open Sys2Proof

/-! ### Bytes and storage spaces -/

/-- The canonical form: addresses strictly rising. An unlisted byte holds no value, so no entry can repeat what an unlisted
address reads as. -/
abbrev Memory.wf (m : Memory) : Prop := m.Pairwise (fun c d => c.1 < d.1)

/-- The byte at an address, if it holds a value. -/
def Memory.readByte : Memory → Nat → Option Byte
  | [], _ => none
  | (a, b) :: rest, x => if x = a then some b else Memory.readByte rest x

/-- Store one byte, keeping the canonical form. -/
def Memory.writeByte : Memory → Nat → Byte → Memory
  | [], a, b => [(a, b)]
  | (x, c) :: rest, a, b =>
    if a < x then (a, b) :: (x, c) :: rest
    else if a = x then (a, b) :: rest
    else (x, c) :: Memory.writeByte rest a b

/-- Store bytes at rising addresses from `a` on. -/
def Memory.writeBytes : Memory → Nat → List Byte → Memory
  | m, _, [] => m
  | m, a, b :: bs => Memory.writeBytes (m.writeByte a b) (a + 1) bs

/-- The little-endian bytes of a number, lowest first (20_memory.md R65). -/
def bytesLE : Nat → Nat → List Byte
  | 0, _ => []
  | n + 1, v => BitVec.ofNat 8 v :: bytesLE n (v / 256)

/-- Read `n` bytes from `a` on as a little-endian number (20_memory.md R65). -/
def Memory.readLE (m : Memory) : Nat → Nat → Option Nat
  | _, 0 => some 0
  | a, n + 1 =>
    match m.readByte a, Memory.readLE m (a + 1) n with
    | some b, some v => some (b.toNat + 256 * v)
    | _, _ => none

/-- Store the low `n` bytes of `v` from `a` on, little-endian (20_memory.md R65). -/
def Memory.writeLE (m : Memory) (a n v : Nat) : Memory := m.writeBytes a (bytesLE n v)

/-- Bytes paired with rising addresses from `a` on. -/
def numberFrom : Nat → List Byte → Memory
  | _, [] => []
  | a, b :: bs => (a, b) :: numberFrom (a + 1) bs

/-- Store bytes from address 0 on, all at once; higher addresses keep what they hold. -/
def Memory.writePrefix (m : Memory) (bs : List Byte) : Memory :=
  numberFrom 0 bs ++ m.filter (fun c => decide (bs.length ≤ c.1))

/-- `T[i]`: the table entry at index i, if it holds a value (20_memory.md R62). -/
def Memory.readEntry (m : Memory) (i : Nat) : Option Binary32 :=
  (m.readLE (4 * i) 4).map (BitVec.ofNat 32)

/-- `T[0 .. n-1] <- entries`, all in one step (20_memory.md R67, 40_wavetable.md R108). -/
def Memory.fillEntries (m : Memory) (entries : List Binary32) : Memory :=
  m.writePrefix (entries.flatMap (fun e => bytesLE 4 e.toNat))

/-- The byte offset of output slot k of w bits (20_memory.md R65). -/
def slotAddr (w k : Nat) : Nat := k * (w / 8)

/-- `OUT[k] <- q` for a slot of w bits (20_memory.md R64, R65). -/
def Memory.writeSlot (m : Memory) (w k : Nat) (q : BitVec 64) : Memory :=
  m.writeLE (slotAddr w k) (w / 8) q.toNat

/-- Output slot k of w bits as the device sees it, if all its bytes hold a value (20_memory.md R64, R74). -/
def Memory.readSlot (m : Memory) (w k : Nat) : Option (BitVec 64) :=
  (m.readLE (slotAddr w k) (w / 8)).map (BitVec.ofNat 64)

/-- `OUT[k + c] <- q` for c in 0 .. n-1: the replicator (43_quantizer.md R189). -/
def Memory.replicateSlot (m : Memory) (w k : Nat) (q : BitVec 64) : Nat → Memory
  | 0 => m
  | n + 1 => (Memory.replicateSlot m w k q n).writeSlot w (k + n) q

/-! ### Registers -/

/-- Slot o, if it is live (10_state.md R31). -/
def State.slot (s : State) (o : Nat) : Option Slot := s.slots.getD o none

/-- OV[o] (10_state.md R22). -/
def State.ov (s : State) (o : Nat) : Bool := (s.slot o).isSome

/-- SEN (10_state.md R22, R33). -/
def State.sen (s : State) : Bool := s.stream.isSome

/-- Write F, SR and P of slot o and set OV[o] (41_oscillator.md R132). -/
def State.setSlot (s : State) (o : Nat) (sl : Slot) : State := { s with slots := s.slots.set o (some sl) }

/-- `RES <- v`, all 64 bits (10_state.md R23). -/
def State.setRes (s : State) (v : BitVec 64) : State := { s with res := v }

/-- `zext_64` of a binary32 pattern (00_scope.md R11, 10_state.md R23). -/
def zext64 (v : Binary32) : BitVec 64 := v.setWidth 64

/-- `emit e` (00_scope.md R13, 10_state.md R28). -/
def State.emit (s : State) (e : Event) : State := { s with hist := s.hist ++ [e] }

/-- The request queue has room (10_state.md R34). -/
def State.reqRoom (s : State) : Bool := decide (s.reqq < s.cfg.qdepth)

/-- The response queue has room (10_state.md R34). -/
def State.respRoom (s : State) : Bool := decide (s.respq.length < s.cfg.qdepth)

/-! ### Faults and reset -/

/-- The code of a fault (60_exceptions.md R201). -/
def FaultCode.code : FaultCode → BitVec 8
  | .illegal => 0x01
  | .capZero => 0x02
  | .capRange => 0x03
  | .tableExists => 0x04
  | .noTable => 0x05
  | .refill => 0x06
  | .badGen => 0x07
  | .notFilled => 0x08
  | .indexRange => 0x09
  | .badSlot => 0x0A
  | .badFreq => 0x0B
  | .badSr => 0x0C
  | .oscInvalid => 0x0D
  | .oscOwned => 0x0E
  | .badFmt => 0x0F
  | .badCh => 0x10
  | .streamActive => 0x11
  | .streamNoOsc => 0x12
  | .qnan => 0x13
  | .disconnect => 0x14
  | .device => 0x15

/-- The fault entry `raise F`, the whole effect of the step that raises it (60_exceptions.md R203). -/
def State.raise (s : State) (f : FaultCode) : State :=
  { s with
    fault := if s.fault = 0 then f.code else s.fault
    halted := true
    hist := s.hist ++ [.fault f] }

/-- The reset input (70_reset_and_hazards.md R230): every piece of state of 10_state.md R22 at its reset value, whatever it was.
The parties outside keep theirs, the device its buffer OUT among them (R241); the history starts anew (notes/assumptions/12, 13). -/
def State.assertReset (s : State) : State :=
  { s with
    cap := 0, tlen := 0, table := [], slots := List.replicate s.cfg.nOsc none, stream := none,
    reqq := 0, respq := [], pend := false, bact := false, bn := 0, bpos := 0,
    res := 0, fault := 0, halted := false, hist := [] }

end Sys2Proof.Machine
end

