-- ==== Sys2Proof/Machine/Flags.lean ====
section
/-! DEFINITION. The status bits and the read ports (10_state.md R23, R24, R37). STATUS has no storage: it is computed at each read. -/

namespace Sys2Proof.Machine

open Sys2Proof

/-- TCREATED (10_state.md R24, R29). -/
def State.tcreated (s : State) : Bool := s.cap != 0

/-- TFILLED (10_state.md R24, R29). -/
def State.tfilled (s : State) : Bool := s.cap != 0 && s.tlen == s.cap

/-- STATUS[31:16]: bit o is OV[o] for o < N_OSC, and 0 above (10_state.md R24). -/
def State.ovField (s : State) : BitVec 16 :=
  BitVec.ofFnLE (fun o : Fin 16 => decide (o.val < s.cfg.nOsc) && s.ov o.val)

/-- STATUS (10_state.md R24). -/
def State.status (s : State) : BitVec 32 :=
  s.ovField ++ s.fault ++ (0#3) ++ BitVec.ofBool s.bact ++ BitVec.ofBool s.sen ++
    BitVec.ofBool s.tfilled ++ BitVec.ofBool s.tcreated ++ BitVec.ofBool s.halted

/-- The number of a read port (10_state.md R24). -/
def portNumber : ReadPort → Nat
  | .status => 0
  | .res => 1

/-- The read port of a number; no others exist (10_state.md R24). -/
def portOf (n : Nat) : Option ReadPort :=
  match n with
  | 0 => some .status
  | 1 => some .res
  | _ => none

/-- What the host reads on a port; STATUS has 32 bits (10_state.md R23, R24). -/
def State.readPort (s : State) (p : ReadPort) : BitVec 64 :=
  match p with
  | .status => s.status.setWidth 64
  | .res => s.res

/-- The command port is ready iff HALTED = 0 (10_state.md R26). -/
def State.portReady (s : State) : Bool := !s.halted

end Sys2Proof.Machine
end

