-- ==== Sys2Proof/Machine/Operands.lean ====
section
/-! DEFINITION. How a command reads its operands: format codes (30_encoding.md R90), generator codes (R91), the Q16.16 frequency,
the sample rate and the channel count (R82, R83). -/

namespace Sys2Proof.Machine

open Sys2Proof

/-- The code of a format (30_encoding.md R90). -/
def formatCode : Format → Nat
  | .i8 => 0
  | .i16 => 1
  | .i32 => 2
  | .i64 => 3
  | .u8 => 4
  | .u16 => 5
  | .u32 => 6
  | .u64 => 7
  | .f32 => 8
  | .f64 => 9

/-- The format of a code; 10 and above are reserved (30_encoding.md R90). -/
def formatOf (code : Nat) : Option Format :=
  match code with
  | 0 => some .i8
  | 1 => some .i16
  | 2 => some .i32
  | 3 => some .i64
  | 4 => some .u8
  | 5 => some .u16
  | 6 => some .u32
  | 7 => some .u64
  | 8 => some .f32
  | 9 => some .f64
  | _ => none

/-- w(fmt), the width of a format in bits (30_encoding.md R90). -/
def formatWidth : Format → Nat
  | .i8 => 8
  | .i16 => 16
  | .i32 => 32
  | .i64 => 64
  | .u8 => 8
  | .u16 => 16
  | .u32 => 32
  | .u64 => 64
  | .f32 => 32
  | .f64 => 64

/-- The code of a generator (30_encoding.md R91). -/
def generatorCode : Generator → Nat
  | .sine => 0
  | .saw => 1

/-- The generator of a code; 2 and above are reserved (30_encoding.md R91). -/
def generatorOf (code : Nat) : Option Generator :=
  match code with
  | 0 => some .sine
  | 1 => some .saw
  | _ => none

/-- Operand A as a frequency register's value, unsigned Q16.16 (30_encoding.md R82). -/
def freqOperand (a : Nat) : BitVec 32 := BitVec.ofNat 32 a

/-- Operand B as a sample-rate register's value (30_encoding.md R83). -/
def rateOperand (b : Nat) : BitVec 20 := BitVec.ofNat 20 b

/-- Operand B as a channel-count register's value (30_encoding.md R83). -/
def channelOperand (b : Nat) : BitVec 20 := BitVec.ofNat 20 b

end Sys2Proof.Machine
end

