-- ==== Sys2Proof/Machine/Oscillator.lean ====
section
/-! DEFINITION. The phase-accumulator oscillator: its derived values (10_state.md R31), `oscStep` (41_oscillator.md R133), and the
commands OINIT, OSTEP and OFREQ (R132, R134, R135). -/

namespace Sys2Proof.Machine

open Sys2Proof

/-- D, the accumulator units per table index: SR·2^16 (10_state.md R31). -/
def Slot.unitsPerEntry (sl : Slot) : Nat := sl.rate.toNat * 2 ^ 16

/-- M, the accumulator modulus: CAP·D (10_state.md R31). -/
def Slot.modulus (sl : Slot) (cap : Nat) : Nat := cap * sl.unitsPerEntry

/-- S, the step: F·CAP (10_state.md R31). -/
def Slot.stepSize (sl : Slot) (cap : Nat) : Nat := sl.freq.toNat * cap

/-- The lookup address P div D (41_oscillator.md R131). -/
def Slot.address (sl : Slot) : Nat := sl.phase / sl.unitsPerEntry

/-- Step 2 of oscStep: P <- (P + S) mod M, exactly (41_oscillator.md R133). -/
def Slot.advance (sl : Slot) (cap : Nat) : Slot :=
  { sl with phase := (sl.phase + sl.stepSize cap) % sl.modulus cap }

/-- `oscStep` of a live slot: the amplitude at the phase before the advance, and the slot after it (41_oscillator.md R133); none where the
table entry holds no value. -/
def State.oscStep (s : State) (sl : Slot) : Option (Binary32 × Slot) :=
  match s.table.readEntry sl.address with
  | none => none
  | some a => some (a, sl.advance s.cap)

/-- OINIT slot, freq, sr (41_oscillator.md R132). -/
def execOinit (slot freq sr : Nat) (s : State) : Result :=
  if s.cfg.nOsc ≤ slot then .next (s.raise .badSlot)
  else if freq = 0 then .next (s.raise .badFreq)
  else if sr = 0 then .next (s.raise .badSr)
  else if s.cap = 0 then .next (s.raise .noTable)
  else if s.tlen ≠ s.cap then .next (s.raise .notFilled)
  else if slot = 0 ∧ s.sen = true then .next (s.raise .oscOwned)
  else .next (s.setSlot slot { freq := freqOperand freq, rate := rateOperand sr, phase := 0 })

/-- OSTEP slot (41_oscillator.md R134). -/
def execOstep (slot : Nat) (s : State) : Result :=
  if s.cfg.nOsc ≤ slot then .next (s.raise .badSlot)
  else
    match s.slot slot with
    | none => .next (s.raise .oscInvalid)
    | some sl =>
      if slot = 0 ∧ s.sen = true then .next (s.raise .oscOwned)
      else
        match s.oscStep sl with
        | none => .fault .tableEntryAbsent
        | some (a, sl') => .next ((s.setSlot slot sl').setRes (zext64 a))

/-- OFREQ slot, freq (41_oscillator.md R135). -/
def execOfreq (slot freq : Nat) (s : State) : Result :=
  if s.cfg.nOsc ≤ slot then .next (s.raise .badSlot)
  else if freq = 0 then .next (s.raise .badFreq)
  else
    match s.slot slot with
    | none => .next (s.raise .oscInvalid)
    | some sl => .next (s.setSlot slot { sl with freq := freqOperand freq })

end Sys2Proof.Machine
end

