-- ==== Sys2Proof/Machine/Float.lean ====
section
/-! DEFINITION. Binary floating point on patterns (00_scope.md R12): the fields of binary32, exact values as integers in units
of 2^-149, RNE32, mul32 and the widening to binary64 (43_quantizer.md R185). -/

namespace Sys2Proof.Machine

open Sys2Proof

/-- The exponent field b[30:23]. -/
def expField (b : Binary32) : Nat := (b.extractLsb' 23 8).toNat

/-- The fraction field b[22:0]. -/
def fracField (b : Binary32) : Nat := (b.extractLsb' 0 23).toNat

/-- The sign b[31]. -/
def signBit (b : Binary32) : Bool := b.msb

/-- `isNaN(b)` (00_scope.md R12). -/
def isNaN (b : Binary32) : Bool := expField b == 0xFF && fracField b != 0

/-- A pattern of +infinity or -infinity. -/
def isInf (b : Binary32) : Bool := expField b == 0xFF && fracField b == 0

/-- A pattern that has a real value. -/
def isFinite (b : Binary32) : Bool := expField b != 0xFF

/-- The magnitude of a finite pattern in units of 2^-149, the least positive value: exact, subnormals included. -/
def mag (b : Binary32) : Nat :=
  if expField b = 0 then fracField b else (fracField b + 2 ^ 23) * 2 ^ (expField b - 1)

/-- The signed value of a finite pattern in units of 2^-149. -/
def units (b : Binary32) : Int := if signBit b then -(mag b : Int) else (mag b : Int)

/-- `val(b)` of a finite pattern, as a rational number (00_scope.md R12). -/
def val (b : Binary32) : ℚ := (units b : ℚ) / 2 ^ 149

/-- n/d to the nearest integer, ties to even. -/
def divRne (n d : Nat) : Nat :=
  let q := n / d
  let r := n % d
  if 2 * r < d then q else if d < 2 * r then q + 1 else if q % 2 = 0 then q else q + 1

/-- The pattern, without its sign, of the binary32 nearest to n/d, ties to even; +infinity where that overflows. The exponent e is
that of the unit in the last place, 2^(e-149); the pattern of q units is e·2^23 + q, also where q rounded up to 2^24 or lies below
2^23 (then e = 0, a subnormal). -/
def roundMag (n d : Nat) : Nat :=
  let e := (n * 2 ^ 149 / d).log2 - 23
  let q := divRne (n * 2 ^ 149) (d * 2 ^ e)
  min (e * 2 ^ 23 + q) 0x7F800000

/-- Put a sign before a magnitude's pattern. -/
def withSign (neg : Bool) (m : Nat) : Binary32 := BitVec.ofNat 32 ((if neg then 2 ^ 31 else 0) + m)

/-- `RNE32(n/d)` for d > 0; an exact zero gives +0 (00_scope.md R12, 92_eei_decisions.md D49). A nonzero value that
rounds to zero keeps its sign (notes/assumptions/17). -/
def rne32 (n : Int) (d : Nat) : Binary32 :=
  if n = 0 then 0 else withSign (decide (n < 0)) (roundMag n.natAbs d)

/-- A NaN of the product of two operands: which one, no source says (notes/assumptions/7). -/
def nanOf (a b : Binary32) : Binary32 :=
  if isNaN (Config.nanProduct a b) then Config.nanProduct a b else 0x7FC00000

/-- `mul32(a, b)`, the IEEE 754 binary32 product rounded to nearest-even (00_scope.md R12). The sign is the exclusive or of the
operands' signs, for a zero product too (notes/assumptions/17). -/
def mul32 (a b : Binary32) : Binary32 :=
  let neg := xor (signBit a) (signBit b)
  if isNaN a || isNaN b then nanOf a b
  else if isInf a || isInf b then
    (if mag a = 0 || mag b = 0 then nanOf a b else withSign neg 0x7F800000)
  else withSign neg (roundMag (mag a * mag b) (2 ^ 298))

/-- `widen64(v)`: the binary64 pattern of the same value (43_quantizer.md R185). A subnormal binary32 is a normal binary64 whose
leading one is the top bit of the fraction. -/
def widen64 (v : Binary32) : Binary64 :=
  let sign := if signBit v then 2 ^ 63 else 0
  let e := expField v
  let f := fracField v
  BitVec.ofNat 64 <| sign +
    (if e = 0xFF then 0x7FF * 2 ^ 52 + f * 2 ^ 29
     else if e = 0 then
       (if f = 0 then 0
        else (f.log2 + 874) * 2 ^ 52 + (f - 2 ^ f.log2) * 2 ^ (52 - f.log2))
     else (e + 896) * 2 ^ 52 + f * 2 ^ 29)

/-- The value of a finite binary64 pattern, as a rational number: the reading of `widen64`'s result (43_quantizer.md R185). -/
def val64 (b : Binary64) : ℚ :=
  let e := (b.extractLsb' 52 11).toNat
  let f := (b.extractLsb' 0 52).toNat
  let m : ℚ := if e = 0 then (f : ℚ) else ((f + 2 ^ 52) * 2 ^ (e - 1) : ℕ)
  (if b.msb then -m else m) / 2 ^ 1074

/-- The GAIN of a configuration as a pattern; an unstated gain is some pattern in the legal range (00_scope.md R8;
notes/assumptions/4). -/
def gainBits : Config.Gain → Binary32
  | .unstated => BitVec.ofNat 32 (Config.gainFree % 0x3F800000 + 1)
  | .given b => b

end Sys2Proof.Machine
end

