-- ==== Sys2Proof/Machine/Quantizer.lean ====
section
/-! DEFINITION. The quantizer (43_quantizer.md R180 to R186), QCONV (R188) and the inverse its round trip speaks of (R187). -/

namespace Sys2Proof.Machine

open Sys2Proof

/-- n/d rounded by QUANT_ROUND, for a magnitude (43_quantizer.md R182). Both roundings are symmetric about zero. -/
def roundQuant (mode : Config.QuantRound) (n d : Nat) : Nat :=
  match mode with
  | .rne => divRne n d
  | .rtz => n / d

/-- The magnitude of the infinite formats' limit for width w: a value no pattern of w bits exceeds (43_quantizer.md R182). -/
def quantLimit (w : Nat) : Int := 2 ^ (w - 1)

/-- `clamp(round(val(v)·2^(w-1)), -2^(w-1), 2^(w-1) - 1)`, infinities saturating (43_quantizer.md R182). -/
def quantInt (mode : Config.QuantRound) (w : Nat) (v : Binary32) : Int :=
  if isInf v then (if signBit v then -quantLimit w else quantLimit w - 1)
  else
    let m : Int := roundQuant mode (mag v * 2 ^ (w - 1)) (2 ^ 149)
    let r := if signBit v then -m else m
    max (-quantLimit w) (min r (quantLimit w - 1))

/-- `qs(w, v)`, the signed formats (43_quantizer.md R182). -/
def quantSigned (mode : Config.QuantRound) (w : Nat) (v : Binary32) : BitVec w :=
  BitVec.ofInt w (quantInt mode w v)

/-- `qu(w, v)`, the unsigned formats, offset binary (43_quantizer.md R183). -/
def quantUnsigned (mode : Config.QuantRound) (w : Nat) (v : Binary32) : BitVec w :=
  BitVec.ofInt w (quantInt mode w v + quantLimit w)

/-- `quant(fmt, v)`, its w(fmt)-bit pattern zero-extended to 64 bits, or the fault QNAN (43_quantizer.md R181, R186). -/
def quant (mode : Config.QuantRound) (fmt : Format) (v : Binary32) : Except FaultCode (BitVec 64) :=
  if isNaN v then .error .qnan
  else .ok <|
    match fmt with
    | .i8 => (quantSigned mode 8 v).setWidth 64
    | .i16 => (quantSigned mode 16 v).setWidth 64
    | .i32 => (quantSigned mode 32 v).setWidth 64
    | .i64 => (quantSigned mode 64 v).setWidth 64
    | .u8 => (quantUnsigned mode 8 v).setWidth 64
    | .u16 => (quantUnsigned mode 16 v).setWidth 64
    | .u32 => (quantUnsigned mode 32 v).setWidth 64
    | .u64 => (quantUnsigned mode 64 v).setWidth 64
    | .f32 => zext64 v
    | .f64 => widen64 v

/-- A signed format's inverse `deq(q) = q / 2^(w-1)` (43_quantizer.md R187). -/
def deqSigned (w : Nat) (q : BitVec w) : ℚ := (q.toInt : ℚ) / 2 ^ (w - 1)

/-- An unsigned format's inverse `deq(u) = (u - 2^(w-1)) / 2^(w-1)` (43_quantizer.md R187). -/
def deqUnsigned (w : Nat) (u : BitVec w) : ℚ := ((u.toNat : ℚ) - 2 ^ (w - 1)) / 2 ^ (w - 1)

/-- `deq` of a format, applied to the 64 bits `quant` answers: the value a pattern stands for (43_quantizer.md R187; for the float formats the
value of the pattern, R184, R185). -/
def deq (fmt : Format) (q : BitVec 64) : ℚ :=
  match fmt with
  | .i8 => deqSigned 8 (q.setWidth 8)
  | .i16 => deqSigned 16 (q.setWidth 16)
  | .i32 => deqSigned 32 (q.setWidth 32)
  | .i64 => deqSigned 64 (q.setWidth 64)
  | .u8 => deqUnsigned 8 (q.setWidth 8)
  | .u16 => deqUnsigned 16 (q.setWidth 16)
  | .u32 => deqUnsigned 32 (q.setWidth 32)
  | .u64 => deqUnsigned 64 (q.setWidth 64)
  | .f32 => val (q.setWidth 32)
  | .f64 => val64 q

/-- QCONV fmt, value (43_quantizer.md R188). -/
def execQconv (fmt : Nat) (value : Binary32) (s : State) : Result :=
  match formatOf fmt with
  | none => .next (s.raise .badFmt)
  | some f =>
    match quant s.cfg.quantRound f value with
    | .error c => .next (s.raise c)
    | .ok q => .next (s.setRes q)

end Sys2Proof.Machine
end

