-- ==== Sys2Proof/Machine/Bridge.lean ====
section
/-! DEFINITION. SSTART (42_bridge.md R152) and the steps of the other agents: burst request (R153), issue (R154), frame and burst
completion (R155, R156), control (R157), teardown (R161) and device failure (R162). A step that is not enabled changes nothing. -/

namespace Sys2Proof.Machine

open Sys2Proof

/-- SSTART fmt, ch (42_bridge.md R152). -/
def execSstart (fmt ch : Nat) (s : State) : Result :=
  match formatOf fmt with
  | none => .next (s.raise .badFmt)
  | some f =>
    if ch = 0 ∨ s.cfg.chMax < ch then .next (s.raise .badCh)
    else if s.sen = true then .next (s.raise .streamActive)
    else if s.ov 0 = false then .next (s.raise .streamNoOsc)
    else .next { s with stream := some { fmt := f, ch := channelOperand ch } }

/-- When a request for n frames is accepted (42_bridge.md R153). -/
def State.burstEnabled (s : State) (n : Nat) : Bool :=
  !s.halted && s.sen && !s.bact && decide (1 ≤ n) && decide (n ≤ s.cfg.framesMax)

/-- BACT <- 1; BN <- N; BPOS <- 0 (42_bridge.md R153). The device brings the buffer of the new burst, whose contents no rule
gives (10_state.md R36; notes/assumptions/11). -/
def State.beginBurst (s : State) (n : Nat) : State := { s with bact := true, bn := n, bpos := 0, out := [] }

/-- The device offers the head of its burst requests; one that is not accepted stays held (42_bridge.md R153). -/
def burstStep (s : State) : Result :=
  match s.bursts with
  | [] => .next s
  | n :: rest =>
    if s.burstEnabled n then .next ({ s with bursts := rest }.beginBurst n) else .next s

/-- When the issue step is enabled (42_bridge.md R154). -/
def State.issueEnabled (s : State) : Bool := !s.halted && s.bact && !s.pend && s.reqRoom

/-- The render unit's issue step (42_bridge.md R154). -/
def issueStep (s : State) : Result :=
  if s.issueEnabled then .next { s with reqq := s.reqq + 1, pend := true } else .next s

/-- When the control step is enabled (42_bridge.md R157). -/
def State.controlEnabled (s : State) : Bool := !s.halted && decide (0 < s.reqq) && s.respRoom

/-- The sample the control unit sends for an amplitude: mul32(a, GAIN) (42_bridge.md R157). -/
def State.attenuate (s : State) (a : Binary32) : Binary32 := mul32 a (gainBits s.cfg.gain)

/-- The control unit's step (42_bridge.md R157). -/
def controlStep (s : State) : Result :=
  if s.controlEnabled then
    match s.slot 0 with
    | none => .fault .streamSlotDead
    | some sl =>
      match s.oscStep sl with
      | none => .fault .tableEntryAbsent
      | some (a, sl') =>
        .next (({ s with reqq := s.reqq - 1, respq := s.respq ++ [s.attenuate a] }.setSlot 0 sl').emit
          (.ctlSample (s.attenuate a)))
  else .next s

/-- When the frame step is enabled (42_bridge.md R155). -/
def State.frameEnabled (s : State) : Bool := !s.halted && s.bact && s.pend && !s.respq.isEmpty

/-- The replicator: the same pattern into every channel slot of the current frame (43_quantizer.md R189, 42_bridge.md R155). -/
def State.writeFrame (s : State) (st : Stream) (q : BitVec 64) : State :=
  { s with
    out := s.out.replicateSlot (formatWidth st.fmt) (s.bpos * st.ch.toNat) q st.ch.toNat
    pend := false
    bpos := s.bpos + 1 }

/-- Burst completion, part of the frame step (42_bridge.md R156). -/
def State.finishBurst (s : State) : State :=
  if s.bpos = s.bn then { s with bact := false }.emit (.burstDone s.bn) else s

/-- The render unit's frame step (42_bridge.md R155, R156). A NaN sample raises QNAN and writes nothing. -/
def frameStep (s : State) : Result :=
  if s.frameEnabled then
    match s.respq with
    | [] => .next s
    | v :: rest =>
      match s.stream with
      | none => .fault .streamNotStarted
      | some st =>
        match quant s.cfg.quantRound st.fmt v with
        | .error c => .next (s.raise c)
        | .ok q => .next ((({ s with respq := rest }.emit (.rndSample v)).writeFrame st q).finishBurst)
  else .next s

/-- The device's teardown event raises DISCONNECT (42_bridge.md R161). -/
def teardownStep (s : State) : Result :=
  if s.halted then .next s else .next (s.raise .disconnect)

/-- The device's failure event raises DEVICE (42_bridge.md R162). -/
def devFailStep (s : State) : Result :=
  if s.halted then .next s else .next (s.raise .device)

/-- What the device reads in slot k of its buffer: slots 0 .. BN·CH - 1 of a burst once it is done (20_memory.md R74, 42_bridge.md R156). A read
before that the spec gives no meaning. Two points are the model's choice, since no rule settles them: after a reset it answers no value even
for a burst that was done, though reset leaves OUT alone (DESIGN CHOICE, notes/assumptions/26), and HALTED does not hinder it
(DESIGN CHOICE, notes/assumptions/27). -/
def State.deviceSlot (s : State) (k : Nat) : Option (BitVec 64) :=
  match s.stream with
  | none => none
  | some st => if s.bact = false ∧ k < s.bn * st.ch.toNat then s.out.readSlot (formatWidth st.fmt) k else none

/-- A read of the buffer by the device has no side effect (20_memory.md R61, R74). -/
def deviceReadStep (_slot : Nat) (s : State) : Result := .next s

/-- A host read of STATUS or RES has no side effect and is allowed at all times (10_state.md R23, R24; 60_exceptions.md R205). -/
def hostReadStep (_port : ReadPort) (s : State) : Result := .next s

/-- The reset input, in any state (70_reset_and_hazards.md R230). -/
def resetStep (s : State) : Result := .next s.assertReset

end Sys2Proof.Machine
end

