-- ==== Sys2Proof/Machine/Rom.lean ====
section
/-! DEFINITION. The values the two generators give a table (40_wavetable.md R103, R104): the exact sawtooth and the sine ROM. -/

namespace Sys2Proof.Machine

open Sys2Proof

/-- `SAW_ROM(c, i) = RNE32(((2i/c + 1) mod 2) - 1)`, on exact rationals with denominator c (40_wavetable.md R104). -/
def sawRom (c i : Nat) : Binary32 := rne32 (((2 * i + c) % (2 * c) : Nat) - (c : Int)) c

/-- The unit of the sine ROM's fixed-point arithmetic: values are integers over 2^192. -/
def sineOne : Nat := 2 ^ 192

/-- π/2 in units of 2^-192, rounded down. -/
def halfPi : Nat := 0x1921FB54442D18469898CC51701B839A252049C1114CF98E8

/-- The alternating series t - t·x²/(k(k+1)) + … of `n` terms, with x2 the square of x in units of 2^-384. -/
def altSeries (x2 : Nat) : Nat → Nat → Nat → Int
  | 0, _, _ => 0
  | n + 1, k, t => (t : Int) - altSeries x2 n (k + 2) (t * x2 / (k * (k + 1) * sineOne ^ 2))

/-- sin x for 0 ≤ x ≤ π/2, in units of 2^-192: 32 terms of the Taylor series, kept within [0, 1]. -/
def sinFix (x : Nat) : Nat := min (altSeries (x * x) 32 2 x).toNat sineOne

/-- cos x for 0 ≤ x ≤ π/2, in units of 2^-192: 32 terms of the Taylor series, kept within [0, 1]. -/
def cosFix (x : Nat) : Nat := min (altSeries (x * x) 32 1 sineOne).toNat sineOne

/-- sin(2πi/c) in units of 2^-192, for i < c: the quadrant is exact, and the angle within it is (π/2)·r/c. -/
def sineApprox (c i : Nat) : Int :=
  let r := 4 * i % c
  let x := halfPi * r / c
  match 4 * i / c with
  | 0 => (sinFix x : Int)
  | 1 => (cosFix x : Int)
  | 2 => -(sinFix x : Int)
  | _ => -(cosFix x : Int)

/-- The default ROM: sin(2πi/c) rounded to binary32 (40_wavetable.md R103; notes/assumptions/5). -/
def sineRounded (c i : Nat) : Binary32 := rne32 (sineApprox c i) sineOne

/-- S1 and S2 of 40_wavetable.md R103 for one entry: finite, of magnitude at most 1, and within 10^-6 of the sine. -/
def sineAllowed (c i : Nat) (v : Binary32) : Bool :=
  isFinite v && decide (mag v ≤ 2 ^ 149) &&
  decide ((units v * sineOne - sineApprox c i * 2 ^ 149).natAbs * 10 ^ 6 ≤ sineOne * 2 ^ 149)

/-- SINE_ROM(c, i) (40_wavetable.md R103). The ROM other than the default is the free function, where that is within S1 and S2. -/
def sineRom (rom : Config.SineRom) (c i : Nat) : Binary32 :=
  match rom with
  | .rounded => sineRounded c i
  | .other => if sineAllowed c i (Config.sineFree c i) then Config.sineFree c i else sineRounded c i

/-- Entry i of a table of capacity c from a generator (40_wavetable.md R105, R108). -/
def romEntry (rom : Config.SineRom) (g : Generator) (c i : Nat) : Binary32 :=
  match g with
  | .sine => sineRom rom c i
  | .saw => sawRom c i

/-- The entries 0 .. c-1 of a fill, in index order (40_wavetable.md R105, R108). -/
def romEntries (rom : Config.SineRom) (g : Generator) (c : Nat) : List Binary32 :=
  (List.range c).map (romEntry rom g c)

end Sys2Proof.Machine
end

