-- ==== Sys2Proof/Machine/Wavetable.lean ====
section
/-! DEFINITION. The wavetable commands TNEW, TFILL, TLEN and TREAD (40_wavetable.md R107 to R110). The check "the word is illegal" comes
before these meanings, in the command port (60_exceptions.md R206). -/

namespace Sys2Proof.Machine

open Sys2Proof

/-- TNEW cap (40_wavetable.md R107). -/
def execTnew (cap : Nat) (s : State) : Result :=
  if cap = 0 then .next (s.raise .capZero)
  else if s.cfg.capMax < cap then .next (s.raise .capRange)
  else if s.cap ≠ 0 then .next (s.raise .tableExists)
  else .next { s with cap := cap, tlen := 0 }

/-- TFILL gen (40_wavetable.md R108). -/
def execTfill (gen : Nat) (s : State) : Result :=
  match generatorOf gen with
  | none => .next (s.raise .badGen)
  | some g =>
    if s.cap = 0 then .next (s.raise .noTable)
    else if s.tlen = s.cap then .next (s.raise .refill)
    else .next { s with table := s.table.fillEntries (romEntries s.cfg.sineRom g s.cap), tlen := s.cap }

/-- TLEN (40_wavetable.md R109). -/
def execTlen (s : State) : Result :=
  if s.cap = 0 then .next (s.raise .noTable)
  else .next (s.setRes (BitVec.ofNat 64 s.tlen))

/-- TREAD index (40_wavetable.md R110). -/
def execTread (index : Nat) (s : State) : Result :=
  if s.cap = 0 then .next (s.raise .noTable)
  else if s.tlen ≤ index then .next (s.raise .indexRange)
  else
    match s.table.readEntry index with
    | none => .fault .tableEntryAbsent
    | some v => .next (s.setRes (zext64 v))

end Sys2Proof.Machine
end

