-- ==== Sys2Proof/Machine/Dispatch.lean ====
section
/-! DEFINITION. One arm per command, each a direct call of its meaning (30_encoding.md R85). -/

namespace Sys2Proof.Machine

open Sys2Proof

def exec (i : Instr) (s : State) : Host.Outcome State Fault Refusal :=
  match i with
  | .tnew cap => Sys2Proof.Machine.execTnew cap s
  | .tfill gen => Sys2Proof.Machine.execTfill gen s
  | .tlen => Sys2Proof.Machine.execTlen s
  | .tread index => Sys2Proof.Machine.execTread index s
  | .oinit slot freq sr => Sys2Proof.Machine.execOinit slot freq sr s
  | .ofreq slot freq => Sys2Proof.Machine.execOfreq slot freq s
  | .ostep slot => Sys2Proof.Machine.execOstep slot s
  | .sstart fmt ch => Sys2Proof.Machine.execSstart fmt ch s
  | .qconv fmt value => Sys2Proof.Machine.execQconv fmt value s

end Sys2Proof.Machine
end

