-- ==== Sys2Proof/Machine/Command.lean ====
section
/-! DEFINITION. The command port (10_state.md R26) and the choice of the next agent's step (42_bridge.md R165): what `step` calls. -/

namespace Sys2Proof.Machine

open Sys2Proof

/-- Decode and execute one accepted word; a word that spells no instruction raises ILLEGAL (30_encoding.md R87, R89). -/
def runCommand (w : Command) (s : State) : Result :=
  match decode w with
  | .error _ => .next (s.raise .illegal)
  | .ok i => exec i s

/-- The outcome the history records: a command is accepted only with HALTED = 0, so HALTED = 1 after it says that it raised. -/
def State.commandOutcome (t : State) : CommandOutcome := if t.halted then .raised t.fault else .completed

/-- Record an accepted command with its word and outcome (10_state.md R28). -/
def recordCommand (w : Command) (r : Result) : Result :=
  match r with
  | .next t => .next (t.emit (.command w t.commandOutcome))
  | .fault f => .fault f
  | .refused f => .refused f

/-- The host's word is taken off its list and its index advances (10_state.md R21). -/
def State.takeWord (s : State) (rest : List Command) : State := { s with prog := rest, pc := s.pc + 1 }

/-- The host offers the next word of its program. It is accepted iff the port is ready, and is held otherwise (10_state.md R26). -/
def commandStep (s : State) : Result :=
  match s.prog with
  | [] => .next s
  | w :: rest => if s.portReady then recordCommand w (runCommand w (s.takeWord rest)) else .next s

/-- The step of the agent whose turn it is (00_scope.md R17). -/
def takeTurn (t : Turn) (s : State) : Result :=
  match t with
  | .command => commandStep s
  | .hostRead port => hostReadStep port s
  | .burstReq => burstStep s
  | .deviceRead slot => deviceReadStep slot s
  | .issue => issueStep s
  | .frame => frameStep s
  | .control => controlStep s
  | .teardown => teardownStep s
  | .devFail => devFailStep s
  | .reset => resetStep s

/-- One step of a legal configuration: the next turn of the schedule; with none left, every agent waits (60_exceptions.md R216,
70_reset_and_hazards.md R231). -/
def nextStep (s : State) : Result :=
  match s.sched with
  | [] => .next s
  | t :: rest => takeTurn t { s with sched := rest }

/-- Offer `w` next: it stands at the head of the host's program and the host has the next turn (notes/assumptions/14). -/
def State.offerWord (s : State) (w : Command) : State :=
  { s with prog := w :: s.prog, sched := .command :: s.sched }

end Sys2Proof.Machine
end

