-- ==== Sys2Proof/Machine/Step.lean ====
section
/-! DEFINITION. The step function: a configuration outside its legal range is refused (00_scope.md R8); any other takes the next turn. -/

namespace Sys2Proof.Machine

open Sys2Proof

/-- One step of the machine. -/
def step (s : State) : Host.Outcome State Fault Refusal :=
  if s.cfg.legal then nextStep s else .refused .illegalConfiguration

/-- The state in which the very next step accepts and runs the command whose word is the low `nbits` bits of `w`: WTOSC fetches
nothing (10_state.md R21), so the word is put where the host offers it (notes/assumptions/14). -/
def State.withFetchWord (s : State) (nbits w : Nat) : State :=
  s.offerWord (BitVec.ofNat 64 (w % 2 ^ nbits))

end Sys2Proof.Machine
end

