-- ==== Sys2Proof/Machine/Assembler.lean ====
section
/-! DEFINITION. The assembler (30_encoding.md R92 to R94): one line of text to the words it assembles to. No rule of the machine reads
it. Lexical details the rules leave open are in notes/assumptions/20. -/

namespace Sys2Proof.Machine

open Sys2Proof

/-- Why the assembler refuses a line (30_encoding.md R92, R93). -/
inductive AsmError where
  /-- the mnemonic is none of R92 and R94 -/
  | unknownMnemonic
  /-- the operands are not those of the mnemonic's form -/
  | wrongOperands
  /-- an operand is not of the form R92 and R93 give it, or is not exactly representable -/
  | badOperand
  /-- a value does not fit its field -/
  | doesNotFit
  deriving DecidableEq, Repr

/-- A space or tab. -/
def isBlank (c : Char) : Bool := c == ' ' || c == '\t'

/-- Drop the blanks at both ends. -/
def trimBlanks (cs : List Char) : List Char := ((cs.dropWhile isBlank).reverse.dropWhile isBlank).reverse

/-- The text before a comment (30_encoding.md R92). -/
def beforeComment (cs : List Char) : List Char := cs.takeWhile (fun c => c != ';')

/-- Split at commas; a text without one is one part. -/
def splitCommas : List Char → List (List Char)
  | [] => [[]]
  | c :: cs =>
    if c == ',' then [] :: splitCommas cs
    else
      match splitCommas cs with
      | [] => [[c]]
      | p :: ps => (c :: p) :: ps

/-- The value of a digit in a base, if it is one; the text is in capitals. -/
def digitValue (base : Nat) (c : Char) : Option Nat :=
  let n := c.toNat
  let d := if 48 ≤ n ∧ n ≤ 57 then n - 48 else if 65 ≤ n ∧ n ≤ 70 then n - 55 else base
  if d < base then some d else none

/-- The number a row of digits spells, `acc` being what stands before it. -/
def digitsFrom (base : Nat) : Nat → List Char → Option Nat
  | acc, [] => some acc
  | acc, c :: cs =>
    match digitValue base c with
    | none => none
    | some d => digitsFrom base (acc * base + d) cs

/-- One or more digits. -/
def digitsOf (base : Nat) (cs : List Char) : Option Nat := if cs.isEmpty then none else digitsFrom base 0 cs

/-- A decimal or `0x` integer (30_encoding.md R92). -/
def integerOf (cs : List Char) : Option Nat :=
  match cs with
  | '0' :: 'X' :: rest => digitsOf 16 rest
  | _ => digitsOf 10 cs

/-- A raw field, `#` and then an integer (30_encoding.md R93). -/
def rawOf (cs : List Char) : Option Nat :=
  match cs with
  | '#' :: rest => integerOf rest
  | _ => none

/-- A decimal number without sign as numerator and denominator (30_encoding.md R93). -/
def decimalOf (cs : List Char) : Option (Nat × Nat) :=
  let whole := cs.takeWhile (fun c => c != '.')
  match cs.dropWhile (fun c => c != '.') with
  | [] => (digitsOf 10 whole).map (fun n => (n, 1))
  | _ :: frac =>
    match digitsOf 10 whole, digitsOf 10 frac with
    | some n, some f => some (n * 10 ^ frac.length + f, 10 ^ frac.length)
    | _, _ => none

/-- A `freq` operand: a raw field, or a decimal that is exactly A/2^16 for an A in 1 .. 2^32 - 1 (30_encoding.md R93). -/
def freqOf (cs : List Char) : Option Nat :=
  match rawOf cs with
  | some a => some a
  | none =>
    match decimalOf cs with
    | none => none
    | some (n, d) =>
      let a := n * 2 ^ 16 / d
      if n * 2 ^ 16 % d = 0 ∧ 1 ≤ a ∧ a < 2 ^ 32 then some a else none

/-- The pattern of a signed decimal that is exactly a binary32 value (30_encoding.md R93). -/
def exactPattern (neg : Bool) (n d : Nat) : Option Binary32 :=
  let v := rne32 (if neg then -(n : Int) else (n : Int)) d
  if mag v * d = n * 2 ^ 149 ∧ isFinite v = true then some v else none

/-- A `value` operand of QCONV as the integer its field holds (30_encoding.md R93). -/
def valueOf (cs : List Char) : Option Nat :=
  match cs with
  | ['+', 'I', 'N', 'F'] => some 0x7F800000
  | ['-', 'I', 'N', 'F'] => some 0xFF800000
  | ['-', '0'] => some 0x80000000
  | '-' :: rest => ((decimalOf rest).bind (fun q => exactPattern true q.1 q.2)).map BitVec.toNat
  | _ =>
    match rawOf cs with
    | some a => some a
    | none => ((decimalOf cs).bind (fun q => exactPattern false q.1 q.2)).map BitVec.toNat

/-- A `gen` operand (30_encoding.md R91, R92). -/
def generatorNamed (cs : List Char) : Option Generator :=
  match cs with
  | ['S', 'I', 'N', 'E'] => some .sine
  | ['S', 'A', 'W'] => some .saw
  | _ => none

/-- A `fmt` operand (30_encoding.md R90, R92). -/
def formatNamed (cs : List Char) : Option Format :=
  match cs with
  | ['I', '8'] => some .i8
  | ['I', '1', '6'] => some .i16
  | ['I', '3', '2'] => some .i32
  | ['I', '6', '4'] => some .i64
  | ['U', '8'] => some .u8
  | ['U', '1', '6'] => some .u16
  | ['U', '3', '2'] => some .u32
  | ['U', '6', '4'] => some .u64
  | ['F', '3', '2'] => some .f32
  | ['F', '6', '4'] => some .f64
  | _ => none

/-- The nine mnemonics and the two pseudo-instructions (30_encoding.md R92, R94). -/
inductive AsmForm where
  | tnew | tfill | tlen | tread | oinit | ofreq | ostep | sstart | qconv | table | stream
  deriving DecidableEq, Repr

/-- The form a mnemonic in capitals names (30_encoding.md R92, R94). -/
def formNamed (cs : List Char) : Option AsmForm :=
  match cs with
  | ['T', 'N', 'E', 'W'] => some .tnew
  | ['T', 'F', 'I', 'L', 'L'] => some .tfill
  | ['T', 'L', 'E', 'N'] => some .tlen
  | ['T', 'R', 'E', 'A', 'D'] => some .tread
  | ['O', 'I', 'N', 'I', 'T'] => some .oinit
  | ['O', 'F', 'R', 'E', 'Q'] => some .ofreq
  | ['O', 'S', 'T', 'E', 'P'] => some .ostep
  | ['S', 'S', 'T', 'A', 'R', 'T'] => some .sstart
  | ['Q', 'C', 'O', 'N', 'V'] => some .qconv
  | ['T', 'A', 'B', 'L', 'E'] => some .table
  | ['S', 'T', 'R', 'E', 'A', 'M'] => some .stream
  | _ => none

/-- `TABLE cap, gen` (30_encoding.md R94). -/
def expandTable (cap gen : Nat) : List Instr := [.tnew cap, .tfill gen]

/-- `STREAM freq, sr, fmt, ch` (30_encoding.md R94). -/
def expandStream (freq sr fmt ch : Nat) : List Instr := [.oinit 0 freq sr, .sstart fmt ch]

/-- The commands of a form with its operands; none where an operand is not of its form (30_encoding.md R92 to R94). -/
def commandsOf (form : AsmForm) (ops : List (List Char)) : Except AsmError (List Instr) :=
  let read (o : Option (List Instr)) : Except AsmError (List Instr) :=
    match o with
    | some is => .ok is
    | none => .error .badOperand
  match form, ops with
  | .tnew, [c] => read ((integerOf c).map fun n => [.tnew n])
  | .tfill, [g] => read ((generatorNamed g).map fun x => [.tfill (generatorCode x)])
  | .tlen, [] => .ok [.tlen]
  | .tread, [i] => read ((integerOf i).map fun n => [.tread n])
  | .oinit, [o, f, r] =>
    read ((integerOf o).bind fun n => (freqOf f).bind fun a => (integerOf r).map fun b => [.oinit n a b])
  | .ofreq, [o, f] => read ((integerOf o).bind fun n => (freqOf f).map fun a => [.ofreq n a])
  | .ostep, [o] => read ((integerOf o).map fun n => [.ostep n])
  | .sstart, [f, c] => read ((formatNamed f).bind fun x => (integerOf c).map fun n => [.sstart (formatCode x) n])
  | .qconv, [f, v] =>
    match formatNamed f, valueOf v with
    | some x, some n =>
      if n < 2 ^ 32 then .ok [.qconv (formatCode x) (BitVec.ofNat 32 n)] else .error .doesNotFit
    | _, _ => .error .badOperand
  | .table, [c, g] => read ((integerOf c).bind fun n => (generatorNamed g).map fun x => expandTable n (generatorCode x))
  | .stream, [f, r, x, c] =>
    read ((freqOf f).bind fun a => (integerOf r).bind fun b => (formatNamed x).bind fun y =>
      (integerOf c).map fun n => expandStream a b (formatCode y) n)
  | _, _ => .error .wrongOperands

/-- The operands after a mnemonic; none where nothing stands there. -/
def operandsOf (cs : List Char) : List (List Char) :=
  let t := trimBlanks cs
  if t.isEmpty then [] else (splitCommas t).map trimBlanks

/-- Assemble one line; case does not matter, and a line of blanks or a comment assembles to nothing (30_encoding.md R92). -/
def assembleLine (line : List Char) : Except AsmError (List Command) :=
  let text := trimBlanks ((beforeComment line).map Char.toUpper)
  if text.isEmpty then .ok []
  else
    match formNamed (text.takeWhile (fun c => !isBlank c)) with
    | none => .error .unknownMnemonic
    | some form =>
      match commandsOf form (operandsOf (text.dropWhile (fun c => !isBlank c))) with
      | .error e => .error e
      | .ok is => if is.all Instr.wf then .ok (is.map encode) else .error .doesNotFit

/-- Assemble a program, one line after another (30_encoding.md R92). -/
def assemble : List (List Char) → Except AsmError (List Command)
  | [] => .ok []
  | l :: ls =>
    match assembleLine l, assemble ls with
    | .ok ws, .ok rest => .ok (ws ++ rest)
    | .error e, _ => .error e
    | _, .error e => .error e

end Sys2Proof.Machine
end

