-- ==== Sys2Proof/Safety.lean ====
section
/-! DEFINITION. The terms claims use: runs, final states (42_bridge.md R167), the sequences of the event history (10_state.md R28), and
the invariants the spec states of every reachable state. -/

namespace Sys2Proof.Machine

open Sys2Proof

/-! ### Runs -/

/-- `n` steps, stopping at the first that answers no next state. -/
def runSteps : Nat → State → Result
  | 0, s => .next s
  | n + 1, s =>
    match step s with
    | .next t => runSteps n t
    | .fault f => .fault f
    | .refused r => .refused r

/-- The commands of a list one after another, stopping at the first that answers no next state. -/
def execAll : List Instr → State → Result
  | [], s => .next s
  | i :: rest, s =>
    match exec i s with
    | .next t => execAll rest t
    | .fault f => .fault f
    | .refused r => .refused r

/-- A final state (42_bridge.md R167). -/
def State.final (s : State) : Bool :=
  !s.halted && s.prog.isEmpty && !s.bact && !s.pend && s.reqq == 0 && s.respq.isEmpty

/-! ### The event history -/

/-- The samples the control unit computed, oldest first (10_state.md R28). -/
def ctlSamples (h : List Event) : List Binary32 :=
  h.filterMap fun e => match e with | .ctlSample v => some v | _ => none

/-- The samples the render unit received, oldest first (10_state.md R28). -/
def rndSamples (h : List Event) : List Binary32 :=
  h.filterMap fun e => match e with | .rndSample v => some v | _ => none

/-! ### Exact arithmetic the laws speak of -/

/-- `x mod c` on rationals, the result in [0, c) for c > 0 (00_scope.md R10). -/
def ratMod (x c : ℚ) : ℚ := x - c * (⌊x / c⌋ : ℚ)

/-- `floor((n·f·CAP/sr) mod CAP)` for f = F/2^16, the index of the exact sequence law (41_oscillator.md R136). -/
def lawIndex (n freq cap sr : Nat) : Nat :=
  ⌊ratMod ((n : ℚ) * ((freq : ℚ) / 2 ^ 16) * cap / sr) cap⌋₊

/-- r is the integer nearest to x, ties to even (43_quantizer.md R182, RNE). -/
def NearestEven (x : ℚ) (r : ℤ) : Prop :=
  |(r : ℚ) - x| ≤ 1 / 2 ∧ (|(r : ℚ) - x| = 1 / 2 → Even r)

/-- r is x rounded toward zero (43_quantizer.md R182, RTZ). -/
def TowardZero (x : ℚ) (r : ℤ) : Prop :=
  (0 ≤ x → (r : ℚ) ≤ x ∧ x < r + 1) ∧ (x ≤ 0 → x ≤ r ∧ (r : ℚ) - 1 < x)

/-- r is x rounded as QUANT_ROUND says (43_quantizer.md R182). -/
def RoundsTo (mode : Config.QuantRound) (x : ℚ) (r : ℤ) : Prop :=
  match mode with
  | .rne => NearestEven x r
  | .rtz => TowardZero x r

/-- A finite value in [-1, 1] (40_wavetable.md R106). -/
def InUnitRange (v : Binary32) : Prop := isFinite v = true ∧ -1 ≤ val v ∧ val v ≤ 1

/-! ### Invariants -/

/-- The table invariants of 10_state.md R30 with the reads 20_memory.md R62 allows and the ranges of 40_wavetable.md R106. -/
structure TableInv (s : State) : Prop where
  /-- CAP ≤ CAP_MAX -/
  capBound : s.cap ≤ s.cfg.capMax
  /-- TLEN ∈ {0, CAP} -/
  lenZeroOrCap : s.tlen = 0 ∨ s.tlen = s.cap
  /-- every entry below TLEN holds a finite value in [-1, 1] -/
  entries : ∀ i, i < s.tlen → ∃ v, s.table.readEntry i = some v ∧ InUnitRange v
  /-- no other entry holds a value -/
  othersNone : ∀ i, s.tlen ≤ i → s.table.readEntry i = none

/-- The slot invariants of 10_state.md R32. -/
structure SlotInv (s : State) : Prop where
  /-- there are N_OSC slots (10_state.md R31) -/
  count : s.slots.length = s.cfg.nOsc
  /-- a live slot has a filled table, F ≥ 1, SR ≥ 1 and P < M -/
  live : ∀ o sl, s.slot o = some sl →
    s.cap ≠ 0 ∧ s.tlen = s.cap ∧ 1 ≤ sl.freq.toNat ∧ 1 ≤ sl.rate.toNat ∧ sl.phase < sl.modulus s.cap

/-- While the stream runs slot 0 is live and CH is legal (10_state.md R33, 42_bridge.md R152, R157). -/
def StreamInv (s : State) : Prop :=
  ∀ st, s.stream = some st → s.ov 0 = true ∧ 1 ≤ st.ch.toNat ∧ st.ch.toNat ≤ s.cfg.chMax

/-- Pairing (42_bridge.md R159) with the burst invariant of 10_state.md R35. -/
structure BridgeInv (s : State) : Prop where
  /-- while a burst is active: SEN = 1, BPOS < BN ≤ FRAMES_MAX, and REQQ + |RESPQ| + (1 - PEND) = 1 -/
  active : s.bact = true →
    s.sen = true ∧ s.bpos < s.bn ∧ s.bn ≤ s.cfg.framesMax ∧
    s.reqq + s.respq.length + (if s.pend then 0 else 1) = 1
  /-- otherwise nothing is outstanding -/
  idle : s.bact = false → s.reqq = 0 ∧ s.respq = [] ∧ s.pend = false
  /-- the samples received are the samples computed, less those still queued -/
  paired : ctlSamples s.hist = rndSamples s.hist ++ s.respq

/-- HALTED = 1 iff a fault code stands in FAULT, and FAULT holds a code of 60_exceptions.md R201 (10_state.md R25). -/
structure FaultInv (s : State) : Prop where
  haltedIff : s.halted = true ↔ s.fault ≠ 0
  known : s.fault = 0 ∨ ∃ c : FaultCode, s.fault = c.code

/-- Both storage spaces keep their canonical form. -/
def SpacesInv (s : State) : Prop := s.table.wf ∧ s.out.wf

/-- Every sample on its way is in range, so the frame step never meets a NaN (42_bridge.md R155, R157). -/
def SamplesInv (s : State) : Prop := ∀ v ∈ s.respq, InUnitRange v

/-- What the buffer holds is what the render unit received: in the current burst, or the last one, frame j's every channel slot holds the
conversion of the j-th of the last BPOS samples received (42_bridge.md R155, R160; 43_quantizer.md R189). -/
def OutputInv (s : State) : Prop :=
  s.bpos ≤ (rndSamples s.hist).length ∧
  (s.stream = none → s.bpos = 0) ∧
  ∀ st, s.stream = some st → ∀ j c, j < s.bpos → c < st.ch.toNat →
    ∃ v q, (rndSamples s.hist)[(rndSamples s.hist).length - s.bpos + j]? = some v ∧
      quant s.cfg.quantRound st.fmt v = .ok q ∧
      s.out.readSlot (formatWidth st.fmt) (j * st.ch.toNat + c) = some q

/-- The machine invariant. -/
structure Inv (s : State) : Prop where
  table : TableInv s
  slots : SlotInv s
  stream : StreamInv s
  bridge : BridgeInv s
  fault : FaultInv s
  spaces : SpacesInv s
  samples : SamplesInv s

end Sys2Proof.Machine
end

