-- ==== Sys2Proof/Certificates/Slice0/Obligations.lean ====
section
/-! DEFINITION. The statements for the provers. Each docstring names the rules of spec/ it formalises. -/

open Sys2Proof Sys2Proof.Machine

/-! ### Encoding -/

/-- Every well-formed command survives encoding and decoding, with every operand at every value its field admits
(30_encoding.md R81, R85, R89). -/
def Obligations.DecodeOfEncodeIsIdentity : Prop :=
  ∀ i : Instr, i.wf = true → decode (encode i) = .ok i

/-- Every word the decoder accepts is the word of the command it reads, so no bit of it is dropped, and that command is well-formed
(30_encoding.md R81, R85, R89). -/
def Obligations.EncodeOfDecodeIsIdentity : Prop :=
  ∀ (w : Command) (i : Instr), decode w = .ok i → encode i = w ∧ i.wf = true

/-- The illegal words, field by field, are exactly the words the decoder rejects, and executing one raises ILLEGAL, code 0x01
(30_encoding.md R87). -/
def Obligations.IllegalWordsAreExactlyTheListedOnes : Prop :=
  (∀ w : Command,
    ((∃ e, decode w = .error e) ↔
      (opField w = 0 ∨ 0xA ≤ opField w ∨ rsvField w ≠ 0 ∨
       (opField w = 0x1 ∧ (selField w ≠ 0 ∨ bField w ≠ 0)) ∨
       (opField w = 0x2 ∧ (bField w ≠ 0 ∨ aField w ≠ 0)) ∨
       (opField w = 0x3 ∧ (selField w ≠ 0 ∨ bField w ≠ 0 ∨ aField w ≠ 0)) ∨
       (opField w = 0x4 ∧ (selField w ≠ 0 ∨ bField w ≠ 0)) ∨
       (opField w = 0x6 ∧ bField w ≠ 0) ∨
       (opField w = 0x7 ∧ (bField w ≠ 0 ∨ aField w ≠ 0)) ∨
       (opField w = 0x8 ∧ aField w ≠ 0) ∨
       (opField w = 0x9 ∧ bField w ≠ 0)))) ∧
  (∀ (w : Command) (s : State) (e : Illegal), decode w = .error e → runCommand w s = .next (s.raise .illegal)) ∧
  (∀ (w : Command) (s : State) (i : Instr), decode w = .ok i → runCommand w s = exec i s) ∧
  FaultCode.illegal.code = 0x01 ∧ (∃ e, decode 0 = .error e)

/-- A word spells the command of a row of the match and mask table iff the word masked is the row's match, and no word matches two rows
(30_encoding.md R86). -/
def Obligations.WordsSpellTheRowTheyMatch : Prop :=
  let rows : List (Opcode × Command × Command) :=
    [(.tnew, 0x0000000000000001, 0x00000000FFFFFFFF), (.tfill, 0x0000000000000002, 0xFFFFFFFFFFFFFF0F),
     (.tlen, 0x0000000000000003, 0xFFFFFFFFFFFFFFFF), (.tread, 0x0000000000000004, 0x00000000FFFFFFFF),
     (.oinit, 0x0000000000000005, 0x0000000000000F0F), (.ofreq, 0x0000000000000006, 0x00000000FFFFFF0F),
     (.ostep, 0x0000000000000007, 0xFFFFFFFFFFFFFF0F), (.sstart, 0x0000000000000008, 0xFFFFFFFF00000F0F),
     (.qconv, 0x0000000000000009, 0x00000000FFFFFF0F)]
  (∀ r ∈ rows, ∀ w : Command, w &&& r.2.2 = r.2.1 ↔ ∃ i, decode w = .ok i ∧ i.opcode = r.1) ∧
  (∀ r ∈ rows, ∀ r' ∈ rows, ∀ w : Command, w &&& r.2.2 = r.2.1 → w &&& r'.2.2 = r'.2.1 → r = r')

/-- The encoding examples of the spec: each line assembles to its word, and each word decodes to its command (30_encoding.md R95). -/
def Obligations.EncodingExamplesOfTheSpec : Prop :=
  assembleLine "TNEW 64".toList = .ok [0x0000004000000001] ∧
  assembleLine "TFILL SINE".toList = .ok [0x0000000000000002] ∧
  assembleLine "TFILL SAW".toList = .ok [0x0000000000000012] ∧
  assembleLine "TLEN".toList = .ok [0x0000000000000003] ∧
  assembleLine "TREAD 31".toList = .ok [0x0000001F00000004] ∧
  assembleLine "OINIT 0, 440, 44000".toList = .ok [0x01B800000ABE0005] ∧
  assembleLine "OSTEP 0".toList = .ok [0x0000000000000007] ∧
  assembleLine "SSTART I16, 2".toList = .ok [0x0000000000002018] ∧
  assembleLine "QCONV I16, 1.0".toList = .ok [0x3F80000000000019] ∧
  [0x0000004000000001, 0x0000000000000002, 0x0000000000000012, 0x0000000000000003, 0x0000001F00000004,
   0x01B800000ABE0005, 0x0000000000000007, 0x0000000000002018, 0x3F80000000000019].map (fun w => (decode w).toOption) =
  [some (.tnew 64), some (.tfill 0), some (.tfill 1), some .tlen, some (.tread 31),
   some (.oinit 0 0x01B80000 44000), some (.ostep 0), some (.sstart 1 2), some (.qconv 1 0x3F800000)]

/-! ### Commands: checks in order, effect, frame -/

/-- TNEW (40_wavetable.md R107): the encoding, the checks in order, the effect, and everything else unchanged. -/
def Obligations.TnewFollowsItsRule : Prop :=
  (∀ (w : Command) (s : State), opField w = 0x1 →
    ((rsvField w = 0 ∧ selField w = 0 ∧ bField w = 0 → runCommand w s = exec (.tnew (aField w).toNat) s) ∧
     (¬(rsvField w = 0 ∧ selField w = 0 ∧ bField w = 0) → runCommand w s = .next (s.raise .illegal)))) ∧
  ∀ (cap : Nat) (s : State),
    (cap = 0 → exec (.tnew cap) s = .next (s.raise .capZero)) ∧
    (cap ≠ 0 → s.cfg.capMax < cap → exec (.tnew cap) s = .next (s.raise .capRange)) ∧
    (cap ≠ 0 → cap ≤ s.cfg.capMax → s.cap ≠ 0 → exec (.tnew cap) s = .next (s.raise .tableExists)) ∧
    (cap ≠ 0 → cap ≤ s.cfg.capMax → s.cap = 0 →
      exec (.tnew cap) s = .next { s with cap := cap, tlen := 0 } ∧
      ({ s with cap := cap, tlen := 0 } : State).status.getLsbD 1 = true)

/-- TFILL (40_wavetable.md R108): the encoding, the checks in order, every entry below CAP from its generator, TLEN = CAP, every table byte
past the entries and everything else unchanged. -/
def Obligations.TfillFollowsItsRule : Prop :=
  (∀ (w : Command) (s : State), opField w = 0x2 →
    ((rsvField w = 0 ∧ bField w = 0 ∧ aField w = 0 → runCommand w s = exec (.tfill (selField w).toNat) s) ∧
     (¬(rsvField w = 0 ∧ bField w = 0 ∧ aField w = 0) → runCommand w s = .next (s.raise .illegal)))) ∧
  ∀ (gen : Nat) (s : State),
    (2 ≤ gen → exec (.tfill gen) s = .next (s.raise .badGen)) ∧
    (gen < 2 → s.cap = 0 → exec (.tfill gen) s = .next (s.raise .noTable)) ∧
    (gen < 2 → s.cap ≠ 0 → s.tlen = s.cap → exec (.tfill gen) s = .next (s.raise .refill)) ∧
    (gen < 2 → s.cap ≠ 0 → s.tlen ≠ s.cap →
      ∃ t : State, exec (.tfill gen) s = .next t ∧
        (∀ i, i < s.cap → t.table.readEntry i =
          some (if gen = 0 then sineRom s.cfg.sineRom s.cap i else sawRom s.cap i)) ∧
        (∀ a, 4 * s.cap ≤ a → t.table.readByte a = s.table.readByte a) ∧
        t = { s with table := t.table, tlen := s.cap } ∧
        t.status.getLsbD 2 = true)

/-- TLEN (40_wavetable.md R109): the encoding, the check, RES = TLEN zero-extended, everything else unchanged; no value but 0 and CAP is ever
returned. -/
def Obligations.TlenFollowsItsRule : Prop :=
  (∀ (w : Command) (s : State), opField w = 0x3 →
    ((rsvField w = 0 ∧ selField w = 0 ∧ bField w = 0 ∧ aField w = 0 → runCommand w s = exec .tlen s) ∧
     (¬(rsvField w = 0 ∧ selField w = 0 ∧ bField w = 0 ∧ aField w = 0) →
       runCommand w s = .next (s.raise .illegal)))) ∧
  ∀ s : State,
    (s.cap = 0 → exec .tlen s = .next (s.raise .noTable)) ∧
    (s.cap ≠ 0 → exec .tlen s = .next { s with res := BitVec.ofNat 64 s.tlen }) ∧
    (s.cap ≠ 0 → s.cfg.legal = true → TableInv s → ∃ t, exec .tlen s = .next t ∧
      (t.res.toNat = s.tlen ∧ (s.tlen = 0 ∨ s.tlen = s.cap)))

/-- TREAD (40_wavetable.md R110): the encoding, the checks in order, RES = T[A] zero-extended, the table and everything else
unchanged. -/
def Obligations.TreadFollowsItsRule : Prop :=
  (∀ (w : Command) (s : State), opField w = 0x4 →
    ((rsvField w = 0 ∧ selField w = 0 ∧ bField w = 0 → runCommand w s = exec (.tread (aField w).toNat) s) ∧
     (¬(rsvField w = 0 ∧ selField w = 0 ∧ bField w = 0) → runCommand w s = .next (s.raise .illegal)))) ∧
  ∀ (index : Nat) (s : State),
    (s.cap = 0 → exec (.tread index) s = .next (s.raise .noTable)) ∧
    (s.cap ≠ 0 → s.tlen ≤ index → exec (.tread index) s = .next (s.raise .indexRange)) ∧
    (∀ v : Binary32, s.cap ≠ 0 → index < s.tlen → s.table.readEntry index = some v →
      exec (.tread index) s = .next { s with res := v.setWidth 64 })

/-- OINIT (41_oscillator.md R132): the encoding, the checks in order, F, SR, P = 0 and OV of the slot, every other slot and everything else
unchanged. -/
def Obligations.OinitFollowsItsRule : Prop :=
  (∀ (w : Command) (s : State), opField w = 0x5 →
    ((rsvField w = 0 → runCommand w s = exec (.oinit (selField w).toNat (aField w).toNat (bField w).toNat) s) ∧
     (rsvField w ≠ 0 → runCommand w s = .next (s.raise .illegal)))) ∧
  ∀ (o freq sr : Nat) (s : State),
    (s.cfg.nOsc ≤ o → exec (.oinit o freq sr) s = .next (s.raise .badSlot)) ∧
    (o < s.cfg.nOsc → freq = 0 → exec (.oinit o freq sr) s = .next (s.raise .badFreq)) ∧
    (o < s.cfg.nOsc → freq ≠ 0 → sr = 0 → exec (.oinit o freq sr) s = .next (s.raise .badSr)) ∧
    (o < s.cfg.nOsc → freq ≠ 0 → sr ≠ 0 → s.cap = 0 → exec (.oinit o freq sr) s = .next (s.raise .noTable)) ∧
    (o < s.cfg.nOsc → freq ≠ 0 → sr ≠ 0 → s.cap ≠ 0 → s.tlen ≠ s.cap →
      exec (.oinit o freq sr) s = .next (s.raise .notFilled)) ∧
    (o < s.cfg.nOsc → freq ≠ 0 → sr ≠ 0 → s.cap ≠ 0 → s.tlen = s.cap → o = 0 → s.sen = true →
      exec (.oinit o freq sr) s = .next (s.raise .oscOwned)) ∧
    (o < s.cfg.nOsc → freq ≠ 0 → sr ≠ 0 → s.cap ≠ 0 → s.tlen = s.cap → ¬(o = 0 ∧ s.sen = true) →
      s.cfg.nOsc ≤ 16 → s.slots.length = s.cfg.nOsc →
      ∃ t : State, exec (.oinit o freq sr) s = .next t ∧
        t.slot o = some { freq := BitVec.ofNat 32 freq, rate := BitVec.ofNat 20 sr, phase := 0 } ∧
        (∀ p, p ≠ o → t.slot p = s.slot p) ∧ t.slots.length = s.slots.length ∧
        t = { s with slots := t.slots } ∧ t.status.getLsbD (16 + o) = true)

/-- OSTEP (41_oscillator.md R134, with oscStep R133): the encoding, the checks in order, RES = the entry at P div D before the advance,
P = (P + S) mod M with F and SR kept, every other slot and everything else unchanged. -/
def Obligations.OstepFollowsItsRule : Prop :=
  (∀ (w : Command) (s : State), opField w = 0x7 →
    ((rsvField w = 0 ∧ bField w = 0 ∧ aField w = 0 → runCommand w s = exec (.ostep (selField w).toNat) s) ∧
     (¬(rsvField w = 0 ∧ bField w = 0 ∧ aField w = 0) → runCommand w s = .next (s.raise .illegal)))) ∧
  ∀ (o : Nat) (s : State),
    (s.cfg.nOsc ≤ o → exec (.ostep o) s = .next (s.raise .badSlot)) ∧
    (o < s.cfg.nOsc → s.slot o = none → exec (.ostep o) s = .next (s.raise .oscInvalid)) ∧
    (o < s.cfg.nOsc → s.slot o ≠ none → o = 0 → s.sen = true → exec (.ostep o) s = .next (s.raise .oscOwned)) ∧
    (∀ (sl : Slot) (a : Binary32), o < s.cfg.nOsc → s.slot o = some sl → ¬(o = 0 ∧ s.sen = true) →
      s.table.readEntry (sl.phase / (sl.rate.toNat * 2 ^ 16)) = some a →
      ∃ t : State, exec (.ostep o) s = .next t ∧
        t.res = a.setWidth 64 ∧
        t.slot o = some
          { sl with phase := (sl.phase + sl.freq.toNat * s.cap) % (s.cap * (sl.rate.toNat * 2 ^ 16)) } ∧
        (∀ p, p ≠ o → t.slot p = s.slot p) ∧ t.slots.length = s.slots.length ∧
        t = { s with slots := t.slots, res := t.res })

/-- OFREQ (41_oscillator.md R135): the encoding, the checks in order, F of the slot with its P and SR kept, every other slot and everything else
unchanged; slot 0 is allowed while the stream runs. -/
def Obligations.OfreqFollowsItsRule : Prop :=
  (∀ (w : Command) (s : State), opField w = 0x6 →
    ((rsvField w = 0 ∧ bField w = 0 → runCommand w s = exec (.ofreq (selField w).toNat (aField w).toNat) s) ∧
     (¬(rsvField w = 0 ∧ bField w = 0) → runCommand w s = .next (s.raise .illegal)))) ∧
  ∀ (o freq : Nat) (s : State),
    (s.cfg.nOsc ≤ o → exec (.ofreq o freq) s = .next (s.raise .badSlot)) ∧
    (o < s.cfg.nOsc → freq = 0 → exec (.ofreq o freq) s = .next (s.raise .badFreq)) ∧
    (o < s.cfg.nOsc → freq ≠ 0 → s.slot o = none → exec (.ofreq o freq) s = .next (s.raise .oscInvalid)) ∧
    (∀ sl : Slot, o < s.cfg.nOsc → freq ≠ 0 → s.slot o = some sl →
      ∃ t : State, exec (.ofreq o freq) s = .next t ∧
        t.slot o = some { sl with freq := BitVec.ofNat 32 freq } ∧
        (∀ p, p ≠ o → t.slot p = s.slot p) ∧ t.slots.length = s.slots.length ∧
        t = { s with slots := t.slots })

/-- SSTART (42_bridge.md R152): the encoding, the checks in order, FMT, CH and SEN, everything else unchanged. -/
def Obligations.SstartFollowsItsRule : Prop :=
  (∀ (w : Command) (s : State), opField w = 0x8 →
    ((rsvField w = 0 ∧ aField w = 0 → runCommand w s = exec (.sstart (selField w).toNat (bField w).toNat) s) ∧
     (¬(rsvField w = 0 ∧ aField w = 0) → runCommand w s = .next (s.raise .illegal)))) ∧
  ∀ (fmt ch : Nat) (s : State),
    (10 ≤ fmt → exec (.sstart fmt ch) s = .next (s.raise .badFmt)) ∧
    (fmt < 10 → ch = 0 ∨ s.cfg.chMax < ch → exec (.sstart fmt ch) s = .next (s.raise .badCh)) ∧
    (fmt < 10 → ch ≠ 0 → ch ≤ s.cfg.chMax → s.sen = true → exec (.sstart fmt ch) s = .next (s.raise .streamActive)) ∧
    (fmt < 10 → ch ≠ 0 → ch ≤ s.cfg.chMax → s.sen = false → s.ov 0 = false →
      exec (.sstart fmt ch) s = .next (s.raise .streamNoOsc)) ∧
    (fmt < 10 → ch ≠ 0 → ch ≤ s.cfg.chMax → s.sen = false → s.ov 0 = true →
      ∃ t f, exec (.sstart fmt ch) s = .next t ∧ formatCode f = fmt ∧
        t = { s with stream := some { fmt := f, ch := BitVec.ofNat 20 ch } } ∧ t.status.getLsbD 3 = true)

/-- QCONV (43_quantizer.md R188): the encoding, the checks in order, RES = the quantizer's pattern zero-extended, everything else
unchanged. -/
def Obligations.QconvFollowsItsRule : Prop :=
  (∀ (w : Command) (s : State), opField w = 0x9 →
    ((rsvField w = 0 ∧ bField w = 0 → runCommand w s = exec (.qconv (selField w).toNat (aField w)) s) ∧
     (¬(rsvField w = 0 ∧ bField w = 0) → runCommand w s = .next (s.raise .illegal)))) ∧
  ∀ (fmt : Nat) (v : Binary32) (s : State),
    (10 ≤ fmt → exec (.qconv fmt v) s = .next (s.raise .badFmt)) ∧
    (fmt < 10 → isNaN v = true → exec (.qconv fmt v) s = .next (s.raise .qnan)) ∧
    (fmt < 10 → isNaN v = false →
      ∃ f q, formatCode f = fmt ∧ quant s.cfg.quantRound f v = .ok q ∧ q.toNat < 2 ^ formatWidth f ∧
        exec (.qconv fmt v) s = .next { s with res := q })

/-- Of each command, the fault codes it can raise are those of the code table (60_exceptions.md R201, R202). -/
def Obligations.CommandsRaiseOnlyTheirCodes : Prop :=
  ∀ (i : Instr) (s t : State), exec i s = .next t → s.halted = false → t.halted = true →
    ∃ f : FaultCode, t = s.raise f ∧
      f ∈ (match i with
        | .tnew _ => [.capZero, .capRange, .tableExists]
        | .tfill _ => [.badGen, .noTable, .refill]
        | .tlen => [.noTable]
        | .tread _ => [.noTable, .indexRange]
        | .oinit _ _ _ => [.badSlot, .badFreq, .badSr, .noTable, .notFilled, .oscOwned]
        | .ofreq _ _ => [.badSlot, .badFreq, .oscInvalid]
        | .ostep _ => [.badSlot, .oscInvalid, .oscOwned]
        | .sstart _ _ => [.badFmt, .badCh, .streamActive, .streamNoOsc]
        | .qconv _ _ => [.badFmt, .qnan] : List FaultCode)

/-! ### Faults, halt, reset -/

/-- The fault entry (60_exceptions.md R203): FAULT only if it held 0x00, HALTED, the event, and nothing else. -/
def Obligations.FaultEntryIsAsStated : Prop :=
  ∀ (s : State) (f : FaultCode),
    (s.fault = 0x00 → (s.raise f).fault = f.code) ∧
    (s.fault ≠ 0x00 → (s.raise f).fault = s.fault) ∧
    (s.raise f).halted = true ∧ (s.raise f).hist = s.hist ++ [.fault f] ∧
    s.raise f = { s with fault := (s.raise f).fault, halted := true, hist := s.hist ++ [.fault f] } ∧
    f.code ≠ 0x00

/-- Faults are precise (60_exceptions.md R204): the step that raises changes no state of the block but FAULT and HALTED, and no command
after the faulting one is accepted. -/
def Obligations.FaultsArePrecise : Prop :=
  (∀ s t : State, step s = .next t → s.halted = false → t.halted = true →
    t = { s with fault := t.fault, halted := true, hist := t.hist, prog := t.prog, pc := t.pc, sched := t.sched }) ∧
  (∀ s t : State, step s = .next t → s.halted = true → t.halted = true → t.prog = s.prog ∧ t.pc = s.pc)

/-- While halted (60_exceptions.md R205) the port is not ready, and no step but reset changes anything: the schedule alone
moves on. -/
def Obligations.HaltedBlockOnlyWaitsForReset : Prop :=
  ∀ s : State, s.halted = true →
    s.portReady = false ∧ (∀ n, s.burstEnabled n = false) ∧ s.issueEnabled = false ∧ s.frameEnabled = false ∧
    s.controlEnabled = false ∧
    (s.cfg.legal = true → s.sched.head? ≠ some .reset → step s = .next { s with sched := s.sched.tail })

/-- FAULT and HALTED (10_state.md R25): they change only together, on a fault entry or on reset; FAULT keeps the first code raised; HALTED
stays until reset. -/
def Obligations.FaultAndHaltedChangeTogether : Prop :=
  ∀ s t : State, step s = .next t → FaultInv s → s.sched.head? ≠ some .reset →
    (s.halted = true → t.halted = true) ∧ (s.fault ≠ 0 → t.fault = s.fault) ∧
    (t.fault ≠ s.fault ↔ t.halted ≠ s.halted) ∧
    (t.halted ≠ s.halted → ∃ f : FaultCode, t.fault = f.code ∧ Event.fault f ∈ t.hist)

/-- Reset (70_reset_and_hazards.md R230) puts every piece of state at its reset value in one step, whatever the state was, halted or not, and does
not touch the device's buffer. -/
def Obligations.ResetPutsEveryFieldAtItsResetValue : Prop :=
  ∀ (s : State) (rest : List Turn), s.cfg.legal = true → s.sched = .reset :: rest →
    ∃ t : State, step s = .next t ∧
      t.cap = 0 ∧ t.tlen = 0 ∧ (∀ i, t.table.readEntry i = none) ∧
      t.slots.length = s.cfg.nOsc ∧ (∀ o, t.slot o = none) ∧ t.stream = none ∧
      t.reqq = 0 ∧ t.respq = [] ∧ t.pend = false ∧ t.bact = false ∧ t.bn = 0 ∧ t.bpos = 0 ∧
      t.res = 0 ∧ t.fault = 0x00 ∧ t.halted = false ∧ t.status = 0x00000000 ∧ t.out = s.out

/-! ### Registers and ports -/

/-- STATUS, bit by bit (10_state.md R24), and the read ports: numbers 0 and 1 alone, no side effect. That a port answers 64 bits, STATUS
zero-extended, is the model's choice (notes/assumptions/24). -/
def Obligations.StatusBitsAreAsStated : Prop :=
  (∀ s : State,
    s.status.getLsbD 0 = s.halted ∧
    (s.status.getLsbD 1 = true ↔ s.cap ≠ 0) ∧
    (s.status.getLsbD 2 = true ↔ s.cap ≠ 0 ∧ s.tlen = s.cap) ∧
    s.status.getLsbD 3 = s.sen ∧
    s.status.getLsbD 4 = s.bact ∧
    s.status.extractLsb' 5 3 = 0 ∧
    s.status.extractLsb' 8 8 = s.fault ∧
    (∀ o, o < 16 → s.status.getLsbD (16 + o) = (decide (o < s.cfg.nOsc) && s.ov o)) ∧
    s.readPort .status = s.status.setWidth 64 ∧ s.readPort .res = s.res) ∧
  (∀ (s : State) (p : ReadPort) (rest : List Turn), s.cfg.legal = true → s.sched = .hostRead p :: rest →
    step s = .next { s with sched := rest }) ∧
  (∀ n, portOf n = if n = 0 then some .status else if n = 1 then some .res else none) ∧
  State.reset.status = 0x00000000

/-- RES (10_state.md R23): TLEN, TREAD, OSTEP and QCONV write it and no other step but reset does; a command that raises leaves it; a read has
no side effect. -/
def Obligations.OnlyFourCommandsWriteRes : Prop :=
  ∀ s t : State, step s = .next t → t.res ≠ s.res →
    s.sched.head? = some .reset ∨
    (s.sched.head? = some .command ∧ t.halted = false ∧
      ∃ w i, s.prog.head? = some w ∧ decode w = .ok i ∧
        (i = .tlen ∨ (∃ a, i = .tread a) ∨ (∃ o, i = .ostep o) ∨ (∃ f v, i = .qconv f v)))

/-- Which steps write the table's registers (40_wavetable.md R111): CAP only TNEW, TLEN only TNEW and TFILL, T only TFILL; only reset returns them
to their reset values. -/
def Obligations.OnlyTnewAndTfillWriteTheTable : Prop :=
  ∀ s t : State, step s = .next t → s.sched.head? ≠ some .reset →
    (t.cap ≠ s.cap → ∃ w cap, s.sched.head? = some .command ∧ s.prog.head? = some w ∧ decode w = .ok (.tnew cap)) ∧
    (t.tlen ≠ s.tlen → ∃ w, s.sched.head? = some .command ∧ s.prog.head? = some w ∧
      ((∃ cap, decode w = .ok (.tnew cap)) ∨ ∃ gen, decode w = .ok (.tfill gen))) ∧
    (t.table ≠ s.table → ∃ w gen, s.sched.head? = some .command ∧ s.prog.head? = some w ∧ decode w = .ok (.tfill gen))

/-- The table invariants (10_state.md R30), for every step but reset: TLEN is 0 or CAP; CAP changes only from 0 to a value in [1, CAP_MAX]; TLEN
changes only from 0 to CAP; no entry is written after TLEN = CAP. -/
def Obligations.TableIsFilledOnceThenImmutable : Prop :=
  ∀ s t : State, step s = .next t → TableInv s → s.sched.head? ≠ some .reset →
    (t.tlen = 0 ∨ t.tlen = t.cap) ∧
    (t.cap ≠ s.cap → s.cap = 0 ∧ 1 ≤ t.cap ∧ t.cap ≤ s.cfg.capMax) ∧
    (t.tlen ≠ s.tlen → s.tlen = 0 ∧ t.tlen = s.cap) ∧
    (s.tlen = s.cap → t.table = s.table) ∧
    (s.cap ≠ 0 → s.tlen = s.cap → t.cap = s.cap ∧ t.tlen = s.tlen)

/-- Slots and stream persist (41_oscillator.md R139, 10_state.md R33): only reset clears OV or SEN or changes FMT and CH once set; a slot changes
only by a command that names it, or by the control step for slot 0. -/
def Obligations.SlotsAndStreamPersistUntilReset : Prop :=
  ∀ s t : State, step s = .next t → s.sched.head? ≠ some .reset →
    (∀ o, s.ov o = true → t.ov o = true) ∧
    (∀ st, s.stream = some st → t.stream = some st) ∧
    (∀ o, t.slot o ≠ s.slot o →
      (o = 0 ∧ s.sched.head? = some .control) ∨
      (s.sched.head? = some .command ∧ ∃ w i, s.prog.head? = some w ∧ decode w = .ok i ∧
        ((∃ f r, i = .oinit o f r) ∨ (∃ f, i = .ofreq o f) ∨ i = .ostep o)))

/-- The command port and the host's index (10_state.md R21, R26): a word is accepted only while HALTED = 0 and then leaves the host's list with the
index one higher; otherwise both stay, and the word is held. That the command's event is the last one, after the fault's where it raised, is the
model's choice (notes/assumptions/12). -/
def Obligations.CommandsAreAcceptedOneAtATime : Prop :=
  ∀ s t : State, step s = .next t →
    (t.prog = s.prog ∧ t.pc = s.pc) ∨
    (∃ w, s.prog = w :: t.prog ∧ t.pc = s.pc + 1 ∧ s.halted = false ∧ s.sched.head? = some .command ∧
      ∃ oc, t.hist.getLast? = some (.command w oc) ∧ (oc = .completed ↔ t.halted = false))

/-- A step with the host's turn runs the decoded command (10_state.md R26): it is `exec` of the command at the state with the turn and the word taken,
with the accepted command then recorded. That the turn and the word come from lists of the state, and that the command's event stands after the
fault's where it raised, is the model's choice (notes/assumptions/1, notes/assumptions/12). -/
def Obligations.StepRunsTheDecodedCommand : Prop :=
  (∀ (s : State) (w : Command) (ws : List Command) (rest : List Turn) (i : Instr),
    s.cfg.legal = true → s.sched = .command :: rest → s.prog = w :: ws → s.halted = false → decode w = .ok i →
    step s = recordCommand w (exec i { s with sched := rest, prog := ws, pc := s.pc + 1 })) ∧
  (∀ (s : State) (w : Command) (ws : List Command) (rest : List Turn) (e : Illegal),
    s.cfg.legal = true → s.sched = .command :: rest → s.prog = w :: ws → s.halted = false → decode w = .error e →
    step s = recordCommand w (.next (({ s with sched := rest, prog := ws, pc := s.pc + 1 } : State).raise .illegal))) ∧
  (∀ (w : Command) (t : State),
    recordCommand w (.next t) =
      .next { t with hist := t.hist ++ [.command w (if t.halted then .raised t.fault else .completed)] })

/-- A configuration with a parameter outside its legal range is refused, and no step changes a parameter (00_scope.md R8, R9). That the refusal is
`step`'s is the model's choice (notes/assumptions/3). -/
def Obligations.ParametersAreLegalAndNeverChange : Prop :=
  (∀ s : State,
    ¬(1 ≤ s.cfg.capMax ∧ s.cfg.capMax ≤ 2 ^ 20 ∧ 1 ≤ s.cfg.nOsc ∧ s.cfg.nOsc ≤ 16 ∧ 1 ≤ s.cfg.chMax ∧
      s.cfg.chMax ≤ 2 ^ 20 - 1 ∧ 1 ≤ s.cfg.framesMax ∧ 1 ≤ s.cfg.qdepth ∧
      isFinite (gainBits s.cfg.gain) = true ∧ 0 < val (gainBits s.cfg.gain) ∧ val (gainBits s.cfg.gain) ≤ 1) →
    step s = .refused .illegalConfiguration) ∧
  (∀ s t : State, step s = .next t → t.cfg = s.cfg)

/-! ### The other agents' steps -/

/-- Burst request (42_bridge.md R153): accepted when enabled, held otherwise. The buffer of the new burst holds no value yet, which is the model's reading
(notes/assumptions/11). -/
def Obligations.BurstRequestIsAcceptedOrHeld : Prop :=
  ∀ (s : State) (rest : List Turn) (n : Nat) (later : List Nat),
    s.cfg.legal = true → s.sched = .burstReq :: rest → s.bursts = n :: later →
    (s.halted = false ∧ s.sen = true ∧ s.bact = false ∧ 1 ≤ n ∧ n ≤ s.cfg.framesMax →
      step s = .next { s with sched := rest, bursts := later, bact := true, bn := n, bpos := 0, out := [] }) ∧
    (¬(s.halted = false ∧ s.sen = true ∧ s.bact = false ∧ 1 ≤ n ∧ n ≤ s.cfg.framesMax) →
      step s = .next { s with sched := rest })

/-- Render issue step (42_bridge.md R154). -/
def Obligations.IssueStepPushesOneRequest : Prop :=
  ∀ (s : State) (rest : List Turn), s.cfg.legal = true → s.sched = .issue :: rest →
    (s.halted = false ∧ s.bact = true ∧ s.pend = false ∧ s.reqq < s.cfg.qdepth →
      step s = .next { s with sched := rest, reqq := s.reqq + 1, pend := true }) ∧
    (¬(s.halted = false ∧ s.bact = true ∧ s.pend = false ∧ s.reqq < s.cfg.qdepth) →
      step s = .next { s with sched := rest })

/-- Control step (42_bridge.md R157): pop one request, step slot 0 once, push the product with GAIN, and record it. Where the step is enabled
slot 0 is live and the product is finite and in [-1, 1]. -/
def Obligations.ControlStepAnswersOneRequest : Prop :=
  ∀ (s : State) (rest : List Turn), s.cfg.legal = true → s.sched = .control :: rest →
    (∀ (sl : Slot) (a : Binary32), s.halted = false → 0 < s.reqq → s.respq.length < s.cfg.qdepth →
      s.slot 0 = some sl → s.table.readEntry (sl.phase / (sl.rate.toNat * 2 ^ 16)) = some a →
      ∃ t : State, step s = .next t ∧
        t.slot 0 = some
          { sl with phase := (sl.phase + sl.freq.toNat * s.cap) % (s.cap * (sl.rate.toNat * 2 ^ 16)) } ∧
        (∀ p, p ≠ 0 → t.slot p = s.slot p) ∧ t.slots.length = s.slots.length ∧
        t =
          { s with
            sched := rest
            slots := t.slots
            reqq := s.reqq - 1
            respq := s.respq ++ [mul32 a (gainBits s.cfg.gain)]
            hist := s.hist ++ [.ctlSample (mul32 a (gainBits s.cfg.gain))] }) ∧
    (¬(s.halted = false ∧ 0 < s.reqq ∧ s.respq.length < s.cfg.qdepth) → step s = .next { s with sched := rest }) ∧
    (Inv s → 0 < s.reqq → ∃ sl a, s.slot 0 = some sl ∧
      s.table.readEntry (sl.phase / (sl.rate.toNat * 2 ^ 16)) = some a ∧ InUnitRange (mul32 a (gainBits s.cfg.gain)))

/-- Render frame step with burst completion (42_bridge.md R155, R156; 43_quantizer.md R189): pop one sample, convert it once, write the same pattern into
every channel slot of the frame and nowhere else, and complete the burst at its last frame. A NaN raises QNAN and writes nothing, and no
sample on its way is one. -/
def Obligations.FrameStepWritesOneFrame : Prop :=
  ∀ (s : State) (rest : List Turn), s.cfg.legal = true → s.sched = .frame :: rest →
    (∀ (v : Binary32) (later : List Binary32) (st : Stream) (q : BitVec 64),
      s.halted = false → s.bact = true → s.pend = true → s.respq = v :: later → s.stream = some st →
      quant s.cfg.quantRound st.fmt v = .ok q →
      ∃ t : State, step s = .next t ∧
        (∀ c, c < st.ch.toNat → t.out.readSlot (formatWidth st.fmt) (s.bpos * st.ch.toNat + c) = some q) ∧
        (∀ a, a < s.bpos * st.ch.toNat * (formatWidth st.fmt / 8) ∨
            (s.bpos + 1) * st.ch.toNat * (formatWidth st.fmt / 8) ≤ a → t.out.readByte a = s.out.readByte a) ∧
        t =
          { s with
            sched := rest
            respq := later
            out := t.out
            pend := false
            bpos := s.bpos + 1
            bact := !decide (s.bpos + 1 = s.bn)
            hist := s.hist ++ [.rndSample v] ++ (if s.bpos + 1 = s.bn then [.burstDone s.bn] else []) }) ∧
    (∀ (v : Binary32) (later : List Binary32) (st : Stream),
      s.halted = false → s.bact = true → s.pend = true → s.respq = v :: later → s.stream = some st → isNaN v = true →
      step s = .next (({ s with sched := rest } : State).raise .qnan)) ∧
    (Inv s → ∀ v later, s.respq = v :: later → isNaN v = false) ∧
    (¬(s.halted = false ∧ s.bact = true ∧ s.pend = true ∧ s.respq ≠ []) → step s = .next { s with sched := rest })

/-- Teardown and device failure (42_bridge.md R161, R162) raise DISCONNECT and DEVICE; neither is enabled while halted. -/
def Obligations.DeviceEventsRaiseTheirFaults : Prop :=
  ∀ (s : State) (rest : List Turn), s.cfg.legal = true →
    (s.sched = .teardown :: rest → s.halted = false →
      step s = .next (({ s with sched := rest } : State).raise .disconnect)) ∧
    (s.sched = .devFail :: rest → s.halted = false → step s = .next (({ s with sched := rest } : State).raise .device)) ∧
    ((s.sched = .teardown :: rest ∨ s.sched = .devFail :: rest) → s.halted = true → step s = .next { s with sched := rest })

/-! ### The oscillator -/

/-- The lookup address is the floor of the index and lies in the table, and the accumulator's widths (41_oscillator.md R131, 10_state.md R32): for a live slot
with P < M and CAP ≤ 2^20. -/
def Obligations.LookupAddressStaysInTheTable : Prop :=
  ∀ (sl : Slot) (cap : Nat), 1 ≤ sl.rate.toNat → 1 ≤ cap → cap ≤ 2 ^ 20 → sl.phase < sl.modulus cap →
    (sl.address : ℤ) = ⌊(sl.phase : ℚ) / (sl.rate.toNat * 2 ^ 16 : ℕ)⌋ ∧ sl.address < cap ∧
    sl.unitsPerEntry < 2 ^ 36 ∧ sl.modulus cap < 2 ^ 56 ∧ sl.stepSize cap < 2 ^ 52 ∧
    sl.phase + sl.stepSize cap < 2 ^ 57 ∧ (sl.advance cap).phase < (sl.advance cap).modulus cap

/-- The exact sequence law (41_oscillator.md R136): after OINIT with frequency f = F/2^16 and sample rate sr and n OSTEPs, the next OSTEP returns
T[floor((n·f·CAP/sr) mod CAP)], exactly; and so does `oscStep`, which OSTEP and the control step share, for a slot n steps after phase 0. -/
def Obligations.ExactSequenceLaw : Prop :=
  (∀ (s : State) (sl : Slot) (n : Nat),
    TableInv s → s.cap ≠ 0 → s.tlen = s.cap → 1 ≤ sl.rate.toNat → sl.phase = 0 →
    ∃ v sl', s.oscStep ((fun x => x.advance s.cap)^[n] sl) = some (v, sl') ∧
      s.table.readEntry (lawIndex n sl.freq.toNat s.cap sl.rate.toNat) = some v) ∧
  ∀ (s : State) (o freq sr n : Nat),
    s.cfg.legal = true → TableInv s → s.slots.length = s.cfg.nOsc →
    o < s.cfg.nOsc → 1 ≤ freq → freq < 2 ^ 32 → 1 ≤ sr → sr < 2 ^ 20 → s.cap ≠ 0 → s.tlen = s.cap →
    ¬(o = 0 ∧ s.sen = true) →
    ∃ t v, execAll (.oinit o freq sr :: List.replicate (n + 1) (.ostep o)) s = .next t ∧
      lawIndex n freq s.cap sr < s.cap ∧
      s.table.readEntry (lawIndex n freq s.cap sr) = some v ∧ t.res = v.setWidth 64

/-- The same law for the control unit (41_oscillator.md R136, 42_bridge.md R160): a burst of N frames whose steps come in turn completes, its samples are
mul32(T[floor((k·f·CAP/sr) mod CAP)], GAIN) for k = 0 .. N-1 where slot 0 starts at index 0, and in frame k's every channel slot the device reads
the k-th sample's conversion. -/
def Obligations.BurstRendersTheSequence : Prop :=
  ∀ (s : State) (n : Nat) (later : List Nat) (rest : List Turn) (st : Stream) (sl : Slot),
    s.cfg.legal = true → Inv s → s.halted = false → s.bact = false → s.stream = some st →
    s.slot 0 = some sl → sl.phase = 0 → 1 ≤ n → n ≤ s.cfg.framesMax → s.bursts = n :: later →
    s.sched = .burstReq :: ((List.replicate n [Turn.issue, Turn.control, Turn.frame]).flatten ++ rest) →
    ∃ t : State, runSteps (1 + 3 * n) s = .next t ∧
      t.bact = false ∧ t.bpos = n ∧ t.sched = rest ∧ t.halted = false ∧ t.hist.getLast? = some (.burstDone n) ∧
      ctlSamples t.hist = ctlSamples s.hist ++ (List.range n).map (fun k =>
        mul32 ((s.table.readEntry (lawIndex k sl.freq.toNat s.cap sl.rate.toNat)).getD 0) (gainBits s.cfg.gain)) ∧
      ∀ k c, k < n → c < st.ch.toNat →
        ∃ v q, s.table.readEntry (lawIndex k sl.freq.toNat s.cap sl.rate.toNat) = some v ∧
          quant s.cfg.quantRound st.fmt (mul32 v (gainBits s.cfg.gain)) = .ok q ∧
          t.deviceSlot (k * st.ch.toNat + c) = some q

/-- The law after a frequency change (41_oscillator.md R137): with the accumulator at P when OFREQ sets the step to S', the m-th later value is
T[((P + m·S') mod M) div D]: by `oscStep`, which OSTEP and the control step share, for any live slot, slot 0 of a running stream included; and by
OSTEP for a slot the stream does not own. -/
def Obligations.LawAfterFrequencyChange : Prop :=
  (∀ (s : State) (o freq m : Nat) (sl : Slot),
    TableInv s → SlotInv s → o < s.cfg.nOsc → 1 ≤ freq → freq < 2 ^ 32 → s.slot o = some sl →
    ∃ t sl₁ v sl', exec (.ofreq o freq) s = .next t ∧ t.slot o = some sl₁ ∧
      t.oscStep ((fun x => x.advance t.cap)^[m] sl₁) = some (v, sl') ∧
      s.table.readEntry (((sl.phase + m * (freq * s.cap)) % (s.cap * (sl.rate.toNat * 2 ^ 16))) / (sl.rate.toNat * 2 ^ 16)) =
        some v) ∧
  ∀ (s : State) (o freq m : Nat) (sl : Slot),
    s.cfg.legal = true → TableInv s → SlotInv s → o < s.cfg.nOsc → 1 ≤ freq → freq < 2 ^ 32 → s.slot o = some sl →
    ¬(o = 0 ∧ s.sen = true) →
    ∃ t v, execAll (.ofreq o freq :: List.replicate (m + 1) (.ostep o)) s = .next t ∧
      s.table.readEntry (((sl.phase + m * (freq * s.cap)) % (s.cap * (sl.rate.toNat * 2 ^ 16))) / (sl.rate.toNat * 2 ^ 16)) =
        some v ∧ t.res = v.setWidth 64

/-- Determinism and independence (41_oscillator.md R138): two slots made by OINIT with the same operands return the same values step by step, in whatever states
share the table; and stepping one slot changes no other. -/
def Obligations.EqualSlotsReturnEqualSequences : Prop :=
  ∀ (s s' : State) (o o' freq sr n : Nat) (t t' : State),
    s.table = s'.table → s.cap = s'.cap →
    s.slots.length = s.cfg.nOsc → s'.slots.length = s'.cfg.nOsc →
    s.halted = false → s'.halted = false →
    execAll (.oinit o freq sr :: List.replicate (n + 1) (.ostep o)) s = .next t → t.halted = false →
    execAll (.oinit o' freq sr :: List.replicate (n + 1) (.ostep o')) s' = .next t' → t'.halted = false →
    t.res = t'.res ∧ t.slot o = t'.slot o' ∧ (∀ p, p ≠ o → t.slot p = s.slot p)

/-! ### Generators and floating point -/

/-- The sawtooth ROM (40_wavetable.md R104): RNE32 of the exact rational ((2i/c + 1) mod 2) - 1, its closed form, -1.0 at 2i = c and +0 at i = 0. -/
def Obligations.SawRomIsTheExactRationalRounded : Prop :=
  ∀ c i : Nat, 1 ≤ c → c ≤ 2 ^ 20 → i < c →
    (∃ n : ℤ, (n : ℚ) / c = ratMod (2 * i / c + 1) 2 - 1 ∧ sawRom c i = rne32 n c) ∧
    (2 * i < c → sawRom c i = rne32 (2 * i) c ∧ 0 ≤ val (sawRom c i) ∧ val (sawRom c i) < 1) ∧
    (c ≤ 2 * i → sawRom c i = rne32 (2 * i - 2 * c) c ∧ -1 ≤ val (sawRom c i) ∧ val (sawRom c i) < 0) ∧
    (2 * i = c → sawRom c i = 0xBF800000) ∧ sawRom c 0 = 0x00000000

/-- Generator ranges (40_wavetable.md R106): every SINE entry is in [-1, 1] for any ROM, every SAW entry in [-1, 1), and all are finite. -/
def Obligations.GeneratorsStayInRange : Prop :=
  ∀ (rom : Config.SineRom) (c i : Nat), 1 ≤ c → c ≤ 2 ^ 20 → i < c →
    InUnitRange (sineRom rom c i) ∧ InUnitRange (sawRom c i) ∧ val (sawRom c i) < 1

/-- The sine ROM (40_wavetable.md R103): the default's every entry is finite, in [-1, 1], within 10^-6 of sin(2πi/c), and but for the 2^-60 that
notes/assumptions/5 allows for the fixed-point sine it is correctly rounded: within 2^-25, and no binary32 is nearer. Any other ROM's entry is finite, in
[-1, 1], and within 10^-6 and the 2^-60 by which the model's bound for it is wide (notes/assumptions/6). -/
def Obligations.SineRomIsWithinTolerance : Prop :=
  ∀ c i : Nat, 1 ≤ c → c ≤ 2 ^ 20 → i < c →
    (InUnitRange (sineRom .rounded c i) ∧
      |((val (sineRom .rounded c i) : ℚ) : ℝ) - Real.sin (2 * Real.pi * i / c)| ≤ 1 / 10 ^ 6 ∧
      |((val (sineRom .rounded c i) : ℚ) : ℝ) - Real.sin (2 * Real.pi * i / c)| ≤ 1 / 2 ^ 25 + 1 / 2 ^ 60 ∧
      ∀ b : Binary32, isFinite b = true →
        |((val (sineRom .rounded c i) : ℚ) : ℝ) - Real.sin (2 * Real.pi * i / c)| ≤
          |((val b : ℚ) : ℝ) - Real.sin (2 * Real.pi * i / c)| + 1 / 2 ^ 60) ∧
    (InUnitRange (sineRom .other c i) ∧
      |((val (sineRom .other c i) : ℚ) : ℝ) - Real.sin (2 * Real.pi * i / c)| ≤ 1 / 10 ^ 6 + 1 / 2 ^ 60)

/-- RNE32 (00_scope.md R12): of a rational n/d that does not overflow, the nearest binary32 value, ties to the even significand, subnormals included; what rounds above the
largest finite value is an infinity of its sign; an exact zero is +0. That a nonzero value which rounds to zero keeps its sign is the model's reading
(notes/assumptions/17). -/
def Obligations.Rne32IsRoundToNearestEven : Prop :=
  (∀ (n : ℤ) (d : ℕ) (b : Binary32), 0 < d → isFinite (rne32 n d) = true → isFinite b = true →
    |val (rne32 n d) - (n : ℚ) / d| ≤ |val b - (n : ℚ) / d| ∧
    (|val (rne32 n d) - (n : ℚ) / d| = |val b - (n : ℚ) / d| → val b ≠ val (rne32 n d) → fracField (rne32 n d) % 2 = 0)) ∧
  (∀ (n : ℤ) (d : ℕ), 0 < d →
    (isFinite (rne32 n d) = false ↔ (2 - 1 / 2 ^ 24) * 2 ^ 127 ≤ |(n : ℚ) / d|) ∧
    (isFinite (rne32 n d) = false → isInf (rne32 n d) = true ∧ signBit (rne32 n d) = decide (n < 0))) ∧
  (∀ d : ℕ, rne32 0 d = 0x00000000)

/-- The gain product (00_scope.md R12, 42_bridge.md R157): mul32 of finite operands is the exact product rounded by RNE32, a zero product with the exclusive or of the
signs; a sample in [-1, 1] times a legal gain stays finite and in [-1, 1]. The gain of a configuration that names one is that pattern, and
the unstated gain is some legal pattern (notes/assumptions/4). -/
def Obligations.GainProductIsRoundedAndBounded : Prop :=
  (∀ a b : Binary32, isFinite a = true → isFinite b = true → val a * val b ≠ 0 →
    mul32 a b = rne32 (units a * units b) (2 ^ 298) ∧
    ((units a * units b : ℤ) : ℚ) / (2 ^ 298 : ℕ) = val a * val b) ∧
  (∀ a b : Binary32, isFinite a = true → isFinite b = true → val a * val b = 0 →
    mul32 a b = if xor (signBit a) (signBit b) then 0x80000000 else 0x00000000) ∧
  (∀ (a : Binary32) (g : Config.Gain), InUnitRange a → g.legal = true → InUnitRange (mul32 a (gainBits g))) ∧
  (∀ b : Binary32, gainBits (.given b) = b) ∧
  (isFinite (gainBits .unstated) = true ∧ 0 < val (gainBits .unstated) ∧ val (gainBits .unstated) ≤ 1)

/-! ### The quantizer -/

/-- The integer formats (43_quantizer.md R181, R182, R183): `quant` is the signed formula for I8 to I64 and the unsigned for U8 to U64, zero-extended: scale by 2^(w-1), round by QUANT_ROUND, saturate; two's complement for the signed, offset binary for the unsigned
formats, which are the signed with the top bit inverted; infinities saturate. -/
def Obligations.IntegerFormatsFollowTheirFormula : Prop :=
  (∀ (mode : Config.QuantRound) (f : Format) (v : Binary32), isNaN v = false →
    (f ∈ [Format.i8, Format.i16, Format.i32, Format.i64] →
      quant mode f v = .ok ((quantSigned mode (formatWidth f) v).setWidth 64)) ∧
    (f ∈ [Format.u8, Format.u16, Format.u32, Format.u64] →
      quant mode f v = .ok ((quantUnsigned mode (formatWidth f) v).setWidth 64))) ∧
  ∀ (mode : Config.QuantRound) (w : Nat) (v : Binary32), w ∈ [8, 16, 32, 64] → isNaN v = false →
    (isFinite v = true → ∃ r : ℤ, RoundsTo mode (val v * 2 ^ (w - 1)) r ∧
      (quantSigned mode w v).toInt = max (-2 ^ (w - 1)) (min r (2 ^ (w - 1) - 1)) ∧
      ((quantUnsigned mode w v).toNat : ℤ) = max (-2 ^ (w - 1)) (min r (2 ^ (w - 1) - 1)) + 2 ^ (w - 1)) ∧
    (isInf v = true → signBit v = false → (quantSigned mode w v).toInt = 2 ^ (w - 1) - 1 ∧
      (quantUnsigned mode w v).toNat = 2 ^ w - 1) ∧
    (isInf v = true → signBit v = true → (quantSigned mode w v).toInt = -2 ^ (w - 1) ∧ (quantUnsigned mode w v).toNat = 0) ∧
    quantUnsigned mode w v = quantSigned mode w v ^^^ BitVec.twoPow w (w - 1)

/-- The float formats (43_quantizer.md R184, R185): F32 is the input pattern unchanged; F64 is the binary64 pattern of the same value, zeros and infinities to
themselves. -/
def Obligations.FloatFormatsAreExact : Prop :=
  ∀ (mode : Config.QuantRound) (v : Binary32), isNaN v = false →
    quant mode .f32 v = .ok (v.setWidth 64) ∧ quant mode .f64 v = .ok (widen64 v) ∧
    (isFinite v = true → val64 (widen64 v) = val v ∧ (widen64 v).extractLsb' 52 11 ≠ 0x7FF) ∧
    (widen64 v).msb = v.msb ∧
    (v = 0x00000000 → widen64 v = 0x0000000000000000) ∧ (v = 0x80000000 → widen64 v = 0x8000000000000000) ∧
    (v = 0x7F800000 → widen64 v = 0x7FF0000000000000) ∧ (v = 0xFF800000 → widen64 v = 0xFFF0000000000000)

/-- quant is total: QNAN exactly for a NaN, in every format, and otherwise a pattern of w(fmt) bits (43_quantizer.md R181, R186). -/
def Obligations.QuantizerRejectsExactlyNans : Prop :=
  ∀ (mode : Config.QuantRound) (f : Format) (v : Binary32),
    (isNaN v = true → quant mode f v = .error .qnan) ∧
    (isNaN v = false → ∃ q, quant mode f v = .ok q ∧ q.toNat < 2 ^ formatWidth f)

/-- The round trip (43_quantizer.md R187), of `quant` and the inverse `deq` of its format: for every value in [-1, 1] the error of each of the eight
integer formats is within its bounds, and within 2/2^w in every case; F32 gives the value itself, the error of both float formats is 0, and the only
binary32 of the value and sign F64 gives is the value itself. -/
def Obligations.RoundTripErrorIsBounded : Prop :=
  (∀ (mode : Config.QuantRound) (v : Binary32), InUnitRange v →
    quant mode .f32 v = .ok (v.setWidth 64) ∧ deq .f32 (v.setWidth 64) = val v ∧
    ∃ d, quant mode .f64 v = .ok d ∧ deq .f64 d = val v ∧
      ∀ b, isFinite b = true → val b = val64 d → signBit b = d.msb → b = v) ∧
  ∀ (mode : Config.QuantRound) (f : Format) (v : Binary32) (r : ℤ),
    f ∈ [Format.i8, Format.i16, Format.i32, Format.i64, Format.u8, Format.u16, Format.u32, Format.u64] →
    InUnitRange v → RoundsTo mode (val v * 2 ^ (formatWidth f - 1)) r →
    ∃ (q : BitVec 64) (w : Nat) (e : ℚ), quant mode f v = .ok q ∧ w = formatWidth f ∧ e = |deq f q - val v| ∧
      (mode = .rne → r ≤ 2 ^ (w - 1) - 1 → e ≤ 1 / 2 ^ w) ∧
      (mode = .rtz → val v < 1 → e < 1 / 2 ^ (w - 1)) ∧
      (2 ^ (w - 1) - 1 < r → 1 / 2 ^ w ≤ e ∧ e ≤ 1 / 2 ^ (w - 1)) ∧
      (mode = .rne → (2 ^ (w - 1) - 1 < r ↔ 1 - 1 / 2 ^ w ≤ val v)) ∧
      (mode = .rtz → (2 ^ (w - 1) - 1 < r ↔ val v = 1)) ∧
      (val v = 1 → e = 1 / 2 ^ (w - 1)) ∧
      e ≤ 2 / 2 ^ w

/-- The byte image of a frame (43_quantizer.md R189, R191; 20_memory.md R64, R65): after the replicator every channel slot of the frame holds the same pattern, its bytes
little-endian at k·(w/8), and every byte outside the frame is unchanged. -/
def Obligations.ReplicatorWritesLittleEndianFrames : Prop :=
  ∀ (s : State) (st : Stream) (q : BitVec 64), q.toNat < 2 ^ formatWidth st.fmt →
    (∀ c j, c < st.ch.toNat → j < formatWidth st.fmt / 8 →
      (s.writeFrame st q).out.readByte ((s.bpos * st.ch.toNat + c) * (formatWidth st.fmt / 8) + j) =
        some (q.extractLsb' (8 * j) 8)) ∧
    (∀ a, a < s.bpos * st.ch.toNat * (formatWidth st.fmt / 8) ∨
        (s.bpos + 1) * st.ch.toNat * (formatWidth st.fmt / 8) ≤ a →
      (s.writeFrame st q).out.readByte a = s.out.readByte a)

/-! ### Invariants of every step -/

/-- The invariant holds after reset. -/
def Obligations.InvariantHoldsAtReset : Prop := Inv State.reset

/-- Every step keeps the machine invariant: the table's (10_state.md R30), the slots' (R32), the stream's, the bridge's (R35, 42_bridge.md R159), the fault registers' (R25), the
canonical form of both spaces, and the range of every sample in flight (42_bridge.md R157). -/
def Obligations.EveryStepKeepsTheInvariant : Prop :=
  ∀ s t : State, Inv s → step s = .next t → Inv t

/-- From a state with the invariant a step always answers a next state, if the configuration is legal: the model's own stops are never met (10_state.md R22, R32). -/
def Obligations.LegalStepsAlwaysAnswer : Prop :=
  ∀ s : State, s.cfg.legal = true → Inv s → ∃ t, step s = .next t

/-- Pairing (42_bridge.md R159): every step keeps it, in every order of the agents, and with it no queue ever holds more than one message, no queue is full, and the
k-th sample received is the k-th computed. -/
def Obligations.PairingIsKeptInEveryOrder : Prop :=
  (∀ s t : State, BridgeInv s → step s = .next t → BridgeInv t) ∧
  (∀ s : State, BridgeInv s → s.cfg.legal = true →
    s.reqq ≤ 1 ∧ s.respq.length ≤ 1 ∧ (s.pend = false → s.reqq < s.cfg.qdepth) ∧
    (0 < s.reqq → s.respq.length < s.cfg.qdepth) ∧
    ∀ (k : Nat) (v : Binary32), (rndSamples s.hist)[k]? = some v → (ctlSamples s.hist)[k]? = some v) ∧
  BridgeInv State.reset

/-- What the buffer holds follows the samples received (42_bridge.md R155, R160; 43_quantizer.md R189, R190): every step keeps it, in every order. -/
def Obligations.OutputFollowsTheSamplesReceived : Prop :=
  OutputInv State.reset ∧ ∀ s t : State, Inv s → OutputInv s → step s = .next t → OutputInv t

/-- A halted state is never final, and a final state is idle (42_bridge.md R167). -/
def Obligations.FinalStatesAreQuiet : Prop :=
  ∀ s : State, s.final = true ↔
    (s.halted = false ∧ s.prog = [] ∧ s.bact = false ∧ s.pend = false ∧ s.reqq = 0 ∧ s.respq = [])

/-- Boot order (70_reset_and_hazards.md R233): from reset, TNEW, TFILL, OINIT of slot 0 and SSTART with legal operands complete and enable the stream; each of the last three
issued too early raises NO_TABLE, NOT_FILLED or STREAM_NO_OSC. -/
def Obligations.BootOrderStartsTheStream : Prop :=
  ∀ (p : Config.Params) (cap gen freq sr fmt ch : Nat), p.legal = true →
    1 ≤ cap → cap ≤ p.capMax → gen < 2 → 1 ≤ freq → freq < 2 ^ 32 → 1 ≤ sr → sr < 2 ^ 20 → fmt < 10 → 1 ≤ ch → ch ≤ p.chMax →
    let s : State := ({ State.reset with cfg := p } : State).assertReset
    (∃ t, execAll [.tnew cap, .tfill gen, .oinit 0 freq sr, .sstart fmt ch] s = .next t ∧
      t.halted = false ∧ t.sen = true ∧ t.ov 0 = true ∧ t.tlen = cap ∧ t.cap = cap) ∧
    exec (.tfill gen) s = .next (s.raise .noTable) ∧
    exec (.oinit 0 freq sr) s = .next (s.raise .noTable) ∧
    exec (.sstart fmt ch) s = .next (s.raise .streamNoOsc) ∧
    (∃ t, execAll [.tnew cap, .oinit 0 freq sr] s = .next t ∧ t.fault = FaultCode.notFilled.code) ∧
    (∃ t, execAll [.tnew cap, .tfill gen, .sstart fmt ch] s = .next t ∧ t.fault = FaultCode.streamNoOsc.code)

/-- The pseudo-instructions expand to their two commands (30_encoding.md R94). -/
def Obligations.PseudoInstructionsExpand : Prop :=
  (∀ cap gen : Nat, expandTable cap gen = [.tnew cap, .tfill gen]) ∧
  (∀ freq sr fmt ch : Nat, expandStream freq sr fmt ch = [.oinit 0 freq sr, .sstart fmt ch]) ∧
  assembleLine "TABLE 64, SAW".toList = .ok [0x0000004000000001, 0x0000000000000012] ∧
  assembleLine "STREAM 440, 44000, I16, 2".toList = .ok [0x01B800000ABE0005, 0x0000000000002018]

/-- The device's reads (20_memory.md R61, R68, R74): a read changes nothing; it sees no value while a burst is active, nor in a slot at or past BN·CH, nor
with no stream; in a slot of a burst that is done it sees what OUT holds there. That it sees no value after a reset, and that HALTED does not hinder it, is the
model's choice (notes/assumptions/26, notes/assumptions/27), as is the turn itself (notes/assumptions/22). -/
def Obligations.DeviceReadsOnlyFinishedBursts : Prop :=
  (∀ (s : State) (k : Nat) (rest : List Turn), s.cfg.legal = true → s.sched = .deviceRead k :: rest →
    step s = .next { s with sched := rest }) ∧
  (∀ (s : State) (k : Nat), s.bact = true → s.deviceSlot k = none) ∧
  (∀ (s : State) (k : Nat) (st : Stream), s.stream = some st → s.bn * st.ch.toNat ≤ k → s.deviceSlot k = none) ∧
  (∀ (s : State) (k : Nat), s.stream = none → s.deviceSlot k = none) ∧
  (∀ (s : State) (k : Nat) (st : Stream), s.stream = some st → s.bact = false → k < s.bn * st.ch.toNat →
    s.deviceSlot k = s.out.readSlot (formatWidth st.fmt) k) ∧
  (∀ (s t : State) (k : Nat) (rest : List Turn), s.sched = .reset :: rest → step s = .next t →
    t.out = s.out ∧ t.deviceSlot k = none)
end

