-- ==== Sys2Proof/Laws/Arith.lean ====
section
/-! SUPPORT. Once for each arithmetic helper what it gives: the rounding quotient, the kinds of binary32 patterns, format and generator
codes, and the fields of a slot's arithmetic. -/

namespace Sys2Proof.Machine

open Sys2Proof

/-! ### The rounding quotient -/

/-- The quotient is within half a divisor, and even where it is exactly half a divisor off. -/
theorem divRne_spec (n d : Nat) (hd : 0 < d) :
    2 * (divRne n d * d) ≤ 2 * n + d ∧ 2 * n ≤ 2 * (divRne n d * d) + d ∧
    (2 * (divRne n d * d) = 2 * n + d ∨ 2 * n = 2 * (divRne n d * d) + d → divRne n d % 2 = 0) := by
  have hr := Nat.mod_lt n hd
  have hn := Nat.div_add_mod n d
  have h1 : (n / d + 1) * d = d * (n / d) + d := by ring
  have h0 : n / d * d = d * (n / d) := Nat.mul_comm _ _
  simp only [divRne]
  split_ifs with ha hb hc <;> simp only [h0, h1] <;> refine ⟨by omega, by omega, ?_⟩ <;> omega

theorem divRne_zero (d : Nat) (hd : 0 < d) : divRne 0 d = 0 := by
  simp only [divRne, Nat.zero_div, Nat.zero_mod, Nat.mul_zero, if_pos hd]

/-- A quotient that is an integer is that integer. -/
theorem divRne_mul (q d : Nat) (hd : 0 < d) : divRne (q * d) d = q := by
  simp only [divRne, Nat.mul_mod_left, Nat.mul_zero, Nat.mul_div_cancel _ hd, if_pos hd]

/-- A larger numerator has no smaller quotient. -/
theorem divRne_mono {m n : Nat} (d : Nat) (hd : 0 < d) (h : m ≤ n) : divRne m d ≤ divRne n d := by
  by_contra hlt
  push Not at hlt
  obtain ⟨a1, a2, a3⟩ := divRne_spec m d hd
  obtain ⟨b1, b2, b3⟩ := divRne_spec n d hd
  have hstep : (divRne n d + 1) * d ≤ divRne m d * d := Nat.mul_le_mul_right d hlt
  rw [Nat.add_mul, Nat.one_mul] at hstep
  have e1 := a3 (.inl (by omega))
  have e2 := b3 (.inr (by omega))
  have : (divRne n d + 2) * d ≤ divRne m d * d := Nat.mul_le_mul_right d (by omega)
  rw [Nat.add_mul] at this
  omega

/-! ### Kinds of patterns -/

/-- A pattern is finite, infinite or a NaN, and only one of them. -/
theorem pattern_kinds (b : Binary32) :
    (isFinite b = true ∧ isInf b = false ∧ isNaN b = false) ∨ (isFinite b = false ∧ isInf b = true ∧ isNaN b = false) ∨
    (isFinite b = false ∧ isInf b = false ∧ isNaN b = true) := by
  by_cases he : expField b = 0xFF <;> by_cases hf : fracField b = 0 <;> simp [isFinite, isInf, isNaN, he, hf]

theorem expField_lt (b : Binary32) : expField b < 2 ^ 8 := BitVec.isLt _

theorem fracField_lt (b : Binary32) : fracField b < 2 ^ 23 := BitVec.isLt _

theorem units_natAbs (b : Binary32) : (units b).natAbs = mag b := by
  unfold units; split <;> simp

/-! ### Codes -/

@[simp] theorem formatOf_code (f : Format) : formatOf (formatCode f) = some f := by cases f <;> rfl

theorem formatCode_lt (f : Format) : formatCode f < 10 := by cases f <;> decide

theorem formatOf_eq_some {n : Nat} {f : Format} : formatOf n = some f ↔ formatCode f = n := by
  constructor
  · intro h
    unfold formatOf at h
    split at h <;> cases h <;> rfl
  · rintro rfl; exact formatOf_code f

theorem formatOf_none {n : Nat} (h : 10 ≤ n) : formatOf n = none := by
  by_contra hn
  obtain ⟨f, hf⟩ := Option.ne_none_iff_exists'.1 hn
  have := formatCode_lt f
  rw [formatOf_eq_some] at hf
  omega

theorem formatOf_some {n : Nat} (h : n < 10) : ∃ f, formatOf n = some f := by
  interval_cases n <;> exact ⟨_, rfl⟩

@[simp] theorem generatorOf_code (g : Generator) : generatorOf (generatorCode g) = some g := by cases g <;> rfl

theorem generatorOf_none {n : Nat} (h : 2 ≤ n) : generatorOf n = none := by
  obtain ⟨k, rfl⟩ := Nat.exists_eq_add_of_le h
  rw [Nat.add_comm]; rfl

theorem formatWidth_cases (f : Format) : formatWidth f ∈ [8, 16, 32, 64] := by cases f <;> decide

/-- A format's width is its bytes eight times over. -/
theorem formatWidth_bytes (f : Format) : 2 ^ formatWidth f = 256 ^ (formatWidth f / 8) := by cases f <;> rfl

/-- A pattern of at most 64 bits is what `quant` zero-extends it to, cut to its width again. -/
theorem setWidth_of_zext {w : Nat} (x : BitVec w) (h : w ≤ 64) : (x.setWidth 64).setWidth w = x := by
  apply BitVec.eq_of_toNat_eq
  simp only [BitVec.toNat_setWidth]
  have h1 : x.toNat < 2 ^ w := x.isLt
  rw [Nat.mod_eq_of_lt (Nat.lt_of_lt_of_le h1 (Nat.pow_le_pow_right (by omega) h)), Nat.mod_eq_of_lt h1]

end Sys2Proof.Machine
end

