-- ==== Sys2Proof/Laws/Decode.lean ====
section
/-! SUPPORT. The fields of a packed word, the masks as rows of fields, and the opcode codes. -/

namespace Sys2Proof

@[simp] theorem opField_packWord (a : BitVec 32) (b : BitVec 20) (s o : BitVec 4) : opField (packWord a b s o) = o := by
  apply BitVec.eq_of_getLsbD_eq; intro i hi
  simp only [opField, packWord, BitVec.getLsbD_extractLsb', BitVec.getLsbD_append]
  interval_cases i <;> simp

@[simp] theorem selField_packWord (a : BitVec 32) (b : BitVec 20) (s o : BitVec 4) : selField (packWord a b s o) = s := by
  apply BitVec.eq_of_getLsbD_eq; intro i hi
  simp only [selField, packWord, BitVec.getLsbD_extractLsb', BitVec.getLsbD_append]
  interval_cases i <;> simp

@[simp] theorem rsvField_packWord (a : BitVec 32) (b : BitVec 20) (s o : BitVec 4) : rsvField (packWord a b s o) = 0 := by
  apply BitVec.eq_of_getLsbD_eq; intro i hi
  simp only [rsvField, packWord, BitVec.getLsbD_extractLsb', BitVec.getLsbD_append]
  interval_cases i <;> simp

@[simp] theorem bField_packWord (a : BitVec 32) (b : BitVec 20) (s o : BitVec 4) : bField (packWord a b s o) = b := by
  apply BitVec.eq_of_getLsbD_eq; intro i hi
  simp only [bField, packWord, BitVec.getLsbD_extractLsb', BitVec.getLsbD_append]
  simp [hi, show ¬ (12 + i < 4) by omega, show ¬ (12 + i - 4 < 4) by omega, show ¬ (12 + i - 4 - 4 < 4) by omega,
    show 12 + i - 4 - 4 - 4 = i by omega]

@[simp] theorem aField_packWord (a : BitVec 32) (b : BitVec 20) (s o : BitVec 4) : aField (packWord a b s o) = a := by
  apply BitVec.eq_of_getLsbD_eq; intro i hi
  simp only [aField, packWord, BitVec.getLsbD_extractLsb', BitVec.getLsbD_append]
  simp [hi, show ¬ (32 + i < 4) by omega, show ¬ (32 + i - 4 < 4) by omega, show ¬ (32 + i - 4 - 4 < 4) by omega,
    show ¬ (32 + i - 4 - 4 - 4 < 20) by omega, show 32 + i - 4 - 4 - 4 - 20 = i by omega]

/-- Every word is its own fields, put together with the reserved field in its place (30_encoding.md R81). -/
theorem word_eq_fields (w : Command) : w = aField w ++ bField w ++ rsvField w ++ selField w ++ opField w := by
  apply BitVec.eq_of_getLsbD_eq; intro i hi
  simp only [aField, bField, rsvField, selField, opField, BitVec.getLsbD_extractLsb', BitVec.getLsbD_append]
  repeat' split
  all_goals
    rw [show decide (_ < _) = true from decide_eq_true (by omega), Bool.true_and]
    congr 1
    omega

/-- A word with rsv = 0 is the packing of its fields. -/
theorem word_eq_packWord (w : Command) (h : rsvField w = 0) :
    w = packWord (aField w) (bField w) (selField w) (opField w) := by
  conv_lhs => rw [word_eq_fields w, h]
  rfl

@[simp] theorem ofCode_code (o : Opcode) : Opcode.ofCode o.code = some o := by cases o <;> rfl

theorem code_of_ofCode {c : BitVec 4} {o : Opcode} (h : Opcode.ofCode c = some o) : c = o.code := by
  revert h; revert c; cases o <;> decide

/-- The match word is the packing of the opcode alone. -/
theorem matchBits_eq (o : Opcode) : o.matchBits = packWord 0 0 0 o.code := by cases o <;> decide

/-- Which of the fields A, B and sel a row fixes at zero (30_encoding.md R85). -/
def Opcode.fixes : Opcode → Bool × Bool × Bool
  | .tnew => (false, true, true)
  | .tfill => (true, true, false)
  | .tlen => (true, true, true)
  | .tread => (false, true, true)
  | .oinit => (false, false, false)
  | .ofreq => (false, true, false)
  | .ostep => (true, true, false)
  | .sstart => (true, false, false)
  | .qconv => (false, true, false)

/-- The mask of a field that is fixed at zero or free. -/
def fieldMask (n : Nat) (fixed : Bool) : BitVec n := if fixed then BitVec.allOnes n else 0

theorem and_fieldMask {n : Nat} (x : BitVec n) (fixed : Bool) : x &&& fieldMask n fixed = 0 ↔ (fixed = true → x = 0) := by
  cases fixed
  · simp [fieldMask]
  · simp only [fieldMask, if_true, BitVec.and_allOnes, true_implies]

theorem maskBits_eq (o : Opcode) :
    o.maskBits = fieldMask 32 o.fixes.1 ++ fieldMask 20 o.fixes.2.1 ++ BitVec.allOnes 4 ++ fieldMask 4 o.fixes.2.2 ++
      BitVec.allOnes 4 := by
  cases o <;> decide

/-- Masking a word masks its fields one by one. -/
theorem fields_and (a a' : BitVec 32) (b b' : BitVec 20) (r s s' c : BitVec 4) :
    (a ++ b ++ r ++ s ++ c : Command) &&& (a' ++ b' ++ BitVec.allOnes 4 ++ s' ++ BitVec.allOnes 4) =
      (a &&& a') ++ (b &&& b') ++ r ++ (s &&& s') ++ c := by
  show ((a ++ b ++ r ++ s ++ c : BitVec (32 + 20 + 4 + 4 + 4)) &&&
      (a' ++ b' ++ BitVec.allOnes 4 ++ s' ++ BitVec.allOnes 4 : BitVec (32 + 20 + 4 + 4 + 4))) = _
  rw [BitVec.and_append, BitVec.and_append, BitVec.and_append, BitVec.and_append, BitVec.and_allOnes, BitVec.and_allOnes]

theorem bits_append_inj {m n : Nat} {x x' : BitVec m} {y y' : BitVec n} (h : x ++ y = x' ++ y') : x = x' ∧ y = y' := by
  constructor
  · apply BitVec.eq_of_getLsbD_eq; intro i hi
    have := congrArg (fun z => z.getLsbD (n + i)) h
    simpa [BitVec.getLsbD_append] using this
  · apply BitVec.eq_of_getLsbD_eq; intro i hi
    have := congrArg (fun z => z.getLsbD i) h
    simpa [BitVec.getLsbD_append, hi] using this

/-- A row of fields determines each of them. -/
theorem fields_inj {a a' : BitVec 32} {b b' : BitVec 20} {r r' s s' c c' : BitVec 4}
    (h : (a ++ b ++ r ++ s ++ c : Command) = a' ++ b' ++ r' ++ s' ++ c') :
    a = a' ∧ b = b' ∧ r = r' ∧ s = s' ∧ c = c' := by
  have h' : (a ++ b ++ r ++ s ++ c : BitVec (32 + 20 + 4 + 4 + 4)) = a' ++ b' ++ r' ++ s' ++ c' := h
  obtain ⟨h', hc⟩ := bits_append_inj h'
  obtain ⟨h', hs⟩ := bits_append_inj h'
  obtain ⟨h', hr⟩ := bits_append_inj h'
  obtain ⟨ha, hb⟩ := bits_append_inj h'
  exact ⟨ha, hb, hr, hs, hc⟩

/-- A word spells a row iff the row's opcode stands in it, its reserved field is zero and so are the fields the row fixes. -/
theorem spells_iff (o : Opcode) (w : Command) :
    o.spells w = true ↔
      opField w = o.code ∧ rsvField w = 0 ∧ (o.fixes.1 = true → aField w = 0) ∧ (o.fixes.2.1 = true → bField w = 0) ∧
        (o.fixes.2.2 = true → selField w = 0) := by
  have hw := word_eq_fields w
  rw [Opcode.spells, beq_iff_eq, maskBits_eq, matchBits_eq, packWord, ← and_fieldMask, ← and_fieldMask, ← and_fieldMask]
  constructor
  · intro h
    rw [hw, fields_and] at h
    obtain ⟨ha, hb, hr, hs, hc⟩ := fields_inj h
    exact ⟨hc, hr, ha, hb, hs⟩
  · rintro ⟨hc, hr, ha, hb, hs⟩
    conv_lhs => rw [hw, fields_and]
    rw [hc, hr, ha, hb, hs]
    rfl

theorem spells_packWord (o : Opcode) (a : BitVec 32) (b : BitVec 20) (s c : BitVec 4) :
    o.spells (packWord a b s c) = true ↔
      c = o.code ∧ (o.fixes.1 = true → a = 0) ∧ (o.fixes.2.1 = true → b = 0) ∧ (o.fixes.2.2 = true → s = 0) := by
  rw [spells_iff]; simp

/-- What the decoder accepts: the word spells a row, and the command is that row's with the word's operands. -/
theorem decode_eq_ok_iff (w : Command) (i : Instr) :
    decode w = .ok i ↔ ∃ o : Opcode, o.spells w = true ∧
      i = o.build (selField w).toNat (bField w).toNat (aField w).toNat (aField w) := by
  constructor
  · intro h
    unfold decode at h
    split at h
    · cases h
    next o ho =>
    split at h
    · cases h
    split at h
    · next hs => injection h with h; exact ⟨o, hs, h.symm⟩
    · cases h
  · rintro ⟨o, hs, rfl⟩
    have := (spells_iff o w).1 hs
    simp only [decode, this.1, this.2.1, ofCode_code, hs, ne_eq, not_true, if_true, if_false]

@[simp] theorem opcode_build (o : Opcode) (sel b a : Nat) (p : Binary32) : (o.build sel b a p).opcode = o := by
  cases o <;> rfl

end Sys2Proof
end

