-- ==== Sys2Proof/Laws/State.lean ====
section
/-! SUPPORT. What each named update of the state does to each field: one simp lemma per field per update, true by rfl. -/

namespace Sys2Proof.Machine

open Sys2Proof

variable (s : State)

/-! ### `raise` -/

@[simp] theorem raise_cap (f : FaultCode) : (s.raise f).cap = s.cap := rfl
@[simp] theorem raise_tlen (f : FaultCode) : (s.raise f).tlen = s.tlen := rfl
@[simp] theorem raise_table (f : FaultCode) : (s.raise f).table = s.table := rfl
@[simp] theorem raise_slots (f : FaultCode) : (s.raise f).slots = s.slots := rfl
@[simp] theorem raise_stream (f : FaultCode) : (s.raise f).stream = s.stream := rfl
@[simp] theorem raise_reqq (f : FaultCode) : (s.raise f).reqq = s.reqq := rfl
@[simp] theorem raise_respq (f : FaultCode) : (s.raise f).respq = s.respq := rfl
@[simp] theorem raise_pend (f : FaultCode) : (s.raise f).pend = s.pend := rfl
@[simp] theorem raise_bact (f : FaultCode) : (s.raise f).bact = s.bact := rfl
@[simp] theorem raise_bn (f : FaultCode) : (s.raise f).bn = s.bn := rfl
@[simp] theorem raise_bpos (f : FaultCode) : (s.raise f).bpos = s.bpos := rfl
@[simp] theorem raise_res (f : FaultCode) : (s.raise f).res = s.res := rfl
@[simp] theorem raise_fault (f : FaultCode) : (s.raise f).fault = if s.fault = 0 then f.code else s.fault := rfl
@[simp] theorem raise_halted (f : FaultCode) : (s.raise f).halted = true := rfl
@[simp] theorem raise_out (f : FaultCode) : (s.raise f).out = s.out := rfl
@[simp] theorem raise_hist (f : FaultCode) : (s.raise f).hist = s.hist ++ [.fault f] := rfl
@[simp] theorem raise_prog (f : FaultCode) : (s.raise f).prog = s.prog := rfl
@[simp] theorem raise_pc (f : FaultCode) : (s.raise f).pc = s.pc := rfl
@[simp] theorem raise_bursts (f : FaultCode) : (s.raise f).bursts = s.bursts := rfl
@[simp] theorem raise_sched (f : FaultCode) : (s.raise f).sched = s.sched := rfl
@[simp] theorem raise_cfg (f : FaultCode) : (s.raise f).cfg = s.cfg := rfl

/-! ### `emit` -/

@[simp] theorem emit_cap (e : Event) : (s.emit e).cap = s.cap := rfl
@[simp] theorem emit_tlen (e : Event) : (s.emit e).tlen = s.tlen := rfl
@[simp] theorem emit_table (e : Event) : (s.emit e).table = s.table := rfl
@[simp] theorem emit_slots (e : Event) : (s.emit e).slots = s.slots := rfl
@[simp] theorem emit_stream (e : Event) : (s.emit e).stream = s.stream := rfl
@[simp] theorem emit_reqq (e : Event) : (s.emit e).reqq = s.reqq := rfl
@[simp] theorem emit_respq (e : Event) : (s.emit e).respq = s.respq := rfl
@[simp] theorem emit_pend (e : Event) : (s.emit e).pend = s.pend := rfl
@[simp] theorem emit_bact (e : Event) : (s.emit e).bact = s.bact := rfl
@[simp] theorem emit_bn (e : Event) : (s.emit e).bn = s.bn := rfl
@[simp] theorem emit_bpos (e : Event) : (s.emit e).bpos = s.bpos := rfl
@[simp] theorem emit_res (e : Event) : (s.emit e).res = s.res := rfl
@[simp] theorem emit_fault (e : Event) : (s.emit e).fault = s.fault := rfl
@[simp] theorem emit_halted (e : Event) : (s.emit e).halted = s.halted := rfl
@[simp] theorem emit_out (e : Event) : (s.emit e).out = s.out := rfl
@[simp] theorem emit_hist (e : Event) : (s.emit e).hist = s.hist ++ [e] := rfl
@[simp] theorem emit_prog (e : Event) : (s.emit e).prog = s.prog := rfl
@[simp] theorem emit_pc (e : Event) : (s.emit e).pc = s.pc := rfl
@[simp] theorem emit_bursts (e : Event) : (s.emit e).bursts = s.bursts := rfl
@[simp] theorem emit_sched (e : Event) : (s.emit e).sched = s.sched := rfl
@[simp] theorem emit_cfg (e : Event) : (s.emit e).cfg = s.cfg := rfl

/-! ### `setRes` -/

@[simp] theorem setRes_cap (v : BitVec 64) : (s.setRes v).cap = s.cap := rfl
@[simp] theorem setRes_tlen (v : BitVec 64) : (s.setRes v).tlen = s.tlen := rfl
@[simp] theorem setRes_table (v : BitVec 64) : (s.setRes v).table = s.table := rfl
@[simp] theorem setRes_slots (v : BitVec 64) : (s.setRes v).slots = s.slots := rfl
@[simp] theorem setRes_stream (v : BitVec 64) : (s.setRes v).stream = s.stream := rfl
@[simp] theorem setRes_reqq (v : BitVec 64) : (s.setRes v).reqq = s.reqq := rfl
@[simp] theorem setRes_respq (v : BitVec 64) : (s.setRes v).respq = s.respq := rfl
@[simp] theorem setRes_pend (v : BitVec 64) : (s.setRes v).pend = s.pend := rfl
@[simp] theorem setRes_bact (v : BitVec 64) : (s.setRes v).bact = s.bact := rfl
@[simp] theorem setRes_bn (v : BitVec 64) : (s.setRes v).bn = s.bn := rfl
@[simp] theorem setRes_bpos (v : BitVec 64) : (s.setRes v).bpos = s.bpos := rfl
@[simp] theorem setRes_res (v : BitVec 64) : (s.setRes v).res = v := rfl
@[simp] theorem setRes_fault (v : BitVec 64) : (s.setRes v).fault = s.fault := rfl
@[simp] theorem setRes_halted (v : BitVec 64) : (s.setRes v).halted = s.halted := rfl
@[simp] theorem setRes_out (v : BitVec 64) : (s.setRes v).out = s.out := rfl
@[simp] theorem setRes_hist (v : BitVec 64) : (s.setRes v).hist = s.hist := rfl
@[simp] theorem setRes_prog (v : BitVec 64) : (s.setRes v).prog = s.prog := rfl
@[simp] theorem setRes_pc (v : BitVec 64) : (s.setRes v).pc = s.pc := rfl
@[simp] theorem setRes_bursts (v : BitVec 64) : (s.setRes v).bursts = s.bursts := rfl
@[simp] theorem setRes_sched (v : BitVec 64) : (s.setRes v).sched = s.sched := rfl
@[simp] theorem setRes_cfg (v : BitVec 64) : (s.setRes v).cfg = s.cfg := rfl

/-! ### `setSlot` -/

@[simp] theorem setSlot_cap (o : Nat) (sl : Slot) : (s.setSlot o sl).cap = s.cap := rfl
@[simp] theorem setSlot_tlen (o : Nat) (sl : Slot) : (s.setSlot o sl).tlen = s.tlen := rfl
@[simp] theorem setSlot_table (o : Nat) (sl : Slot) : (s.setSlot o sl).table = s.table := rfl
@[simp] theorem setSlot_slots (o : Nat) (sl : Slot) : (s.setSlot o sl).slots = s.slots.set o (some sl) := rfl
@[simp] theorem setSlot_stream (o : Nat) (sl : Slot) : (s.setSlot o sl).stream = s.stream := rfl
@[simp] theorem setSlot_reqq (o : Nat) (sl : Slot) : (s.setSlot o sl).reqq = s.reqq := rfl
@[simp] theorem setSlot_respq (o : Nat) (sl : Slot) : (s.setSlot o sl).respq = s.respq := rfl
@[simp] theorem setSlot_pend (o : Nat) (sl : Slot) : (s.setSlot o sl).pend = s.pend := rfl
@[simp] theorem setSlot_bact (o : Nat) (sl : Slot) : (s.setSlot o sl).bact = s.bact := rfl
@[simp] theorem setSlot_bn (o : Nat) (sl : Slot) : (s.setSlot o sl).bn = s.bn := rfl
@[simp] theorem setSlot_bpos (o : Nat) (sl : Slot) : (s.setSlot o sl).bpos = s.bpos := rfl
@[simp] theorem setSlot_res (o : Nat) (sl : Slot) : (s.setSlot o sl).res = s.res := rfl
@[simp] theorem setSlot_fault (o : Nat) (sl : Slot) : (s.setSlot o sl).fault = s.fault := rfl
@[simp] theorem setSlot_halted (o : Nat) (sl : Slot) : (s.setSlot o sl).halted = s.halted := rfl
@[simp] theorem setSlot_out (o : Nat) (sl : Slot) : (s.setSlot o sl).out = s.out := rfl
@[simp] theorem setSlot_hist (o : Nat) (sl : Slot) : (s.setSlot o sl).hist = s.hist := rfl
@[simp] theorem setSlot_prog (o : Nat) (sl : Slot) : (s.setSlot o sl).prog = s.prog := rfl
@[simp] theorem setSlot_pc (o : Nat) (sl : Slot) : (s.setSlot o sl).pc = s.pc := rfl
@[simp] theorem setSlot_bursts (o : Nat) (sl : Slot) : (s.setSlot o sl).bursts = s.bursts := rfl
@[simp] theorem setSlot_sched (o : Nat) (sl : Slot) : (s.setSlot o sl).sched = s.sched := rfl
@[simp] theorem setSlot_cfg (o : Nat) (sl : Slot) : (s.setSlot o sl).cfg = s.cfg := rfl

/-! ### `takeWord` -/

@[simp] theorem takeWord_cap (ws : List Command) : (s.takeWord ws).cap = s.cap := rfl
@[simp] theorem takeWord_tlen (ws : List Command) : (s.takeWord ws).tlen = s.tlen := rfl
@[simp] theorem takeWord_table (ws : List Command) : (s.takeWord ws).table = s.table := rfl
@[simp] theorem takeWord_slots (ws : List Command) : (s.takeWord ws).slots = s.slots := rfl
@[simp] theorem takeWord_stream (ws : List Command) : (s.takeWord ws).stream = s.stream := rfl
@[simp] theorem takeWord_reqq (ws : List Command) : (s.takeWord ws).reqq = s.reqq := rfl
@[simp] theorem takeWord_respq (ws : List Command) : (s.takeWord ws).respq = s.respq := rfl
@[simp] theorem takeWord_pend (ws : List Command) : (s.takeWord ws).pend = s.pend := rfl
@[simp] theorem takeWord_bact (ws : List Command) : (s.takeWord ws).bact = s.bact := rfl
@[simp] theorem takeWord_bn (ws : List Command) : (s.takeWord ws).bn = s.bn := rfl
@[simp] theorem takeWord_bpos (ws : List Command) : (s.takeWord ws).bpos = s.bpos := rfl
@[simp] theorem takeWord_res (ws : List Command) : (s.takeWord ws).res = s.res := rfl
@[simp] theorem takeWord_fault (ws : List Command) : (s.takeWord ws).fault = s.fault := rfl
@[simp] theorem takeWord_halted (ws : List Command) : (s.takeWord ws).halted = s.halted := rfl
@[simp] theorem takeWord_out (ws : List Command) : (s.takeWord ws).out = s.out := rfl
@[simp] theorem takeWord_hist (ws : List Command) : (s.takeWord ws).hist = s.hist := rfl
@[simp] theorem takeWord_prog (ws : List Command) : (s.takeWord ws).prog = ws := rfl
@[simp] theorem takeWord_pc (ws : List Command) : (s.takeWord ws).pc = s.pc + 1 := rfl
@[simp] theorem takeWord_bursts (ws : List Command) : (s.takeWord ws).bursts = s.bursts := rfl
@[simp] theorem takeWord_sched (ws : List Command) : (s.takeWord ws).sched = s.sched := rfl
@[simp] theorem takeWord_cfg (ws : List Command) : (s.takeWord ws).cfg = s.cfg := rfl

/-! ### `beginBurst` -/

@[simp] theorem beginBurst_cap (n : Nat) : (s.beginBurst n).cap = s.cap := rfl
@[simp] theorem beginBurst_tlen (n : Nat) : (s.beginBurst n).tlen = s.tlen := rfl
@[simp] theorem beginBurst_table (n : Nat) : (s.beginBurst n).table = s.table := rfl
@[simp] theorem beginBurst_slots (n : Nat) : (s.beginBurst n).slots = s.slots := rfl
@[simp] theorem beginBurst_stream (n : Nat) : (s.beginBurst n).stream = s.stream := rfl
@[simp] theorem beginBurst_reqq (n : Nat) : (s.beginBurst n).reqq = s.reqq := rfl
@[simp] theorem beginBurst_respq (n : Nat) : (s.beginBurst n).respq = s.respq := rfl
@[simp] theorem beginBurst_pend (n : Nat) : (s.beginBurst n).pend = s.pend := rfl
@[simp] theorem beginBurst_bact (n : Nat) : (s.beginBurst n).bact = true := rfl
@[simp] theorem beginBurst_bn (n : Nat) : (s.beginBurst n).bn = n := rfl
@[simp] theorem beginBurst_bpos (n : Nat) : (s.beginBurst n).bpos = 0 := rfl
@[simp] theorem beginBurst_res (n : Nat) : (s.beginBurst n).res = s.res := rfl
@[simp] theorem beginBurst_fault (n : Nat) : (s.beginBurst n).fault = s.fault := rfl
@[simp] theorem beginBurst_halted (n : Nat) : (s.beginBurst n).halted = s.halted := rfl
@[simp] theorem beginBurst_out (n : Nat) : (s.beginBurst n).out = [] := rfl
@[simp] theorem beginBurst_hist (n : Nat) : (s.beginBurst n).hist = s.hist := rfl
@[simp] theorem beginBurst_prog (n : Nat) : (s.beginBurst n).prog = s.prog := rfl
@[simp] theorem beginBurst_pc (n : Nat) : (s.beginBurst n).pc = s.pc := rfl
@[simp] theorem beginBurst_bursts (n : Nat) : (s.beginBurst n).bursts = s.bursts := rfl
@[simp] theorem beginBurst_sched (n : Nat) : (s.beginBurst n).sched = s.sched := rfl
@[simp] theorem beginBurst_cfg (n : Nat) : (s.beginBurst n).cfg = s.cfg := rfl

/-! ### `writeFrame` -/

@[simp] theorem writeFrame_cap (st : Stream) (q : BitVec 64) : (s.writeFrame st q).cap = s.cap := rfl
@[simp] theorem writeFrame_tlen (st : Stream) (q : BitVec 64) : (s.writeFrame st q).tlen = s.tlen := rfl
@[simp] theorem writeFrame_table (st : Stream) (q : BitVec 64) : (s.writeFrame st q).table = s.table := rfl
@[simp] theorem writeFrame_slots (st : Stream) (q : BitVec 64) : (s.writeFrame st q).slots = s.slots := rfl
@[simp] theorem writeFrame_stream (st : Stream) (q : BitVec 64) : (s.writeFrame st q).stream = s.stream := rfl
@[simp] theorem writeFrame_reqq (st : Stream) (q : BitVec 64) : (s.writeFrame st q).reqq = s.reqq := rfl
@[simp] theorem writeFrame_respq (st : Stream) (q : BitVec 64) : (s.writeFrame st q).respq = s.respq := rfl
@[simp] theorem writeFrame_pend (st : Stream) (q : BitVec 64) : (s.writeFrame st q).pend = false := rfl
@[simp] theorem writeFrame_bact (st : Stream) (q : BitVec 64) : (s.writeFrame st q).bact = s.bact := rfl
@[simp] theorem writeFrame_bn (st : Stream) (q : BitVec 64) : (s.writeFrame st q).bn = s.bn := rfl
@[simp] theorem writeFrame_bpos (st : Stream) (q : BitVec 64) : (s.writeFrame st q).bpos = s.bpos + 1 := rfl
@[simp] theorem writeFrame_res (st : Stream) (q : BitVec 64) : (s.writeFrame st q).res = s.res := rfl
@[simp] theorem writeFrame_fault (st : Stream) (q : BitVec 64) : (s.writeFrame st q).fault = s.fault := rfl
@[simp] theorem writeFrame_halted (st : Stream) (q : BitVec 64) : (s.writeFrame st q).halted = s.halted := rfl
@[simp] theorem writeFrame_out (st : Stream) (q : BitVec 64) : (s.writeFrame st q).out = s.out.replicateSlot (formatWidth st.fmt) (s.bpos * st.ch.toNat) q st.ch.toNat := rfl
@[simp] theorem writeFrame_hist (st : Stream) (q : BitVec 64) : (s.writeFrame st q).hist = s.hist := rfl
@[simp] theorem writeFrame_prog (st : Stream) (q : BitVec 64) : (s.writeFrame st q).prog = s.prog := rfl
@[simp] theorem writeFrame_pc (st : Stream) (q : BitVec 64) : (s.writeFrame st q).pc = s.pc := rfl
@[simp] theorem writeFrame_bursts (st : Stream) (q : BitVec 64) : (s.writeFrame st q).bursts = s.bursts := rfl
@[simp] theorem writeFrame_sched (st : Stream) (q : BitVec 64) : (s.writeFrame st q).sched = s.sched := rfl
@[simp] theorem writeFrame_cfg (st : Stream) (q : BitVec 64) : (s.writeFrame st q).cfg = s.cfg := rfl

/-! ### `assertReset` -/

@[simp] theorem assertReset_cap : (s.assertReset).cap = 0 := rfl
@[simp] theorem assertReset_tlen : (s.assertReset).tlen = 0 := rfl
@[simp] theorem assertReset_table : (s.assertReset).table = [] := rfl
@[simp] theorem assertReset_slots : (s.assertReset).slots = List.replicate s.cfg.nOsc none := rfl
@[simp] theorem assertReset_stream : (s.assertReset).stream = none := rfl
@[simp] theorem assertReset_reqq : (s.assertReset).reqq = 0 := rfl
@[simp] theorem assertReset_respq : (s.assertReset).respq = [] := rfl
@[simp] theorem assertReset_pend : (s.assertReset).pend = false := rfl
@[simp] theorem assertReset_bact : (s.assertReset).bact = false := rfl
@[simp] theorem assertReset_bn : (s.assertReset).bn = 0 := rfl
@[simp] theorem assertReset_bpos : (s.assertReset).bpos = 0 := rfl
@[simp] theorem assertReset_res : (s.assertReset).res = 0 := rfl
@[simp] theorem assertReset_fault : (s.assertReset).fault = 0 := rfl
@[simp] theorem assertReset_halted : (s.assertReset).halted = false := rfl
@[simp] theorem assertReset_out : (s.assertReset).out = s.out := rfl
@[simp] theorem assertReset_hist : (s.assertReset).hist = [] := rfl
@[simp] theorem assertReset_prog : (s.assertReset).prog = s.prog := rfl
@[simp] theorem assertReset_pc : (s.assertReset).pc = s.pc := rfl
@[simp] theorem assertReset_bursts : (s.assertReset).bursts = s.bursts := rfl
@[simp] theorem assertReset_sched : (s.assertReset).sched = s.sched := rfl
@[simp] theorem assertReset_cfg : (s.assertReset).cfg = s.cfg := rfl

/-! ### `finishBurst` -/

@[simp] theorem finishBurst_cap : (s.finishBurst).cap = s.cap := by unfold State.finishBurst; split <;> rfl
@[simp] theorem finishBurst_tlen : (s.finishBurst).tlen = s.tlen := by unfold State.finishBurst; split <;> rfl
@[simp] theorem finishBurst_table : (s.finishBurst).table = s.table := by unfold State.finishBurst; split <;> rfl
@[simp] theorem finishBurst_slots : (s.finishBurst).slots = s.slots := by unfold State.finishBurst; split <;> rfl
@[simp] theorem finishBurst_stream : (s.finishBurst).stream = s.stream := by unfold State.finishBurst; split <;> rfl
@[simp] theorem finishBurst_reqq : (s.finishBurst).reqq = s.reqq := by unfold State.finishBurst; split <;> rfl
@[simp] theorem finishBurst_respq : (s.finishBurst).respq = s.respq := by unfold State.finishBurst; split <;> rfl
@[simp] theorem finishBurst_pend : (s.finishBurst).pend = s.pend := by unfold State.finishBurst; split <;> rfl
@[simp] theorem finishBurst_bn : (s.finishBurst).bn = s.bn := by unfold State.finishBurst; split <;> rfl
@[simp] theorem finishBurst_bpos : (s.finishBurst).bpos = s.bpos := by unfold State.finishBurst; split <;> rfl
@[simp] theorem finishBurst_res : (s.finishBurst).res = s.res := by unfold State.finishBurst; split <;> rfl
@[simp] theorem finishBurst_fault : (s.finishBurst).fault = s.fault := by unfold State.finishBurst; split <;> rfl
@[simp] theorem finishBurst_halted : (s.finishBurst).halted = s.halted := by unfold State.finishBurst; split <;> rfl
@[simp] theorem finishBurst_out : (s.finishBurst).out = s.out := by unfold State.finishBurst; split <;> rfl
@[simp] theorem finishBurst_prog : (s.finishBurst).prog = s.prog := by unfold State.finishBurst; split <;> rfl
@[simp] theorem finishBurst_pc : (s.finishBurst).pc = s.pc := by unfold State.finishBurst; split <;> rfl
@[simp] theorem finishBurst_bursts : (s.finishBurst).bursts = s.bursts := by unfold State.finishBurst; split <;> rfl
@[simp] theorem finishBurst_sched : (s.finishBurst).sched = s.sched := by unfold State.finishBurst; split <;> rfl
@[simp] theorem finishBurst_cfg : (s.finishBurst).cfg = s.cfg := by unfold State.finishBurst; split <;> rfl

@[simp] theorem finishBurst_bact : (s.finishBurst).bact = (if s.bpos = s.bn then false else s.bact) := by
  unfold State.finishBurst; split <;> rfl

@[simp] theorem finishBurst_hist :
    (s.finishBurst).hist = if s.bpos = s.bn then s.hist ++ [.burstDone s.bn] else s.hist := by
  unfold State.finishBurst; split <;> rfl

/-! ### Slots -/

@[simp] theorem slot_setSlot_same {o : Nat} (sl : Slot) (h : o < s.slots.length) : (s.setSlot o sl).slot o = some sl := by
  simp [State.slot, h]

@[simp] theorem slot_setSlot_other {o p : Nat} (sl : Slot) (h : o ≠ p) : (s.setSlot o sl).slot p = s.slot p := by
  simp [State.slot, List.getElem?_set_ne h]

/-- A live slot is one of the slots there are. -/
theorem lt_length_of_slot {o : Nat} {sl : Slot} (h : s.slot o = some sl) : o < s.slots.length := by
  by_contra hn
  simp [State.slot, List.getElem?_eq_none (Nat.le_of_not_lt hn)] at h

theorem slot_congr {s t : State} (h : s.slots = t.slots) (o : Nat) : s.slot o = t.slot o := by
  simp only [State.slot, h]

/-! ### The sequences of the history -/

end Sys2Proof.Machine
end

