-- ==== Sys2Proof/Laws/Meanings.lean ====
section
/-! SUPPORT. Once for each meaning and each agent's step, everything it can do: if it answers `next t`, then one of the cases named holds,
guards included. Later proofs cite these and unfold no meaning. -/

namespace Sys2Proof.Machine

open Sys2Proof

variable {s t : State}

/-- t is s after the fault entry with one of the named codes. -/
def RaisedOneOf (codes : List FaultCode) (s t : State) : Prop := ∃ f ∈ codes, t = s.raise f

theorem raisedOneOf_of {codes : List FaultCode} {f : FaultCode} (h : (.next (s.raise f) : Result) = .next t)
    (hf : f ∈ codes) : RaisedOneOf codes s t := by
  injection h with h; exact ⟨f, hf, h.symm⟩

/-! ### Commands -/

theorem execTnew_cases {cap : Nat} (h : execTnew cap s = .next t) :
    RaisedOneOf [.capZero, .capRange, .tableExists] s t ∨
    (cap ≠ 0 ∧ cap ≤ s.cfg.capMax ∧ s.cap = 0 ∧ t = { s with cap := cap, tlen := 0 }) := by
  unfold execTnew at h
  split at h
  · exact .inl (raisedOneOf_of h (by simp))
  split at h
  · exact .inl (raisedOneOf_of h (by simp))
  split at h
  · exact .inl (raisedOneOf_of h (by simp))
  next h0 h1 h2 =>
  injection h with h
  exact .inr ⟨h0, Nat.le_of_not_lt h1, not_not.1 h2, h.symm⟩

theorem execTfill_cases {gen : Nat} (h : execTfill gen s = .next t) :
    RaisedOneOf [.badGen, .noTable, .refill] s t ∨
    (∃ g, generatorOf gen = some g ∧ s.cap ≠ 0 ∧ s.tlen ≠ s.cap ∧
      t = { s with table := s.table.fillEntries (romEntries s.cfg.sineRom g s.cap), tlen := s.cap }) := by
  unfold execTfill at h
  split at h
  · exact .inl (raisedOneOf_of h (by simp))
  next g hg =>
  split at h
  · exact .inl (raisedOneOf_of h (by simp))
  split at h
  · exact .inl (raisedOneOf_of h (by simp))
  next h0 h1 =>
  injection h with h
  exact .inr ⟨g, hg, h0, h1, h.symm⟩

theorem execTlen_cases (h : execTlen s = .next t) :
    RaisedOneOf [.noTable] s t ∨ (s.cap ≠ 0 ∧ t = s.setRes (BitVec.ofNat 64 s.tlen)) := by
  unfold execTlen at h
  split at h
  · exact .inl (raisedOneOf_of h (by simp))
  next h0 =>
  injection h with h
  exact .inr ⟨h0, h.symm⟩

theorem execTread_cases {index : Nat} (h : execTread index s = .next t) :
    RaisedOneOf [.noTable, .indexRange] s t ∨
    (s.cap ≠ 0 ∧ index < s.tlen ∧ ∃ v, s.table.readEntry index = some v ∧ t = s.setRes (zext64 v)) := by
  unfold execTread at h
  split at h
  · exact .inl (raisedOneOf_of h (by simp))
  split at h
  · exact .inl (raisedOneOf_of h (by simp))
  next h0 h1 =>
  split at h
  · cases h
  next v hv =>
  injection h with h
  exact .inr ⟨h0, Nat.lt_of_not_le h1, v, hv, h.symm⟩

theorem execOinit_cases {o freq sr : Nat} (h : execOinit o freq sr s = .next t) :
    RaisedOneOf [.badSlot, .badFreq, .badSr, .noTable, .notFilled, .oscOwned] s t ∨
    (o < s.cfg.nOsc ∧ freq ≠ 0 ∧ sr ≠ 0 ∧ s.cap ≠ 0 ∧ s.tlen = s.cap ∧ ¬(o = 0 ∧ s.sen = true) ∧
      t = s.setSlot o { freq := freqOperand freq, rate := rateOperand sr, phase := 0 }) := by
  unfold execOinit at h
  split at h
  · exact .inl (raisedOneOf_of h (by simp))
  split at h
  · exact .inl (raisedOneOf_of h (by simp))
  split at h
  · exact .inl (raisedOneOf_of h (by simp))
  split at h
  · exact .inl (raisedOneOf_of h (by simp))
  split at h
  · exact .inl (raisedOneOf_of h (by simp))
  split at h
  · exact .inl (raisedOneOf_of h (by simp))
  next h0 h1 h2 h3 h4 h5 =>
  injection h with h
  exact .inr ⟨Nat.lt_of_not_le h0, h1, h2, h3, not_not.1 h4, h5, h.symm⟩

theorem oscStep_eq_some {sl sl' : Slot} {a : Binary32} :
    s.oscStep sl = some (a, sl') ↔ s.table.readEntry sl.address = some a ∧ sl' = sl.advance s.cap := by
  unfold State.oscStep
  split
  · next h => simp [h]
  · next v h => simp only [h, Option.some.injEq, Prod.mk.injEq, eq_comm (a := sl')]

theorem execOstep_cases {o : Nat} (h : execOstep o s = .next t) :
    RaisedOneOf [.badSlot, .oscInvalid, .oscOwned] s t ∨
    (o < s.cfg.nOsc ∧ ¬(o = 0 ∧ s.sen = true) ∧ ∃ sl a, s.slot o = some sl ∧ s.table.readEntry sl.address = some a ∧
      t = (s.setSlot o (sl.advance s.cap)).setRes (zext64 a)) := by
  unfold execOstep at h
  split at h
  · exact .inl (raisedOneOf_of h (by simp))
  next h0 =>
  split at h
  · exact .inl (raisedOneOf_of h (by simp))
  next sl hsl =>
  split at h
  · exact .inl (raisedOneOf_of h (by simp))
  next h1 =>
  split at h
  · cases h
  next a sl' hos =>
  obtain ⟨ha, rfl⟩ := oscStep_eq_some.1 hos
  injection h with h
  exact .inr ⟨Nat.lt_of_not_le h0, h1, sl, a, hsl, ha, h.symm⟩

theorem execOfreq_cases {o freq : Nat} (h : execOfreq o freq s = .next t) :
    RaisedOneOf [.badSlot, .badFreq, .oscInvalid] s t ∨
    (o < s.cfg.nOsc ∧ freq ≠ 0 ∧ ∃ sl, s.slot o = some sl ∧
      t = s.setSlot o { sl with freq := freqOperand freq }) := by
  unfold execOfreq at h
  split at h
  · exact .inl (raisedOneOf_of h (by simp))
  next h0 =>
  split at h
  · exact .inl (raisedOneOf_of h (by simp))
  next h1 =>
  split at h
  · exact .inl (raisedOneOf_of h (by simp))
  next sl hsl =>
  injection h with h
  exact .inr ⟨Nat.lt_of_not_le h0, h1, sl, hsl, h.symm⟩

theorem execSstart_cases {fmt ch : Nat} (h : execSstart fmt ch s = .next t) :
    RaisedOneOf [.badFmt, .badCh, .streamActive, .streamNoOsc] s t ∨
    (∃ f, formatOf fmt = some f ∧ ch ≠ 0 ∧ ch ≤ s.cfg.chMax ∧ s.stream = none ∧ s.ov 0 = true ∧
      t = { s with stream := some { fmt := f, ch := channelOperand ch } }) := by
  unfold execSstart at h
  split at h
  · exact .inl (raisedOneOf_of h (by simp))
  next f hf =>
  split at h
  · exact .inl (raisedOneOf_of h (by simp))
  next h0 =>
  split at h
  · exact .inl (raisedOneOf_of h (by simp))
  next h1 =>
  split at h
  · exact .inl (raisedOneOf_of h (by simp))
  next h2 =>
  injection h with h
  push Not at h0
  exact .inr ⟨f, hf, h0.1, h0.2, by simpa [State.sen] using h1, by simpa using h2, h.symm⟩

theorem execQconv_cases {fmt : Nat} {value : Binary32} (h : execQconv fmt value s = .next t) :
    RaisedOneOf [.badFmt, .qnan] s t ∨
    (∃ f q, formatOf fmt = some f ∧ quant s.cfg.quantRound f value = .ok q ∧ t = s.setRes q) := by
  unfold execQconv at h
  split at h
  · exact .inl (raisedOneOf_of h (by simp))
  next f hf =>
  split at h
  · next c hc =>
    have : c = .qnan := by
      unfold quant at hc; split at hc <;> simp_all
    subst this
    exact .inl (raisedOneOf_of h (by simp))
  next q hq =>
  injection h with h
  exact .inr ⟨f, q, hf, hq, h.symm⟩

/-! ### The other agents -/

theorem burstStep_cases (h : burstStep s = .next t) :
    t = s ∨ ∃ n rest, s.bursts = n :: rest ∧ s.burstEnabled n = true ∧ t = ({ s with bursts := rest } : State).beginBurst n := by
  unfold burstStep at h
  split at h
  · injection h with h; exact .inl h.symm
  next n rest hb =>
  split at h
  · next he => injection h with h; exact .inr ⟨n, rest, hb, he, h.symm⟩
  · injection h with h; exact .inl h.symm

theorem issueStep_cases (h : issueStep s = .next t) :
    t = s ∨ (s.issueEnabled = true ∧ t = { s with reqq := s.reqq + 1, pend := true }) := by
  unfold issueStep at h
  split at h
  · next he => injection h with h; exact .inr ⟨he, h.symm⟩
  · injection h with h; exact .inl h.symm

theorem controlStep_cases (h : controlStep s = .next t) :
    t = s ∨ (s.controlEnabled = true ∧ ∃ sl a, s.slot 0 = some sl ∧ s.table.readEntry sl.address = some a ∧
      t = (({ s with reqq := s.reqq - 1, respq := s.respq ++ [s.attenuate a] } : State).setSlot 0 (sl.advance s.cap)).emit
        (.ctlSample (s.attenuate a))) := by
  unfold controlStep at h
  split at h
  · next he =>
    split at h
    · cases h
    next sl hsl =>
    split at h
    · cases h
    next a sl' hos =>
    obtain ⟨ha, rfl⟩ := oscStep_eq_some.1 hos
    injection h with h
    exact .inr ⟨he, sl, a, hsl, ha, h.symm⟩
  · injection h with h; exact .inl h.symm

theorem frameStep_cases (h : frameStep s = .next t) :
    t = s ∨ (s.frameEnabled = true ∧ ∃ v rest st, s.respq = v :: rest ∧ s.stream = some st ∧
      ((isNaN v = true ∧ t = s.raise .qnan) ∨
       ∃ q, quant s.cfg.quantRound st.fmt v = .ok q ∧
        t = ((({ s with respq := rest } : State).emit (.rndSample v)).writeFrame st q).finishBurst)) := by
  unfold frameStep at h
  split at h
  · next he =>
    split at h
    · injection h with h; exact .inl h.symm
    next v rest hr =>
    split at h
    · cases h
    next st hst =>
    split at h
    · next c hc =>
      injection h with h
      refine .inr ⟨he, v, rest, st, hr, hst, .inl ?_⟩
      unfold quant at hc
      split at hc <;> simp_all
    next q hq =>
    injection h with h
    exact .inr ⟨he, v, rest, st, hr, hst, .inr ⟨q, hq, h.symm⟩⟩
  · injection h with h; exact .inl h.symm

theorem teardownStep_cases (h : teardownStep s = .next t) :
    (s.halted = true ∧ t = s) ∨ (s.halted = false ∧ t = s.raise .disconnect) := by
  unfold teardownStep at h
  split at h <;> injection h with h
  · next he => exact .inl ⟨he, h.symm⟩
  · next he => exact .inr ⟨by simpa using he, h.symm⟩

theorem devFailStep_cases (h : devFailStep s = .next t) :
    (s.halted = true ∧ t = s) ∨ (s.halted = false ∧ t = s.raise .device) := by
  unfold devFailStep at h
  split at h <;> injection h with h
  · next he => exact .inl ⟨he, h.symm⟩
  · next he => exact .inr ⟨by simpa using he, h.symm⟩

/-! ### The command port and the step -/

theorem runCommand_cases {w : Command} (h : runCommand w s = .next t) :
    (∃ e, decode w = .error e ∧ t = s.raise .illegal) ∨ (∃ i, decode w = .ok i ∧ exec i s = .next t) := by
  unfold runCommand at h
  split at h
  · next e he => injection h with h; exact .inl ⟨e, he, h.symm⟩
  · next i hi => exact .inr ⟨i, hi, h⟩

theorem commandStep_cases (h : commandStep s = .next t) :
    (t = s ∧ (s.prog = [] ∨ s.halted = true)) ∨
    (∃ w rest u, s.prog = w :: rest ∧ s.halted = false ∧ runCommand w (s.takeWord rest) = .next u ∧
      t = u.emit (.command w u.commandOutcome)) := by
  unfold commandStep at h
  split at h
  · next hp => injection h with h; exact .inl ⟨h.symm, .inl hp⟩
  next w rest hp =>
  split at h
  · next hr =>
    unfold recordCommand at h
    split at h
    · next u hu =>
      injection h with h
      exact .inr ⟨w, rest, u, hp, by simpa [State.portReady] using hr, hu, h.symm⟩
    · cases h
    · cases h
  · next hr => injection h with h; exact .inl ⟨h.symm, .inr (by simpa [State.portReady] using hr)⟩

theorem step_cases (h : step s = .next t) :
    s.cfg.legal = true ∧
    ((s.sched = [] ∧ t = s) ∨
     ∃ turn rest, s.sched = turn :: rest ∧ takeTurn turn { s with sched := rest } = .next t) := by
  unfold step at h
  split at h
  · next hl =>
    refine ⟨hl, ?_⟩
    unfold nextStep at h
    split at h
    · next hs => injection h with h; exact .inl ⟨hs, h.symm⟩
    · next turn rest hs => exact .inr ⟨turn, rest, hs, h⟩
  · cases h

/-- A step of a legal configuration whose schedule begins with a turn is that turn's step. -/
theorem step_of_turn {turn : Turn} {rest : List Turn} (hl : s.cfg.legal = true) (hs : s.sched = turn :: rest) :
    step s = takeTurn turn { s with sched := rest } := by
  simp only [step, hl, if_true, nextStep, hs]

/-! ### All commands and all turns at once -/

/-- What a command that completes does, with the guards it passed. -/
def Completes (i : Instr) (s t : State) : Prop :=
  match i with
  | .tnew cap => cap ≠ 0 ∧ cap ≤ s.cfg.capMax ∧ s.cap = 0 ∧ t = { s with cap := cap, tlen := 0 }
  | .tfill gen => ∃ g, generatorOf gen = some g ∧ s.cap ≠ 0 ∧ s.tlen ≠ s.cap ∧
      t = { s with table := s.table.fillEntries (romEntries s.cfg.sineRom g s.cap), tlen := s.cap }
  | .tlen => s.cap ≠ 0 ∧ t = s.setRes (BitVec.ofNat 64 s.tlen)
  | .tread index => s.cap ≠ 0 ∧ index < s.tlen ∧ ∃ v, s.table.readEntry index = some v ∧ t = s.setRes (zext64 v)
  | .oinit o freq sr => o < s.cfg.nOsc ∧ freq ≠ 0 ∧ sr ≠ 0 ∧ s.cap ≠ 0 ∧ s.tlen = s.cap ∧ ¬(o = 0 ∧ s.sen = true) ∧
      t = s.setSlot o { freq := freqOperand freq, rate := rateOperand sr, phase := 0 }
  | .ofreq o freq => o < s.cfg.nOsc ∧ freq ≠ 0 ∧ ∃ sl, s.slot o = some sl ∧
      t = s.setSlot o { sl with freq := freqOperand freq }
  | .ostep o => o < s.cfg.nOsc ∧ ¬(o = 0 ∧ s.sen = true) ∧ ∃ sl a, s.slot o = some sl ∧
      s.table.readEntry sl.address = some a ∧ t = (s.setSlot o (sl.advance s.cap)).setRes (zext64 a)
  | .sstart fmt ch => ∃ f, formatOf fmt = some f ∧ ch ≠ 0 ∧ ch ≤ s.cfg.chMax ∧ s.stream = none ∧ s.ov 0 = true ∧
      t = { s with stream := some { fmt := f, ch := channelOperand ch } }
  | .qconv fmt value => ∃ f q, formatOf fmt = some f ∧ quant s.cfg.quantRound f value = .ok q ∧ t = s.setRes q

/-- A command raises one fault or completes. -/
theorem exec_cases {i : Instr} (h : exec i s = .next t) : (∃ f, t = s.raise f) ∨ Completes i s t := by
  cases i with
  | tnew => exact (execTnew_cases h).imp (fun ⟨f, _, h⟩ => ⟨f, h⟩) id
  | tfill => exact (execTfill_cases h).imp (fun ⟨f, _, h⟩ => ⟨f, h⟩) id
  | tlen => exact (execTlen_cases h).imp (fun ⟨f, _, h⟩ => ⟨f, h⟩) id
  | tread => exact (execTread_cases h).imp (fun ⟨f, _, h⟩ => ⟨f, h⟩) id
  | oinit => exact (execOinit_cases h).imp (fun ⟨f, _, h⟩ => ⟨f, h⟩) id
  | ofreq => exact (execOfreq_cases h).imp (fun ⟨f, _, h⟩ => ⟨f, h⟩) id
  | ostep => exact (execOstep_cases h).imp (fun ⟨f, _, h⟩ => ⟨f, h⟩) id
  | sstart => exact (execSstart_cases h).imp (fun ⟨f, _, h⟩ => ⟨f, h⟩) id
  | qconv => exact (execQconv_cases h).imp (fun ⟨f, _, h⟩ => ⟨f, h⟩) id

/-- A command that completes touches only the table, the slots, the stream configuration and RES. -/
theorem Completes.frame {i : Instr} (h : Completes i s t) :
    t =
      { s with
        cap := t.cap
        tlen := t.tlen
        table := t.table
        slots := t.slots
        stream := t.stream
        res := t.res } := by
  cases i
  case tnew => obtain ⟨_, _, _, rfl⟩ := h; rfl
  case tfill => obtain ⟨_, _, _, _, rfl⟩ := h; rfl
  case tlen => obtain ⟨_, rfl⟩ := h; rfl
  case tread => obtain ⟨_, _, _, _, rfl⟩ := h; rfl
  case oinit => obtain ⟨_, _, _, _, _, _, rfl⟩ := h; rfl
  case ofreq => obtain ⟨_, _, _, _, rfl⟩ := h; rfl
  case ostep => obtain ⟨_, _, _, _, _, _, rfl⟩ := h; rfl
  case sstart => obtain ⟨_, _, _, _, _, _, rfl⟩ := h; rfl
  case qconv => obtain ⟨_, _, _, _, rfl⟩ := h; rfl

/-- What one turn does to the state it finds, the turn already taken off the schedule. -/
inductive Did : Turn → State → State → Prop
  /-- not enabled, or a read by the host or the device -/
  | nothing (turn : Turn) (u : State) : Did turn u u
  /-- an accepted command that raised -/
  | raised (u : State) (w : Command) (ws : List Command) (f : FaultCode) (hh : u.halted = false) (hp : u.prog = w :: ws) :
      Did .command u (((u.takeWord ws).raise f).emit (.command w (.raised ((u.takeWord ws).raise f).fault)))
  /-- an accepted command that completed -/
  | completed (u x : State) (w : Command) (ws : List Command) (i : Instr) (hh : u.halted = false) (hp : u.prog = w :: ws)
      (hd : decode w = .ok i) (hc : Completes i (u.takeWord ws) x) : Did .command u (x.emit (.command w .completed))
  | burst (u : State) (n : Nat) (later : List Nat) (hb : u.bursts = n :: later) (he : u.burstEnabled n = true) :
      Did .burstReq u (({ u with bursts := later } : State).beginBurst n)
  | issued (u : State) (he : u.issueEnabled = true) : Did .issue u { u with reqq := u.reqq + 1, pend := true }
  | answered (u : State) (sl : Slot) (a : Binary32) (he : u.controlEnabled = true) (hs : u.slot 0 = some sl)
      (ha : u.table.readEntry sl.address = some a) :
      Did .control u ((({ u with reqq := u.reqq - 1, respq := u.respq ++ [u.attenuate a] } : State).setSlot 0
        (sl.advance u.cap)).emit (.ctlSample (u.attenuate a)))
  | wroteFrame (u : State) (v : Binary32) (later : List Binary32) (st : Stream) (q : BitVec 64) (he : u.frameEnabled = true)
      (hr : u.respq = v :: later) (hs : u.stream = some st) (hq : quant u.cfg.quantRound st.fmt v = .ok q) :
      Did .frame u ((({ u with respq := later } : State).emit (.rndSample v)).writeFrame st q).finishBurst
  /-- the frame step, teardown or the device's failure raised -/
  | fault (turn : Turn) (u : State) (f : FaultCode) (hh : u.halted = false) : Did turn u (u.raise f)
  | reset (u : State) : Did .reset u u.assertReset

/-- Once for every step: the schedule is empty and nothing happens, or its first turn did one of the things `Did` lists. -/
theorem step_did (h : step s = .next t) :
    s.cfg.legal = true ∧
    ((s.sched = [] ∧ t = s) ∨ ∃ turn rest, s.sched = turn :: rest ∧ Did turn { s with sched := rest } t) := by
  obtain ⟨hl, h⟩ := step_cases h
  refine ⟨hl, h.imp_right fun ⟨turn, rest, hs, h⟩ => ⟨turn, rest, hs, ?_⟩⟩
  generalize ({ s with sched := rest } : State) = u at h
  cases turn with
  | command =>
    rcases commandStep_cases h with ⟨rfl, -⟩ | ⟨w, ws, x, hp, hh, hr, rfl⟩
    · exact .nothing _ _
    · have hn : (u.takeWord ws).halted = false := hh
      rcases runCommand_cases hr with ⟨e, he, rfl⟩ | ⟨i, hi, hx⟩
      · exact .raised u w ws _ hh hp
      · rcases exec_cases hx with ⟨f, rfl⟩ | hc
        · exact .raised u w ws f hh hp
        · have : x.commandOutcome = .completed := by
            rw [State.commandOutcome, hc.frame]; simp only [hn, Bool.false_eq_true, if_false]
          rw [this]
          exact .completed u x w ws i hh hp hi hc
  | hostRead p => simp only [takeTurn, hostReadStep] at h; injection h with h; subst h; exact .nothing _ _
  | deviceRead k => simp only [takeTurn, deviceReadStep] at h; injection h with h; subst h; exact .nothing _ _
  | burstReq =>
    rcases burstStep_cases h with rfl | ⟨n, later, hb, he, rfl⟩
    · exact .nothing _ _
    · exact .burst u n later hb he
  | issue =>
    rcases issueStep_cases h with rfl | ⟨he, rfl⟩
    · exact .nothing _ _
    · exact .issued u he
  | control =>
    rcases controlStep_cases h with rfl | ⟨he, sl, a, h1, h2, rfl⟩
    · exact .nothing _ _
    · exact .answered u sl a he h1 h2
  | frame =>
    rcases frameStep_cases h with rfl | ⟨he, v, later, st, h1, h2, ⟨-, rfl⟩ | ⟨q, hq, rfl⟩⟩
    · exact .nothing _ _
    · refine .fault _ u _ ?_
      simp only [State.frameEnabled, Bool.and_eq_true, Bool.not_eq_true'] at he
      exact he.1.1.1
    · exact .wroteFrame u v later st q he h1 h2 hq
  | teardown =>
    rcases teardownStep_cases h with ⟨-, rfl⟩ | ⟨he, rfl⟩
    · exact .nothing _ _
    · exact .fault _ u _ he
  | devFail =>
    rcases devFailStep_cases h with ⟨-, rfl⟩ | ⟨he, rfl⟩
    · exact .nothing _ _
    · exact .fault _ u _ he
  | reset => simp only [takeTurn, resetStep] at h; injection h with h; subst h; exact .reset u

end Sys2Proof.Machine
end

