-- ==== Sys2Proof/Laws/Memory.lean ====
section
/-! SUPPORT. The laws of a storage space: every operation keeps the canonical form, a read after a write to the same place gives what was
written, and a write leaves every other byte alone. -/

namespace Sys2Proof.Machine

open Sys2Proof

namespace Memory

/-! ### One byte -/

theorem readByte_eq_none_of_lt (m : Memory) (a : Nat) (h : ∀ c ∈ m, a < c.1) : readByte m a = none := by
  induction m with
  | nil => rfl
  | cons c rest ih =>
    obtain ⟨x, b⟩ := c
    have hx : a < x := h (x, b) (by simp)
    have : a ≠ x := by omega
    simp only [readByte, if_neg this]
    exact ih fun c hc => h c (by simp [hc])

theorem readByte_writeByte_same (m : Memory) (a : Nat) (b : Byte) : readByte (writeByte m a b) a = some b := by
  induction m with
  | nil => simp [writeByte, readByte]
  | cons c rest ih =>
    obtain ⟨x, d⟩ := c
    simp only [writeByte]
    split
    · simp [readByte]
    · split
      · simp [readByte]
      · next h1 h2 => simp [readByte, h2, ih]

theorem readByte_writeByte_other (m : Memory) (a x : Nat) (b : Byte) (h : x ≠ a) :
    readByte (writeByte m a b) x = readByte m x := by
  induction m with
  | nil => simp [writeByte, readByte, h]
  | cons c rest ih =>
    obtain ⟨y, d⟩ := c
    simp only [writeByte]
    split
    · simp [readByte, h]
    · split
      · next h1 h2 => subst h2; simp [readByte, h]
      · simp only [readByte]; split
        · rfl
        · exact ih

/-- Every address a write lists is the written one or was listed. -/
theorem mem_writeByte {m : Memory} {a : Nat} {b : Byte} {c : Host.Cell} (h : c ∈ writeByte m a b) :
    c.1 = a ∨ c ∈ m := by
  induction m with
  | nil => simp [writeByte] at h; left; rw [h]
  | cons d rest ih =>
    obtain ⟨x, e⟩ := d
    simp only [writeByte] at h
    split at h
    · rcases List.mem_cons.1 h with h | h
      · left; rw [h]
      · right; exact h
    · split at h
      · rcases List.mem_cons.1 h with h | h
        · left; rw [h]
        · right; exact List.mem_cons_of_mem _ h
      · rcases List.mem_cons.1 h with h | h
        · right; rw [h]; exact List.mem_cons_self
        · rcases ih h with h | h
          · left; exact h
          · right; exact List.mem_cons_of_mem _ h

theorem writeByte_wf {m : Memory} (hm : m.wf) (a : Nat) (b : Byte) : wf (writeByte m a b) := by
  induction m with
  | nil => simp [writeByte, wf]
  | cons c rest ih =>
    obtain ⟨x, d⟩ := c
    have hx := List.pairwise_cons.1 hm
    simp only [writeByte]
    split
    · next h =>
      refine List.pairwise_cons.2 ⟨fun c hc => ?_, hm⟩
      rcases List.mem_cons.1 hc with hc | hc
      · rw [hc]; exact h
      · exact Nat.lt_trans h (hx.1 c hc)
    · split
      · next h1 h2 => subst h2; exact List.pairwise_cons.2 ⟨hx.1, hx.2⟩
      · next h1 h2 =>
        refine List.pairwise_cons.2 ⟨fun c hc => ?_, ih hx.2⟩
        rcases mem_writeByte hc with hc | hc
        · simp only [hc]; omega
        · exact hx.1 c hc

/-! ### Several bytes -/

theorem writeBytes_wf {m : Memory} (hm : m.wf) (a : Nat) (bs : List Byte) : wf (writeBytes m a bs) := by
  induction bs generalizing m a with
  | nil => exact hm
  | cons b bs ih => exact ih (writeByte_wf hm a b) (a + 1)

theorem readByte_writeBytes_other (m : Memory) (a x : Nat) (bs : List Byte) (h : x < a ∨ a + bs.length ≤ x) :
    readByte (writeBytes m a bs) x = readByte m x := by
  induction bs generalizing m a with
  | nil => rfl
  | cons b bs ih =>
    simp only [List.length_cons] at h
    rw [writeBytes, ih _ _ (by omega), readByte_writeByte_other _ _ _ _ (by omega)]

theorem readByte_writeBytes_inside (m : Memory) (a i : Nat) (bs : List Byte) (h : i < bs.length) :
    readByte (writeBytes m a bs) (a + i) = bs[i]? := by
  induction bs generalizing m a i with
  | nil => simp at h
  | cons b bs ih =>
    rw [writeBytes]
    cases i with
    | zero =>
      simp only [Nat.add_zero, List.getElem?_cons_zero]
      rw [readByte_writeBytes_other _ _ _ _ (by omega), readByte_writeByte_same]
    | succ i =>
      have := ih (writeByte m a b) (a + 1) i (by simpa using h)
      rw [show a + (i + 1) = a + 1 + i by omega, this]; rfl

@[simp] theorem length_bytesLE (n v : Nat) : (bytesLE n v).length = n := by
  induction n generalizing v with
  | zero => rfl
  | succ n ih => simp [bytesLE, ih]

/-- A row of bytes that reads as the little-endian bytes of v reads as v, within its width. -/
theorem readLE_of_bytes (m : Memory) (a n v : Nat) (h : ∀ i, i < n → readByte m (a + i) = (bytesLE n v)[i]?) :
    readLE m a n = some (v % 256 ^ n) := by
  induction n generalizing a v with
  | zero => simp [readLE, Nat.mod_one]
  | succ n ih =>
    have h0 := h 0 (by omega)
    have ht := ih (a + 1) (v / 256) fun i hi => by
      have := h (i + 1) (by omega)
      rw [show a + 1 + i = a + (i + 1) by omega, this]; simp [bytesLE]
    simp only [bytesLE, Nat.add_zero, List.getElem?_cons_zero] at h0
    simp only [readLE, h0, ht, BitVec.toNat_ofNat, Option.some.injEq]
    rw [show 256 ^ (n + 1) = 256 * 256 ^ n by rw [Nat.pow_succ, Nat.mul_comm], Nat.mod_mul]

theorem readLE_writeLE_same (m : Memory) (a n v : Nat) : readLE (writeLE m a n v) a n = some (v % 256 ^ n) :=
  readLE_of_bytes _ _ _ _ fun i hi => readByte_writeBytes_inside _ _ _ _ (by simpa using hi)

theorem readLE_congr {m m' : Memory} {a n : Nat} (h : ∀ i, i < n → readByte m (a + i) = readByte m' (a + i)) :
    readLE m a n = readLE m' a n := by
  induction n generalizing a with
  | zero => rfl
  | succ n ih =>
    have h0 := h 0 (by omega)
    have ht := ih (a := a + 1) fun i hi => by
      have := h (i + 1) (by omega); rwa [show a + (i + 1) = a + 1 + i by omega] at this
    simp only [Nat.add_zero] at h0
    simp only [readLE, h0, ht]

theorem readByte_writeLE_other (m : Memory) (a n v x : Nat) (h : x < a ∨ a + n ≤ x) :
    readByte (writeLE m a n v) x = readByte m x :=
  readByte_writeBytes_other _ _ _ _ (by simpa using h)

theorem writeLE_wf {m : Memory} (hm : m.wf) (a n v : Nat) : wf (writeLE m a n v) := writeBytes_wf hm _ _

/-! ### The fill -/

theorem mem_numberFrom {a : Nat} {bs : List Byte} {c : Host.Cell} (h : c ∈ numberFrom a bs) :
    a ≤ c.1 ∧ c.1 < a + bs.length := by
  induction bs generalizing a with
  | nil => simp [numberFrom] at h
  | cons b bs ih =>
    rcases List.mem_cons.1 h with h | h
    · rw [h]; simp
    · have := ih h; simp only [List.length_cons]; omega

theorem numberFrom_wf (a : Nat) (bs : List Byte) : wf (numberFrom a bs) := by
  induction bs generalizing a with
  | nil => simp [numberFrom, wf]
  | cons b bs ih =>
    refine List.pairwise_cons.2 ⟨fun c hc => ?_, ih (a + 1)⟩
    have := mem_numberFrom hc; simp only; omega

theorem writePrefix_wf {m : Memory} (hm : m.wf) (bs : List Byte) : wf (writePrefix m bs) := by
  refine List.pairwise_append.2 ⟨numberFrom_wf 0 bs, hm.filter _, fun c hc d hd => ?_⟩
  have h1 := mem_numberFrom hc
  have h2 : bs.length ≤ d.1 := by simpa using (List.mem_filter.1 hd).2
  omega

theorem readByte_append (m n : Memory) (x : Nat) (h : ∀ c ∈ m, c.1 ≠ x) : readByte (m ++ n) x = readByte n x := by
  induction m with
  | nil => rfl
  | cons c rest ih =>
    obtain ⟨y, b⟩ := c
    have : x ≠ y := fun e => h (y, b) (by simp) e.symm
    simp only [List.cons_append, readByte, if_neg this]
    exact ih fun c hc => h c (by simp [hc])

theorem readByte_numberFrom_append (a i : Nat) (bs : List Byte) (n : Memory) (h : i < bs.length) :
    readByte (numberFrom a bs ++ n) (a + i) = bs[i]? := by
  induction bs generalizing a i with
  | nil => simp at h
  | cons b bs ih =>
    cases i with
    | zero => simp [numberFrom, readByte]
    | succ i =>
      have hne : a + (i + 1) ≠ a := by omega
      have := ih (a + 1) i (by simpa using h)
      simp only [numberFrom, List.cons_append, readByte, if_neg hne]
      rw [show a + (i + 1) = a + 1 + i by omega, this]; rfl

theorem readByte_filter_ge (m : Memory) (k x : Nat) (h : k ≤ x) :
    readByte (m.filter (fun c => decide (k ≤ c.1))) x = readByte m x := by
  induction m with
  | nil => rfl
  | cons c rest ih =>
    obtain ⟨y, b⟩ := c
    by_cases hy : k ≤ y
    · simp only [List.filter_cons, hy, decide_true, if_true, readByte, ih]
    · have : x ≠ y := by omega
      simp only [List.filter_cons, hy, decide_false, Bool.false_eq_true, if_false, readByte, if_neg this, ih]

theorem readByte_writePrefix_inside (m : Memory) (bs : List Byte) (i : Nat) (h : i < bs.length) :
    readByte (writePrefix m bs) i = bs[i]? := by
  have := readByte_numberFrom_append 0 i bs (m.filter (fun c => decide (bs.length ≤ c.1))) h
  simpa [writePrefix] using this

theorem readByte_writePrefix_above (m : Memory) (bs : List Byte) (x : Nat) (h : bs.length ≤ x) :
    readByte (writePrefix m bs) x = readByte m x := by
  rw [writePrefix, readByte_append, readByte_filter_ge _ _ _ h]
  intro c hc
  have := mem_numberFrom hc; omega

@[simp] theorem length_entryBytes (es : List Binary32) :
    (es.flatMap (fun e => bytesLE 4 e.toNat)).length = 4 * es.length := by
  induction es with
  | nil => rfl
  | cons e es ih => simp only [List.flatMap_cons, List.length_append, length_bytesLE, ih, List.length_cons]; omega

theorem getElem?_entryBytes (es : List Binary32) (i j : Nat) (v : Binary32) (hi : es[i]? = some v) (hj : j < 4) :
    (es.flatMap (fun e => bytesLE 4 e.toNat))[4 * i + j]? = (bytesLE 4 v.toNat)[j]? := by
  induction es generalizing i with
  | nil => simp at hi
  | cons e es ih =>
    rw [List.flatMap_cons]
    cases i with
    | zero =>
      simp only [List.getElem?_cons_zero, Option.some.injEq] at hi
      rw [hi, List.getElem?_append_left (by simp; omega), Nat.mul_zero, Nat.zero_add]
    | succ i =>
      rw [List.getElem?_append_right (by simp; omega)]
      simp only [length_bytesLE]
      rw [show 4 * (i + 1) + j - 4 = 4 * i + j by omega]
      exact ih i (by simpa using hi)

theorem fillEntries_wf {m : Memory} (hm : m.wf) (es : List Binary32) : wf (fillEntries m es) := writePrefix_wf hm _

/-- After a fill, an entry of it reads as the fill wrote it. -/
theorem readEntry_fillEntries (m : Memory) (es : List Binary32) (i : Nat) (v : Binary32) (h : es[i]? = some v) :
    readEntry (fillEntries m es) i = some v := by
  have hlen : i < es.length := by
    by_contra hn; rw [List.getElem?_eq_none (by omega)] at h; simp at h
  rw [readEntry, readLE_of_bytes (v := v.toNat)]
  · rw [Nat.mod_eq_of_lt (show v.toNat < 256 ^ 4 from v.isLt)]; simp
  · intro j hj
    rw [fillEntries, readByte_writePrefix_inside _ _ _ (by simp; omega)]
    exact getElem?_entryBytes es i j v h hj

/-- A fill leaves the bytes past its entries alone. -/
theorem readByte_fillEntries_above (m : Memory) (es : List Binary32) (x : Nat) (h : 4 * es.length ≤ x) :
    readByte (fillEntries m es) x = readByte m x :=
  readByte_writePrefix_above _ _ _ (by rw [length_entryBytes]; exact h)

theorem readEntry_fillEntries_above (m : Memory) (es : List Binary32) (i : Nat) (h : es.length ≤ i) :
    readEntry (fillEntries m es) i = readEntry m i := by
  rw [readEntry, readEntry, readLE_congr]
  intro j _; exact readByte_fillEntries_above _ _ _ (by omega)

/-! ### Output slots -/

theorem writeSlot_wf {m : Memory} (hm : m.wf) (w k : Nat) (q : BitVec 64) : wf (writeSlot m w k q) := writeLE_wf hm _ _ _

theorem readByte_writeSlot_other (m : Memory) (w k x : Nat) (q : BitVec 64)
    (h : x < slotAddr w k ∨ slotAddr w k + w / 8 ≤ x) : readByte (writeSlot m w k q) x = readByte m x :=
  readByte_writeLE_other _ _ _ _ _ h

theorem readSlot_writeSlot_same (m : Memory) (w k : Nat) (q : BitVec 64) (h : q.toNat < 256 ^ (w / 8)) :
    readSlot (writeSlot m w k q) w k = some q := by
  rw [readSlot, writeSlot, readLE_writeLE_same, Nat.mod_eq_of_lt h]; simp

theorem readSlot_writeSlot_other (m : Memory) (w k l : Nat) (q : BitVec 64) (h : l ≠ k) :
    readSlot (writeSlot m w k q) w l = readSlot m w l := by
  rw [readSlot, readSlot, readLE_congr]
  intro i hi
  refine readByte_writeSlot_other _ _ _ _ _ ?_
  simp only [slotAddr]
  rcases Nat.lt_or_gt_of_ne h with h | h
  · left
    have := Nat.mul_le_mul_right (w / 8) (Nat.succ_le_of_lt h)
    rw [Nat.succ_mul] at this; omega
  · right
    have := Nat.mul_le_mul_right (w / 8) (Nat.succ_le_of_lt h)
    rw [Nat.succ_mul] at this; omega

theorem replicateSlot_wf {m : Memory} (hm : m.wf) (w k : Nat) (q : BitVec 64) (n : Nat) :
    wf (replicateSlot m w k q n) := by
  induction n with
  | zero => exact hm
  | succ n ih => exact writeSlot_wf ih _ _ _

theorem readSlot_replicateSlot_same (m : Memory) (w k : Nat) (q : BitVec 64) (n c : Nat)
    (hq : q.toNat < 256 ^ (w / 8)) (hc : c < n) : readSlot (replicateSlot m w k q n) w (k + c) = some q := by
  induction n with
  | zero => omega
  | succ n ih =>
    rw [replicateSlot]
    by_cases h : c = n
    · subst h; exact readSlot_writeSlot_same _ _ _ _ hq
    · rw [readSlot_writeSlot_other _ _ _ _ _ (by omega)]; exact ih (by omega)

theorem readSlot_replicateSlot_other (m : Memory) (w k l : Nat) (q : BitVec 64) (n : Nat)
    (h : l < k ∨ k + n ≤ l) : readSlot (replicateSlot m w k q n) w l = readSlot m w l := by
  induction n with
  | zero => rfl
  | succ n ih => rw [replicateSlot, readSlot_writeSlot_other _ _ _ _ _ (by omega)]; exact ih (by omega)

theorem readByte_replicateSlot_other (m : Memory) (w k x : Nat) (q : BitVec 64) (n : Nat)
    (h : x < slotAddr w k ∨ slotAddr w (k + n) ≤ x) : readByte (replicateSlot m w k q n) x = readByte m x := by
  induction n with
  | zero => rfl
  | succ n ih =>
    simp only [slotAddr, ← Nat.add_assoc, Nat.succ_mul] at h
    rw [replicateSlot, readByte_writeSlot_other, ih]
    · simp only [slotAddr]; omega
    · simp only [slotAddr, Nat.add_mul] at h ⊢; omega

end Memory

end Sys2Proof.Machine
end

