-- ==== Sys2Proof/Laws/PerInstr.lean ====
section
/-! SUPPORT. The encoder row by row: the word of every command spells its row of the opcode table (30_encoding.md R86). -/

namespace Sys2Proof.Laws.WordSpellsRow

open Sys2Proof

/-- The word of the command spells its row, and its reserved field is zero. -/
def Statement (i : Instr) : Prop := i.opcode.spells (encode i) = true ∧ rsvField (encode i) = 0

theorem tnew (cap : Nat) : Statement (.tnew cap) := by
  simp [Statement, encode, Instr.opcode, spells_packWord, Opcode.fixes]

theorem tfill (gen : Nat) : Statement (.tfill gen) := by
  simp [Statement, encode, Instr.opcode, spells_packWord, Opcode.fixes]

theorem tlen : Statement .tlen := by
  simp [Statement, encode, Instr.opcode, spells_packWord, Opcode.fixes]

theorem tread (index : Nat) : Statement (.tread index) := by
  simp [Statement, encode, Instr.opcode, spells_packWord, Opcode.fixes]

theorem oinit (slot freq sr : Nat) : Statement (.oinit slot freq sr) := by
  simp [Statement, encode, Instr.opcode, spells_packWord, Opcode.fixes]

theorem ofreq (slot freq : Nat) : Statement (.ofreq slot freq) := by
  simp [Statement, encode, Instr.opcode, spells_packWord, Opcode.fixes]

theorem ostep (slot : Nat) : Statement (.ostep slot) := by
  simp [Statement, encode, Instr.opcode, spells_packWord, Opcode.fixes]

theorem sstart (fmt ch : Nat) : Statement (.sstart fmt ch) := by
  simp [Statement, encode, Instr.opcode, spells_packWord, Opcode.fixes]

theorem qconv (fmt : Nat) (value : Binary32) : Statement (.qconv fmt value) := by
  simp [Statement, encode, Instr.opcode, spells_packWord, Opcode.fixes]

end Sys2Proof.Laws.WordSpellsRow
end

