-- ==== Sys2Proof/Tests/Slice0.lean ====
section
/-! SUPPORT. The model's own tests. Expected values are those of spec/95_test_vectors.md (its ids stand in the docstrings) and of the encodings
of spec/30_encoding.md. Then, for every obligation with hypotheses, a concrete state and operands that meet them, clause by clause. -/

namespace Sys2Proof.Tests

open Sys2Proof Sys2Proof.Machine

/- Theorems one after another: checked side by side, the kernel evaluations below each hold a thread and its stack. -/
set_option Elab.async false

/-! ### Helpers -/

/-- The test configuration of spec/95_test_vectors.md: the defaults with GAIN = 0.5. -/
def testCfg : Config.Params := { Config.Params.default with gain := .given 0x3F000000 }

/-- The state after reset in the test configuration. -/
def fresh : State := { State.reset with cfg := testCfg }

/-- The next state of an answer, if it is one. -/
def nextOf (r : Result) : Option State :=
  match r with
  | .next t => some t
  | .fault _ => none
  | .refused _ => none

/-- The state after some commands from reset. -/
def after (is : List Instr) : State := (nextOf (execAll is fresh)).getD fresh

/-- The state one step leaves where the next step runs the word. -/
def stepWord (s : State) (w : Nat) : Option State := nextOf (step (s.withFetchWord 64 w))

/-- The state one turn leaves. -/
def afterTurn (s : State) (t : Turn) : State := (nextOf (step { s with sched := [t] })).getD s

/-- RES and STATUS after one step that runs the word. -/
def resAndStatus (s : State) (w : Nat) : Option (BitVec 64 × BitVec 32) := (stepWord s w).map fun t => (t.res, t.status)

/-- A sawtooth table of four entries: 0, 0.5, -1, -0.5. -/
def saw4 : State := after [.tnew 4, .tfill 1]

/-- With slot 0 at 1 Hz and 4 samples a second, so one entry a step. -/
def live : State := after [.tnew 4, .tfill 1, .oinit 0 0x10000 4]

/-- With the stream started, I16 on two channels. -/
def streaming : State := after [.tnew 4, .tfill 1, .oinit 0 0x10000 4, .sstart 1 2]

/-- Asked for one frame, with the steps that make it scheduled. -/
def demo : State := { streaming with bursts := [1], sched := [.burstReq, .issue, .control, .frame] }

/-- The four states on the way of that frame. -/
def demo1 : State := (nextOf (step demo)).getD demo
def demo2 : State := (nextOf (step demo1)).getD demo1
def demo3 : State := (nextOf (step demo2)).getD demo2
def demo4 : State := (nextOf (step demo3)).getD demo3

/-- A halted state. -/
def halted : State := fresh.raise .illegal

/-! ### WellFormed refuses an operand that does not fit its field -/

theorem test_wf_tnew : Instr.wf (.tnew 4294967295) = true ∧ Instr.wf (.tnew 4294967296) = false := by decide
theorem test_wf_tfill : Instr.wf (.tfill 15) = true ∧ Instr.wf (.tfill 16) = false := by decide
theorem test_wf_tread : Instr.wf (.tread 4294967295) = true ∧ Instr.wf (.tread 4294967296) = false := by decide
theorem test_wf_oinit : Instr.wf (.oinit 15 4294967295 1048575) = true ∧ Instr.wf (.oinit 16 1 1) = false ∧
    Instr.wf (.oinit 0 4294967296 1) = false ∧ Instr.wf (.oinit 0 1 1048576) = false := by decide
theorem test_wf_ofreq : Instr.wf (.ofreq 15 4294967295) = true ∧ Instr.wf (.ofreq 16 1) = false ∧
    Instr.wf (.ofreq 0 4294967296) = false := by decide
theorem test_wf_ostep : Instr.wf (.ostep 15) = true ∧ Instr.wf (.ostep 16) = false := by decide
theorem test_wf_sstart : Instr.wf (.sstart 15 1048575) = true ∧ Instr.wf (.sstart 16 1) = false ∧
    Instr.wf (.sstart 0 1048576) = false := by decide
theorem test_wf_qconv : Instr.wf (.qconv 15 0) = true ∧ Instr.wf (.qconv 16 0) = false := by decide

/-! ### Decoding: words written out from 30_encoding.md R81, R85 and R95 -/

/-- A = 64, B = 0, rsv = 0, sel = 0, op = 1. -/
theorem test_decode_tnew : decodeTableWord 64 0x0000004000000001 = some (.tnew 64) := by decide
/-- sel = 1, op = 2. -/
theorem test_decode_tfill : decodeTableWord 64 0x0000000000000012 = some (.tfill 1) := by decide
theorem test_decode_tlen : decodeTableWord 64 0x0000000000000003 = some .tlen := by decide
theorem test_decode_tread : decodeTableWord 64 0x0000001F00000004 = some (.tread 31) := by decide
/-- A = 440·2^16, B = 44000 = 0x0ABE0, sel = 1, op = 5. -/
theorem test_decode_oinit : decodeTableWord 64 0x01B800000ABE0015 = some (.oinit 1 0x01B80000 44000) := by decide
theorem test_decode_ofreq : decodeTableWord 64 0x0002000000000016 = some (.ofreq 1 0x20000) := by decide
theorem test_decode_ostep : decodeTableWord 64 0x0000000000000057 = some (.ostep 5) := by decide
theorem test_decode_sstart : decodeTableWord 64 0x0000000000002018 = some (.sstart 1 2) := by decide
theorem test_decode_qconv : decodeTableWord 64 0xBF80000000000059 = some (.qconv 5 0xBF800000) := by decide

/-- The encoding family of the vectors (2.5): the words that are illegal, and why. -/
theorem test_decode_illegal :
    decode 0x0000000000000000 = .error .reservedOpcode ∧ decode 0x000000000000001A = .error .reservedOpcode ∧
    decode 0x0000004000000101 = .error .reservedField ∧ decode 0x0000004000000011 = .error .mustBeZero ∧
    decode 0x0000000100002018 = .error .mustBeZero := by decide

/-! ### One step each -/

/-- T1, T2. -/
theorem test_tnew : (stepWord fresh 0x0000004000000001).map (fun t => (t.cap, t.tlen, t.status)) = some (64, 0, 0x00000002) ∧
    (stepWord fresh 0x0000000000000001).map State.status = some 0x00000201 := by decide +kernel
/-- T3, T4, T6. -/
theorem test_tnew_bounds : (stepWord fresh 0x0001000100000001).map State.status = some 0x00000301 ∧
    (stepWord fresh 0x0001000000000001).map (fun t => (t.cap, t.status)) = some (65536, 0x00000002) ∧
    (stepWord (after [.tnew 64]) 0x0000000000000001).map State.status = some 0x00000203 := by decide +kernel

/-- W1 and the table of 2.1: entries 0, 1, 16 and 48 of a sine table, and a byte below and above its last entry. -/
theorem test_tfill_sine :
    (stepWord (after [.tnew 64]) 0x0000000000000002).map (fun t =>
      (t.tlen, [0, 1, 16, 48, 64].map t.table.readEntry)) =
      some (64, [some 0x00000000, some 0x3DC8BD36, some 0x3F800000, some 0xBF800000, none]) := by decide +kernel
/-- T8, T9, and CAP 3 and 6 of the table of small capacities. -/
theorem test_tfill_saw :
    (stepWord fresh 0x0000000000000022).map State.status = some 0x00000701 ∧
    (stepWord (after [.tnew 64, .tfill 1]) 0x0000000000000002).map State.status = some 0x00000607 ∧
    (stepWord (after [.tnew 3]) 0x0000000000000012).map (fun t => (List.range 3).map t.table.readEntry) =
      some [some 0x00000000, some 0x3F2AAAAB, some 0xBF2AAAAB] ∧
    sawRom 6 3 = 0xBF800000 := by decide +kernel

/-- T10, T11, T12. -/
theorem test_tlen : resAndStatus fresh 0x3 = some (0, 0x00000501) ∧ resAndStatus (after [.tnew 64]) 0x3 = some (0, 0x00000002) ∧
    resAndStatus (after [.tnew 64, .tfill 1]) 0x3 = some (0x40, 0x00000006) := by decide +kernel

/-- T13, T14, T15. -/
theorem test_tread : resAndStatus (after [.tnew 64]) 0x0000000000000004 = some (0, 0x00000903) ∧
    resAndStatus (after [.tnew 64, .tfill 1]) 0x0000003F00000004 = some (0xBD000000, 0x00000006) ∧
    resAndStatus (after [.tnew 64, .tfill 1]) 0x0000004000000004 = some (0, 0x00000907) := by decide +kernel

/-- O9, O10, O11, O12, O13. -/
theorem test_oinit_checks :
    (stepWord saw4 0x0000000000000035).map State.status = some 0x00000A07 ∧
    (stepWord saw4 0x000000000ABE0005).map State.status = some 0x00000B07 ∧
    (stepWord saw4 0x01B8000000000005).map State.status = some 0x00000C07 ∧
    (stepWord (after [.tnew 64]) 0x01B800000ABE0005).map State.status = some 0x00000803 ∧
    (stepWord fresh 0x01B800000ABE0005).map State.status = some 0x00000501 := by decide +kernel
/-- O20, and O18. -/
theorem test_oinit :
    (stepWord (after [.tnew 64, .tfill 1, .oinit 1 0x10000 64, .ostep 1]) 0x0001800000040015).map (fun t => t.slot 1) =
      some (some ⟨0x18000, 64, 0⟩) ∧
    (stepWord streaming 0x01B800000ABE0005).map State.status = some 0x00010E0F := by decide +kernel

/-- O6: the index just below the capacity wraps to 63.99996, never to 64; the second OSTEP returns T[63]. -/
theorem test_ostep :
    (stepWord (after [.tnew 64, .tfill 1, .oinit 1 0xFFFFFFFF 1, .ostep 1]) 0x17).map
      (fun t => (t.res, (t.slot 1).map Slot.phase)) = some (0xBD000000, some 4194176) := by decide +kernel
/-- O14, O15, O17. -/
theorem test_ostep_checks : (stepWord saw4 0x17).map State.status = some 0x00000D07 ∧
    (stepWord saw4 0x57).map State.status = some 0x00000A07 ∧
    (stepWord streaming 0x7).map State.status = some 0x00010E0F := by decide +kernel

/-- O19, O16. -/
theorem test_ofreq : (stepWord streaming 0x0370000000000006).map (fun t => (t.slot 0, t.halted)) =
      some (some ⟨0x03700000, 4, 0⟩, false) ∧
    (stepWord (after [.tnew 4, .tfill 1, .oinit 1 0x10000 4]) 0x0000000000000016).map State.status = some 0x00020B07 := by
  decide +kernel

/-- B2, B3, B5, B6. -/
theorem test_sstart_checks : (stepWord live 0x00000000000020C8).map State.status = some 0x00010F07 ∧
    (stepWord live 0x0000000000000018).map State.status = some 0x00011007 ∧
    (stepWord streaming 0x0000000000002018).map State.status = some 0x0001110F ∧
    (stepWord saw4 0x0000000000002018).map State.status = some 0x00001207 := by decide +kernel
theorem test_sstart : (stepWord live 0x0000000000002018).map (fun t => (t.stream, t.status)) =
    some (some ⟨.i16, 2⟩, 0x0001000E) := by decide +kernel

/-- Q3. -/
theorem test_qconv :
    [0x3F80000000000019, 0xBF80000000000009, 0xBF80000000000059, 0x3F00000000000099, 0x3F7D70A400000049, 0x3C40000000000009].map
      (fun w => (stepWord fresh w).map State.res) =
    [some 0x7FFF, some 0x80, some 0, some 0x3FE0000000000000, some 0xFF, some 2] ∧
    (stepWord fresh 0x3F800000000000A9).map State.status = some 0x00000F01 ∧
    (stepWord fresh 0x7FC0000000000019).map State.status = some 0x00001301 := by decide +kernel
/-- Q1, three rows of it, and Q2. -/
theorem test_quant :
    quant .rne .i8 0x3B800000 = .ok 0x00 ∧ quant .rne .u64 0x3F000000 = .ok 0xC000000000000000 ∧
    quant .rne .f64 0x00000001 = .ok 0x36A0000000000000 ∧ quant .rtz .i8 0xBC400000 = .ok 0xFF ∧
    quant .rtz .u8 0x3F7D70A4 = .ok 0xFE := by
  refine ⟨?_, ?_, ?_, ?_, ?_⟩ <;> rfl

/-- P7: an illegal word raises ILLEGAL and changes nothing else. -/
theorem test_illegal : (stepWord fresh 0).map (fun t => (t.status, t.fault, t.pc)) = some (0x00000101, 0x01, 1) := by decide +kernel

/-- B1 on a table of four entries: issue, control, frame, with the burst of one frame done. -/
theorem test_frame :
    (demo2.reqq, demo2.pend, demo3.reqq, demo3.respq, demo4.pend, demo4.bpos, demo4.bact) = (1, true, 0, [0], false, 1, false) ∧
    demo4.out = [(0, 0), (1, 0), (2, 0), (3, 0)] ∧
    [0, 1, 2].map demo4.deviceSlot = [some 0, some 0, none] ∧ demo3.deviceSlot 0 = none ∧
    demo4.hist = [.ctlSample 0, .rndSample 0, .burstDone 1] := by decide +kernel

/-- B11, its third frame: 0x3D48BD36 on two channels, little-endian. -/
theorem test_frame_f32 :
    (afterTurn { fresh with stream := some ⟨.f32, 2⟩, bact := true, pend := true, bn := 3, bpos := 2, respq := [0x3D48BD36] }
      .frame).out =
    [(16, 0x36), (17, 0xbd), (18, 0x48), (19, 0x3d), (20, 0x36), (21, 0xbd), (22, 0x48), (23, 0x3d)] := by decide +kernel

/-- B7, B8, B10. -/
theorem test_device :
    (afterTurn { live with bursts := [4] } .burstReq).bursts = [4] ∧
    (afterTurn { streaming with bursts := [4097] } .burstReq).bact = false ∧
    (afterTurn { streaming with bursts := [4096] } .burstReq).bact = true ∧
    (afterTurn fresh .devFail).status = 0x00001501 := by decide +kernel

/-- R93: a value that is not exactly A/2^16, or a decimal that is no binary32, is refused. -/
theorem test_assembler :
    assembleLine "  ofreq 1, 440.5 ; note".toList = .ok [0x01B8800000000016] ∧
    assembleLine "OFREQ 1, 0.1".toList = .error .badOperand ∧ assembleLine "QCONV I8, 0.1".toList = .error .badOperand ∧
    assembleLine "QCONV f32, -inf".toList = .ok [0xFF80000000000089] ∧
    assembleLine "TNEW 0".toList = .ok [0x0000000000000001] ∧ assembleLine "SSTART I8, 1048576".toList = .error .doesNotFit := by
  decide +kernel

/-! ### Witnesses: the hypotheses of the obligations can be met -/

theorem witness_DecodeOfEncodeIsIdentity : Instr.wf (.oinit 15 4294967295 1048575) = true ∧ Instr.wf (.oinit 0 0 0) = true := by decide

theorem witness_EncodeOfDecodeIsIdentity :
    decode 0xFFFFFFFFFFFFF0F5 = .ok (.oinit 15 4294967295 1048575) ∧ decode 0x3 = .ok .tlen := by decide

theorem witness_IllegalWordsAreExactlyTheListedOnes :
    decode 0xA = .error .reservedOpcode ∧ decode 0xF09 = .error .reservedField ∧ decode 0x19 = .ok (.qconv 1 0) := by decide

theorem witness_WordsSpellTheRowTheyMatch :
    (0xFFFFFFFF00000001 : Command) &&& 0x00000000FFFFFFFF = 0x0000000000000001 := by decide

theorem witness_TnewFollowsItsRule :
    (opField 0x0000004000000001 = 0x1 ∧ rsvField 0x0000004000000001 = 0 ∧ selField 0x0000004000000001 = 0 ∧
      bField 0x0000004000000001 = 0) ∧
    (opField 0x0000004000000011 = 0x1 ∧ selField 0x0000004000000011 ≠ 0) ∧
    fresh.cfg.capMax < 65537 ∧ (65536 ≤ saw4.cfg.capMax ∧ saw4.cap ≠ 0) ∧ (65536 ≤ fresh.cfg.capMax ∧ fresh.cap = 0) := by
  decide +kernel

theorem witness_TfillFollowsItsRule :
    (opField 0x12 = 0x2 ∧ rsvField 0x12 = 0 ∧ bField 0x12 = 0 ∧ aField 0x12 = 0) ∧ (opField 0x1002 = 0x2 ∧ bField 0x1002 ≠ 0) ∧
    fresh.cap = 0 ∧ (saw4.cap ≠ 0 ∧ saw4.tlen = saw4.cap) ∧ ((after [.tnew 1]).cap ≠ 0 ∧ (after [.tnew 1]).tlen ≠ (after [.tnew 1]).cap) := by
  decide +kernel

theorem witness_TreadFollowsItsRule :
    (opField 0x4 = 0x4 ∧ rsvField 0x4 = 0 ∧ selField 0x4 = 0 ∧ bField 0x4 = 0) ∧ (opField 0x104 = 0x4 ∧ rsvField 0x104 ≠ 0) ∧
    fresh.cap = 0 ∧ (saw4.cap ≠ 0 ∧ saw4.tlen ≤ 4) ∧ (3 < saw4.tlen ∧ saw4.table.readEntry 3 = some 0xBF000000) := by decide +kernel

theorem witness_OinitFollowsItsRule :
    (opField 0x5 = 0x5 ∧ rsvField 0x5 = 0) ∧ (opField 0x805 = 0x5 ∧ rsvField 0x805 ≠ 0) ∧ fresh.cfg.nOsc ≤ 2 ∧ 1 < fresh.cfg.nOsc ∧
    fresh.cap = 0 ∧ ((after [.tnew 4]).cap ≠ 0 ∧ (after [.tnew 4]).tlen ≠ (after [.tnew 4]).cap) ∧
    (streaming.cap ≠ 0 ∧ streaming.tlen = streaming.cap ∧ streaming.sen = true) ∧
    (saw4.cap ≠ 0 ∧ saw4.tlen = saw4.cap ∧ saw4.sen = false ∧ saw4.cfg.nOsc ≤ 16 ∧ saw4.slots.length = saw4.cfg.nOsc) := by
  decide +kernel

theorem witness_OstepFollowsItsRule :
    (opField 0x7 = 0x7 ∧ rsvField 0x7 = 0 ∧ bField 0x7 = 0 ∧ aField 0x7 = 0) ∧ (opField 0x100000007 = 0x7 ∧ aField 0x100000007 ≠ 0) ∧
    (1 < saw4.cfg.nOsc ∧ saw4.slot 1 = none) ∧ (streaming.slot 0 ≠ none ∧ streaming.sen = true) ∧
    (live.slot 0 = some ⟨0x10000, 4, 0⟩ ∧ live.sen = false ∧ live.table.readEntry (0 / (4 * 2 ^ 16)) = some 0) := by decide +kernel

theorem witness_OfreqFollowsItsRule :
    (opField 0x6 = 0x6 ∧ rsvField 0x6 = 0 ∧ bField 0x6 = 0) ∧ (opField 0x1006 = 0x6 ∧ bField 0x1006 ≠ 0) ∧
    (1 < live.cfg.nOsc ∧ live.slot 1 = none) ∧ (0 < streaming.cfg.nOsc ∧ streaming.slot 0 = some ⟨0x10000, 4, 0⟩) := by
  decide +kernel

theorem witness_SstartFollowsItsRule :
    (opField 0x8 = 0x8 ∧ rsvField 0x8 = 0 ∧ aField 0x8 = 0) ∧ (opField 0x108 = 0x8 ∧ rsvField 0x108 ≠ 0) ∧ live.cfg.chMax < 9 ∧
    (8 ≤ streaming.cfg.chMax ∧ streaming.sen = true) ∧ (8 ≤ saw4.cfg.chMax ∧ saw4.sen = false ∧ saw4.ov 0 = false) ∧
    (8 ≤ live.cfg.chMax ∧ live.sen = false ∧ live.ov 0 = true) := by decide +kernel

theorem witness_QconvFollowsItsRule :
    (opField 0x9 = 0x9 ∧ rsvField 0x9 = 0 ∧ bField 0x9 = 0) ∧ (opField 0x1009 = 0x9 ∧ bField 0x1009 ≠ 0) ∧
    isNaN 0x7F800001 = true ∧ isNaN 0x7F800000 = false := by decide

theorem witness_TlenFollowsItsRule :
    (opField 0x3 = 0x3 ∧ rsvField 0x3 = 0 ∧ selField 0x3 = 0 ∧ bField 0x3 = 0 ∧ aField 0x3 = 0) ∧
    (opField 0x13 = 0x3 ∧ selField 0x13 ≠ 0) ∧ fresh.cap = 0 ∧ streaming.cap ≠ 0 ∧ streaming.cfg.legal = true := by decide +kernel

theorem witness_CommandsRaiseOnlyTheirCodes :
    (nextOf (exec (.tread 4) saw4)).map State.halted = some true ∧ saw4.halted = false := by decide +kernel

theorem witness_FaultEntryIsAsStated : fresh.fault = 0x00 ∧ halted.fault ≠ 0x00 := by decide +kernel

theorem witness_FaultsArePrecise :
    (stepWord fresh 0).map State.halted = some true ∧ fresh.halted = false ∧
    (stepWord halted 0).map State.halted = some true ∧ halted.halted = true := by decide +kernel

theorem witness_HaltedBlockOnlyWaitsForReset :
    halted.halted = true ∧ halted.cfg.legal = true ∧ (halted.withFetchWord 64 0x3).sched.head? ≠ some .reset := by decide +kernel

theorem fresh_faultInv : FaultInv fresh := ⟨by decide, .inl rfl⟩

/-- With `fresh_faultInv`, whose fields the schedule does not touch. -/
theorem witness_FaultAndHaltedChangeTogether :
    FaultInv (fresh.withFetchWord 64 0) ∧ (nextOf (step (fresh.withFetchWord 64 0))).map State.halted = some true ∧
    (fresh.withFetchWord 64 0).sched.head? ≠ some .reset := ⟨⟨by decide, .inl rfl⟩, by decide +kernel, by decide⟩

theorem witness_ResetPutsEveryFieldAtItsResetValue :
    demo4.cfg.legal = true ∧ ({ demo4 with sched := [.reset] } : State).sched = .reset :: [] := by decide +kernel

theorem witness_StatusBitsAreAsStated :
    fresh.cfg.legal = true ∧ ({ fresh with sched := [.hostRead .res] } : State).sched = .hostRead .res :: [] := by decide +kernel

theorem witness_OnlyFourCommandsWriteRes :
    (stepWord saw4 0x3).map State.res = some 4 ∧ (saw4.withFetchWord 64 0x3).res = 0 := by decide +kernel

theorem witness_OnlyTnewAndTfillWriteTheTable :
    (stepWord (after [.tnew 4]) 0x12).map (fun t => (t.tlen, t.table.length)) = some (4, 16) ∧
    ((after [.tnew 4]).withFetchWord 64 0x12).sched.head? ≠ some .reset ∧ (after [.tnew 4]).table = [] ∧ (after [.tnew 4]).tlen = 0 ∧
    (stepWord fresh 0x0000000400000001).map State.cap = some 4 ∧ fresh.cap = 0 := by decide +kernel

theorem witness_SlotsAndStreamPersistUntilReset :
    demo.ov 0 = true ∧ demo.stream = some ⟨.i16, 2⟩ ∧ demo3.slot 0 ≠ demo2.slot 0 ∧ nextOf (step demo2) = some demo3 ∧
    demo2.sched.head? = some .control := by decide +kernel

theorem witness_CommandsAreAcceptedOneAtATime : (stepWord fresh 0x3).isSome = true := by decide +kernel

theorem witness_StepRunsTheDecodedCommand :
    (fresh.withFetchWord 64 0x3).cfg.legal = true ∧ (fresh.withFetchWord 64 0x3).sched = .command :: [] ∧
    (fresh.withFetchWord 64 0x3).prog = 0x3 :: [] ∧ (fresh.withFetchWord 64 0x3).halted = false ∧ decode 0x3 = .ok .tlen ∧
    (fresh.withFetchWord 64 0xA).prog = 0xA :: [] ∧ decode 0xA = .error .reservedOpcode := by decide

theorem witness_ParametersAreLegalAndNeverChange :
    ¬(1 ≤ ({ testCfg with nOsc := 17 } : Config.Params).nOsc ∧ ({ testCfg with nOsc := 17 } : Config.Params).nOsc ≤ 16) ∧
    (nextOf (step fresh)).isSome = true := by decide +kernel

theorem witness_BurstRequestIsAcceptedOrHeld :
    (demo.cfg.legal = true ∧ demo.sched = .burstReq :: [.issue, .control, .frame] ∧ demo.bursts = 1 :: [] ∧ demo.halted = false ∧
      demo.sen = true ∧ demo.bact = false ∧ 1 ≤ demo.cfg.framesMax) ∧
    ¬(4097 ≤ demo.cfg.framesMax) := by decide +kernel

theorem witness_IssueStepPushesOneRequest :
    (demo1.cfg.legal = true ∧ demo1.sched = .issue :: [.control, .frame] ∧ demo1.halted = false ∧ demo1.bact = true ∧
      demo1.pend = false ∧ demo1.reqq < demo1.cfg.qdepth) ∧ demo2.pend = true := by decide +kernel

theorem witness_ControlStepAnswersOneRequest :
    (demo2.cfg.legal = true ∧ demo2.sched = .control :: [.frame] ∧ demo2.halted = false ∧ 0 < demo2.reqq ∧
      demo2.respq.length < demo2.cfg.qdepth ∧ demo2.slot 0 = some ⟨0x10000, 4, 0⟩ ∧
      demo2.table.readEntry (0 / (4 * 2 ^ 16)) = some 0) ∧ ¬(0 < demo1.reqq) := by decide +kernel

theorem witness_FrameStepWritesOneFrame :
    (demo3.cfg.legal = true ∧ demo3.sched = .frame :: [] ∧ demo3.halted = false ∧ demo3.bact = true ∧ demo3.pend = true ∧
      demo3.respq = 0 :: [] ∧ demo3.stream = some ⟨.i16, 2⟩) ∧ demo2.respq = [] := by decide +kernel

theorem witness_FrameStepWritesOneFrame_converts : quant demo3.cfg.quantRound .i16 0 = .ok 0 := by rfl

theorem witness_DeviceEventsRaiseTheirFaults :
    ({ fresh with sched := [.teardown] } : State).sched = .teardown :: [] ∧ ({ fresh with sched := [.devFail] } : State).sched = .devFail :: [] ∧
    fresh.halted = false ∧ fresh.cfg.legal = true ∧ halted.halted = true ∧ halted.cfg.legal = true := by decide +kernel

theorem witness_LookupAddressStaysInTheTable :
    1 ≤ (⟨0xFFFFFFFF, 0xFFFFF, 72057525318451199⟩ : Slot).rate.toNat ∧
    (⟨0xFFFFFFFF, 0xFFFFF, 72057525318451199⟩ : Slot).phase < (⟨0xFFFFFFFF, 0xFFFFF, 72057525318451199⟩ : Slot).modulus (2 ^ 20) := by
  decide +kernel

theorem saw4_tableInv : TableInv saw4 := by
  have ht : saw4.table = Memory.fillEntries [] (romEntries .rounded .saw 4) := by decide +kernel
  have hl : saw4.tlen = 4 := by decide +kernel
  refine ⟨by decide +kernel, .inr (by decide +kernel), fun i hi => ?_, fun i hi => ?_⟩
  · rw [hl] at hi
    interval_cases i
    · exact ⟨0x00000000, by decide +kernel, by unfold InUnitRange; decide +kernel⟩
    · exact ⟨0x3F000000, by decide +kernel, by unfold InUnitRange; decide +kernel⟩
    · exact ⟨0xBF800000, by decide +kernel, by unfold InUnitRange; decide +kernel⟩
    · exact ⟨0xBF000000, by decide +kernel, by unfold InUnitRange; decide +kernel⟩
  · rw [hl] at hi
    rw [ht, Memory.readEntry_fillEntries_above _ _ _ (by simpa [romEntries] using hi)]
    rfl

theorem witness_ExactSequenceLaw :
    saw4.cfg.legal = true ∧ TableInv saw4 ∧ saw4.slots.length = saw4.cfg.nOsc ∧ 0 < saw4.cfg.nOsc ∧ saw4.cap ≠ 0 ∧
    saw4.tlen = saw4.cap ∧ ¬((0 : Nat) = 0 ∧ saw4.sen = true) := by
  refine ⟨by decide +kernel, saw4_tableInv, ?_⟩
  decide +kernel

/-- The law's index, on O3: 1.5 Hz, 64 entries, 64 samples a second. -/
theorem test_lawIndex : (List.range 8).map (fun n => lawIndex n 0x18000 64 64) = [0, 1, 3, 4, 6, 7, 9, 10] := by decide +kernel

theorem demo_tableInv : TableInv demo :=
  have ht : demo.table = saw4.table := by decide +kernel
  have hl : demo.tlen = saw4.tlen := by decide +kernel
  have hc : demo.cap = saw4.cap := by decide +kernel
  have h := saw4_tableInv
  ⟨by decide +kernel, .inr (by decide +kernel), fun i hi => by rw [ht]; exact h.entries i (by rw [← hl]; exact hi),
    fun i hi => by rw [ht]; exact h.othersNone i (by rw [← hl]; exact hi)⟩

theorem demo_slotInv : SlotInv demo := by
  have hs : demo.slots = [some ⟨0x10000, 4, 0⟩, none] := by decide +kernel
  refine ⟨by decide +kernel, fun o sl h => ?_⟩
  match o with
  | 0 =>
    simp only [State.slot, hs, List.getD_cons_zero, Option.some.injEq] at h
    subst h
    refine ⟨?_, ?_, ?_, ?_, ?_⟩ <;> decide +kernel
  | 1 => simp [State.slot, hs] at h
  | n + 2 => simp [State.slot, hs] at h

theorem demo_inv : Inv demo := by
  have hst : demo.stream = some ⟨.i16, 2⟩ := by decide +kernel
  have hr : demo.respq = [] := by decide +kernel
  refine ⟨demo_tableInv, demo_slotInv, fun st h => ?_, ⟨fun h => ?_, fun _ => by decide +kernel, by decide +kernel⟩,
    ⟨by decide +kernel, .inl (by decide +kernel)⟩, ?_, fun v hv => ?_⟩
  · rw [hst] at h
    injection h with h
    subst h
    decide +kernel
  · exact absurd h (by decide +kernel)
  · unfold SpacesInv; decide +kernel
  · rw [hr] at hv; simp at hv

theorem witness_BurstRendersTheSequence :
    demo.cfg.legal = true ∧ Inv demo ∧ demo.halted = false ∧ demo.bact = false ∧ demo.stream = some ⟨.i16, 2⟩ ∧
    demo.slot 0 = some ⟨0x10000, 4, 0⟩ ∧ 1 ≤ demo.cfg.framesMax ∧ demo.bursts = 1 :: [] ∧
    demo.sched = .burstReq :: ((List.replicate 1 [Turn.issue, Turn.control, Turn.frame]).flatten ++ []) := by
  refine ⟨by decide +kernel, demo_inv, ?_⟩
  decide +kernel

/-- Slot 0 of `live`, whose stream has not started, with the table and slots of `demo`. -/
theorem witness_LawAfterFrequencyChange :
    live.cfg.legal = true ∧ TableInv live ∧ SlotInv live ∧ 0 < live.cfg.nOsc ∧ live.slot 0 = some ⟨0x10000, 4, 0⟩ ∧
    ¬((0 : Nat) = 0 ∧ live.sen = true) := by
  have hc : live.cap = demo.cap := by decide +kernel
  have hl : live.tlen = demo.tlen := by decide +kernel
  have ht : live.table = demo.table := by decide +kernel
  have hs : live.slots = demo.slots := by decide +kernel
  have hslot : ∀ o, live.slot o = demo.slot o := fun o => by simp only [State.slot, hs]
  refine ⟨by decide +kernel, ⟨by decide +kernel, by decide +kernel, ?_, ?_⟩, ⟨by decide +kernel, ?_⟩, ?_⟩
  · rw [ht, hl]; exact demo_tableInv.entries
  · rw [ht, hl]; exact demo_tableInv.othersNone
  · intro o sl h
    rw [hslot] at h
    rw [hc, hl]
    exact demo_slotInv.live o sl h
  · decide +kernel

theorem witness_EqualSlotsReturnEqualSequences :
    (nextOf (execAll (.oinit 0 0x18000 64 :: List.replicate 3 (.ostep 0)) saw4)).map State.halted = some false ∧
    (nextOf (execAll (.oinit 1 0x18000 64 :: List.replicate 3 (.ostep 1)) saw4)).map State.halted = some false ∧
    saw4.slots.length = saw4.cfg.nOsc ∧ saw4.halted = false := by decide +kernel

theorem witness_SawRomIsTheExactRationalRounded :
    (2 * 1 < 3 ∧ 3 ≤ 2 * 2) ∧ sawRom 3 1 = 0x3F2AAAAB ∧ sawRom 3 2 = 0xBF2AAAAB ∧ 2 * 524288 = 2 ^ 20 := by decide +kernel

theorem witness_GeneratorsStayInRange : (1 ≤ 2 ^ 20 ∧ 2 ^ 20 ≤ 2 ^ 20 ∧ 1048575 < 2 ^ 20) ∧ InUnitRange (sawRom 2 1) := by
  unfold InUnitRange; decide +kernel

theorem witness_SineRomIsWithinTolerance : 1 ≤ 64 ∧ 64 ≤ 2 ^ 20 ∧ 63 < 64 ∧ sineRom .rounded 64 63 = 0xBDC8BD36 := by decide +kernel

theorem witness_Rne32IsRoundToNearestEven :
    isFinite (rne32 16777217 16777216) = true ∧ rne32 16777217 16777216 = 0x3F800000 ∧
    isFinite (rne32 (2 ^ 128) 1) = false ∧ isFinite (rne32 (2 ^ 128 - 2 ^ 103) 1) = false ∧
    isFinite (rne32 (2 ^ 128 - 2 ^ 103 - 1) 1) = true := by decide +kernel

theorem witness_GainProductIsRoundedAndBounded :
    isFinite 0x3F61C598 = true ∧ val 0x3F61C598 * val 0x3F000000 ≠ 0 ∧ mul32 0x3F61C598 0x3F000000 = 0x3EE1C598 ∧
    isFinite 0x80000000 = true ∧ val 0x80000000 * val 0x3F000000 = 0 ∧ mul32 0x80000000 0x3F000000 = 0x80000000 ∧
    InUnitRange 0xBF800000 ∧ Config.Gain.legal (.given 0x3F800000) = true ∧ Config.Gain.legal (.given 1) = true := by
  unfold InUnitRange; decide +kernel

theorem witness_IntegerFormatsFollowTheirFormula :
    Format.i64 ∈ [Format.i8, Format.i16, Format.i32, Format.i64] ∧ Format.u8 ∈ [Format.u8, Format.u16, Format.u32, Format.u64] ∧
    isNaN 0x3C400000 = false ∧ isFinite 0x3C400000 = true ∧ (isInf 0x7F800000 = true ∧ signBit 0x7F800000 = false) ∧
    (isInf 0xFF800000 = true ∧ signBit 0xFF800000 = true) := by decide

theorem witness_FloatFormatsAreExact : isNaN 0x00000001 = false ∧ isFinite 0x00000001 = true ∧ val 0x00000001 ≠ 0 := by
  decide +kernel

theorem witness_QuantizerRejectsExactlyNans : isNaN 0xFFFFFFFF = true ∧ isNaN 0xFF7FFFFF = false := by decide

/-- Q4: the saturation tie 0.99609375 on I8, and 0.99 under RTZ on U8. -/
theorem witness_RoundTripErrorIsBounded :
    InUnitRange 0x3F7F0000 ∧ RoundsTo .rne (val 0x3F7F0000 * 2 ^ (formatWidth .i8 - 1)) 128 ∧
    |deq .i8 0x7F - val 0x3F7F0000| = 1 / 2 ^ 8 ∧
    InUnitRange 0x3F7D70A4 ∧ RoundsTo .rtz (val 0x3F7D70A4 * 2 ^ (formatWidth .u8 - 1)) 126 ∧ deq .u8 0xFE = 126 / 128 := by
  have hv : val 0x3F7F0000 = 255 / 256 := by decide +kernel
  have hw : val 0x3F7D70A4 = 16609444 / 16777216 := by decide +kernel
  refine ⟨by unfold InUnitRange; decide +kernel, ?_, by decide +kernel, by unfold InUnitRange; decide +kernel, ?_, by decide +kernel⟩
  · rw [hv]
    refine ⟨by norm_num [formatWidth], fun _ => by decide⟩
  · rw [hw]
    exact ⟨fun _ => by norm_num [formatWidth], fun h => absurd h (by norm_num [formatWidth])⟩

theorem witness_RoundTripErrorIsBounded_converts :
    quant .rne .i8 0x3F7F0000 = .ok 0x7F ∧ quant .rtz .u8 0x3F7D70A4 = .ok 0xFE := ⟨by rfl, by rfl⟩

/-- Q5. -/
theorem witness_ReplicatorWritesLittleEndianFrames :
    (0x0200 : BitVec 64).toNat < 2 ^ formatWidth .i16 ∧
    (fresh.writeFrame ⟨.i16, 3⟩ 0x0200).out = [(0, 0x00), (1, 0x02), (2, 0x00), (3, 0x02), (4, 0x00), (5, 0x02)] := by decide +kernel

theorem witness_EveryStepKeepsTheInvariant : Inv demo ∧ nextOf (step demo) = some demo1 := ⟨demo_inv, by decide +kernel⟩

theorem witness_LegalStepsAlwaysAnswer : demo.cfg.legal = true ∧ Inv demo := ⟨by decide +kernel, demo_inv⟩

theorem witness_TableIsFilledOnceThenImmutable :
    TableInv demo ∧ nextOf (step demo) = some demo1 ∧ demo.sched.head? ≠ some .reset ∧ demo.cap ≠ 0 ∧ demo.tlen = demo.cap :=
  ⟨demo_tableInv, by decide +kernel, by decide +kernel, by decide +kernel, by decide +kernel⟩

theorem witness_TlenFollowsItsRule_reachable : demo.cap ≠ 0 ∧ demo.cfg.legal = true ∧ TableInv demo :=
  ⟨by decide +kernel, by decide +kernel, demo_tableInv⟩

theorem witness_PairingIsKeptInEveryOrder :
    BridgeInv demo ∧ nextOf (step demo) = some demo1 ∧ demo.cfg.legal = true ∧ (rndSamples demo4.hist)[0]? = some 0 :=
  ⟨demo_inv.bridge, by decide +kernel, by decide +kernel, by decide +kernel⟩

theorem witness_OutputFollowsTheSamplesReceived : Inv demo ∧ OutputInv demo ∧ nextOf (step demo) = some demo1 := by
  have hb : demo.bpos = 0 := by decide +kernel
  refine ⟨demo_inv, ⟨by rw [hb]; exact Nat.zero_le _, fun _ => hb, fun st _ j c hj _ => ?_⟩, by decide +kernel⟩
  rw [hb] at hj
  exact absurd hj (Nat.not_lt_zero j)

theorem witness_BootOrderStartsTheStream :
    testCfg.legal = true ∧ 65536 ≤ testCfg.capMax ∧ 8 ≤ testCfg.chMax ∧
    (nextOf (execAll [.tnew 4, .tfill 0, .oinit 0 4294967295 1048575, .sstart 9 8]
      (({ State.reset with cfg := testCfg } : State).assertReset))).map State.sen = some true := by decide +kernel

theorem witness_DeviceReadsOnlyFinishedBursts :
    (demo4.cfg.legal = true ∧ ({ demo4 with sched := [.deviceRead 1] } : State).sched = .deviceRead 1 :: []) ∧ demo1.bact = true ∧
    (demo4.stream = some ⟨.i16, 2⟩ ∧ demo4.bact = false ∧ demo4.bn = 1 ∧ 1 < demo4.bn * 2 ∧ demo4.bn * 2 ≤ 2) ∧ fresh.stream = none ∧
    (nextOf (step { demo4 with sched := [.reset] })).map (fun t => (t.out.length, t.deviceSlot 1)) = some (4, none) := by
  decide +kernel

/-- Slot 0 of a running stream, for the clause on `oscStep`. -/
theorem witness_LawAfterFrequencyChange_streaming :
    TableInv demo ∧ SlotInv demo ∧ 0 < demo.cfg.nOsc ∧ demo.slot 0 = some ⟨0x10000, 4, 0⟩ ∧ demo.sen = true :=
  ⟨demo_tableInv, demo_slotInv, by decide +kernel, by decide +kernel, by decide +kernel⟩

/-- The clause on `oscStep` for a slot at phase 0. -/
theorem witness_ExactSequenceLaw_oscStep :
    TableInv demo ∧ demo.cap ≠ 0 ∧ demo.tlen = demo.cap ∧ 1 ≤ (⟨0x10000, 4, 0⟩ : Slot).rate.toNat :=
  ⟨demo_tableInv, by decide +kernel, by decide +kernel, by decide⟩

end Sys2Proof.Tests
end

section
/-! Binary32 rounding (00_scope.md R12): the fields of a pattern, the grid the finite magnitudes lie on, what `roundMag` answers, and
with them the obligations on RNE32, on the gain product and on the parameters (O42, O43, O28). -/

namespace Sys2Proof.Machine

open Sys2Proof

/-! ### The fields of a pattern -/

theorem expField_eq_toNat (b : Binary32) : expField b = b.toNat / 2 ^ 23 % 2 ^ 8 := by
  simp only [expField, BitVec.extractLsb'_toNat, Nat.shiftRight_eq_div_pow]

theorem fracField_eq_toNat (b : Binary32) : fracField b = b.toNat % 2 ^ 23 := by
  simp only [fracField, BitVec.extractLsb'_toNat, Nat.shiftRight_zero]

theorem signBit_eq_toNat (b : Binary32) : signBit b = decide (2 ^ 31 ≤ b.toNat) :=
  BitVec.msb_eq_decide b

theorem toNat_withSign (neg : Bool) {m : Nat} (hm : m < 2 ^ 31) :
    (withSign neg m).toNat = (if neg then 2 ^ 31 else 0) + m := by
  rw [withSign, BitVec.toNat_ofNat, Nat.mod_eq_of_lt]
  split <;> omega

theorem signBit_withSign (neg : Bool) {m : Nat} (hm : m < 2 ^ 31) : signBit (withSign neg m) = neg := by
  rw [signBit_eq_toNat, toNat_withSign neg hm]
  cases neg
  · simpa using hm
  · simp

theorem expField_withSign (neg : Bool) {m : Nat} (hm : m < 2 ^ 31) : expField (withSign neg m) = m / 2 ^ 23 := by
  rw [expField_eq_toNat, toNat_withSign neg hm]
  split <;> omega

theorem fracField_withSign (neg : Bool) {m : Nat} (hm : m < 2 ^ 31) : fracField (withSign neg m) = m % 2 ^ 23 := by
  rw [fracField_eq_toNat, toNat_withSign neg hm]
  split <;> omega

theorem isFinite_withSign (neg : Bool) {m : Nat} (hm : m ≤ 0x7F800000) :
    isFinite (withSign neg m) = true ↔ m < 0x7F800000 := by
  rw [isFinite, expField_withSign neg (by omega), bne_iff_ne]
  omega

theorem isInf_withSign_infinity (neg : Bool) : isInf (withSign neg 0x7F800000) = true := by
  cases neg <;> decide

/-! ### Magnitudes and values -/

theorem mag_of_expField_eq_zero {b : Binary32} (h : expField b = 0) : mag b = fracField b := if_pos h

theorem mag_of_expField_ne_zero {b : Binary32} (h : expField b ≠ 0) :
    mag b = (fracField b + 2 ^ 23) * 2 ^ (expField b - 1) := if_neg h

theorem mag_lt_of_expField_le {b : Binary32} {e : Nat} (h : expField b ≤ e) : mag b < 2 ^ (e + 23) := by
  have hf := fracField_lt b
  by_cases h0 : expField b = 0
  · rw [mag_of_expField_eq_zero h0]
    exact hf.trans_le (Nat.pow_le_pow_right two_pos (by omega))
  · rw [mag_of_expField_ne_zero h0]
    calc (fracField b + 2 ^ 23) * 2 ^ (expField b - 1)
        < 2 ^ 24 * 2 ^ (expField b - 1) := Nat.mul_lt_mul_of_pos_right (by omega) (Nat.two_pow_pos _)
      _ = 2 ^ (24 + (expField b - 1)) := (pow_add ..).symm
      _ ≤ 2 ^ (e + 23) := Nat.pow_le_pow_right two_pos (by omega)

/-- The grid of the magnitudes: those from 2^(e+23) on are multiples of 2^e. -/
theorem dvd_mag_or_mag_lt (b : Binary32) (e : Nat) : 2 ^ e ∣ mag b ∨ mag b < 2 ^ (e + 23) := by
  rcases Nat.lt_or_ge e (expField b) with h | h
  · rw [mag_of_expField_ne_zero (by omega)]
    exact .inl ((pow_dvd_pow 2 (by omega)).mul_left _)
  · exact .inr (mag_lt_of_expField_le h)

theorem units_eq_zero_iff {b : Binary32} : units b = 0 ↔ mag b = 0 := by
  rw [← units_natAbs, Int.natAbs_eq_zero]

theorem units_neg_iff {b : Binary32} (h : mag b ≠ 0) : units b < 0 ↔ signBit b = true := by
  unfold units; split <;> simp_all; omega

theorem val_eq_zero_iff {b : Binary32} : val b = 0 ↔ mag b = 0 := by
  rw [val, div_eq_zero_iff, or_iff_left (by positivity), Int.cast_eq_zero, units_eq_zero_iff]

theorem val_of_signBit_false {b : Binary32} (h : signBit b = false) : val b = mag b / 2 ^ 149 := by
  simp [val, units, h]

theorem abs_val (b : Binary32) : |val b| = mag b / 2 ^ 149 := by
  rw [val, abs_div, ← Int.cast_abs, Int.abs_eq_natAbs, units_natAbs, abs_of_pos (by positivity), Int.cast_natCast]

theorem abs_val_le_one_iff {b : Binary32} : |val b| ≤ 1 ↔ mag b ≤ 2 ^ 149 := by
  rw [abs_val, div_le_one (by positivity)]
  exact_mod_cast Iff.rfl

theorem inUnitRange_iff {b : Binary32} : InUnitRange b ↔ isFinite b = true ∧ mag b ≤ 2 ^ 149 := by
  rw [InUnitRange, ← abs_val_le_one_iff, abs_le]

/-- The distance of a value from a rational, over the common denominator. -/
theorem abs_val_sub_div (b : Binary32) (n : ℤ) {d : Nat} (hd : 0 < d) :
    |val b - (n : ℚ) / d| = (|units b * d - n * 2 ^ 149| : ℤ) / (2 ^ 149 * d) := by
  have hd' : (0 : ℚ) < d := by exact_mod_cast hd
  rw [val, div_sub_div _ _ (by positivity) hd'.ne', abs_div, abs_of_pos (a := 2 ^ 149 * (d : ℚ)) (by positivity),
    mul_comm (2 ^ 149) (n : ℚ)]
  simp only [Int.cast_abs, Int.cast_sub, Int.cast_mul, Int.cast_natCast, Int.cast_pow, Int.cast_ofNat]

/-! ### Rounding a magnitude -/

/-- The exponent of the unit in the last place at which `roundMag` rounds n/d. -/
def ulpExp (n d : Nat) : Nat := (n * 2 ^ 149 / d).log2 - 23

/-- n/d rounded, in units in the last place. -/
def roundUnits (n d : Nat) : Nat := divRne (n * 2 ^ 149) (d * 2 ^ ulpExp n d)

theorem roundUnits_eq (n d : Nat) : roundUnits n d = divRne (n * 2 ^ 149) (d * 2 ^ ulpExp n d) := rfl

theorem roundMag_eq (n d : Nat) : roundMag n d = min (ulpExp n d * 2 ^ 23 + roundUnits n d) 0x7F800000 := rfl

theorem roundMag_le (n d : Nat) : roundMag n d ≤ 0x7F800000 := min_le_right ..

theorem isFinite_withSign_roundMag (neg : Bool) (n d : Nat) :
    isFinite (withSign neg (roundMag n d)) = true ↔ ulpExp n d * 2 ^ 23 + roundUnits n d < 0x7F800000 := by
  rw [isFinite_withSign neg (roundMag_le n d), roundMag_eq, min_lt_iff, or_iff_left (lt_irrefl _)]

section Rounding
variable {n d : Nat} (hd : 0 < d)
include hd

theorem lt_two_pow_ulpExp : n * 2 ^ 149 < 2 ^ (ulpExp n d + 24) * d := by
  rw [← Nat.div_lt_iff_lt_mul hd]
  exact Nat.lt_log2_self.trans_le (Nat.pow_le_pow_right two_pos (by unfold ulpExp; omega))

/-- Above the subnormals, n/d fills the significand at its exponent. -/
theorem two_pow_ulpExp_le (he : 0 < ulpExp n d) : 2 ^ (ulpExp n d + 23) * d ≤ n * 2 ^ 149 := by
  have hlog : ulpExp n d + 23 = (n * 2 ^ 149 / d).log2 := by unfold ulpExp at he ⊢; omega
  rw [← Nat.le_div_iff_mul_le hd, hlog]
  refine Nat.log2_self_le fun h0 => ?_
  rw [h0, Nat.log2_zero] at hlog
  omega

/-- A bound on n/d by a multiple of the unit in the last place bounds the rounded value. -/
theorem roundUnits_le_of_le {k : Nat} (h : n * 2 ^ 149 ≤ k * 2 ^ ulpExp n d * d) : roundUnits n d ≤ k := by
  have hD : 0 < d * 2 ^ ulpExp n d := Nat.mul_pos hd (Nat.two_pow_pos _)
  rw [← divRne_mul k _ hD]
  exact divRne_mono _ hD (by rwa [mul_comm d, ← mul_assoc])

theorem le_roundUnits_of_le {k : Nat} (h : k * 2 ^ ulpExp n d * d ≤ n * 2 ^ 149) : k ≤ roundUnits n d := by
  have hD : 0 < d * 2 ^ ulpExp n d := Nat.mul_pos hd (Nat.two_pow_pos _)
  rw [← divRne_mul k _ hD]
  exact divRne_mono _ hD (by rwa [mul_comm d, ← mul_assoc])

theorem roundUnits_le : roundUnits n d ≤ 2 ^ 24 :=
  roundUnits_le_of_le hd (by rw [← pow_add, add_comm 24]; exact (lt_two_pow_ulpExp hd).le)

theorem le_roundUnits (he : 0 < ulpExp n d) : 2 ^ 23 ≤ roundUnits n d :=
  le_roundUnits_of_le hd (by rw [← pow_add, add_comm 23]; exact two_pow_ulpExp_le hd he)

end Rounding

/-- The pattern e·2^23 + q stands for q units of 2^e: subnormals, a full significand, and one rounded up to the next power of two. -/
theorem mag_withSign (neg : Bool) {e q : Nat} (hq : q ≤ 2 ^ 24) (he : 0 < e → 2 ^ 23 ≤ q)
    (hfin : e * 2 ^ 23 + q < 0x7F800000) : mag (withSign neg (e * 2 ^ 23 + q)) = q * 2 ^ e := by
  have hE := expField_withSign neg (hfin.trans (by norm_num))
  have hF := fracField_withSign neg (hfin.trans (by norm_num))
  rcases Nat.lt_or_ge q (2 ^ 23) with hsub | hnorm
  · obtain rfl : e = 0 := by omega
    rw [mag_of_expField_eq_zero (by omega), hF]
    omega
  rcases hq.lt_or_eq with hlt | rfl
  · have hexp : expField (withSign neg (e * 2 ^ 23 + q)) = e + 1 := by omega
    have hfrac : fracField (withSign neg (e * 2 ^ 23 + q)) = q - 2 ^ 23 := by omega
    rw [mag_of_expField_ne_zero (by omega), hexp, hfrac, Nat.sub_add_cancel hnorm, Nat.add_sub_cancel]
  · have hexp : expField (withSign neg (e * 2 ^ 23 + 2 ^ 24)) = e + 2 := by omega
    have hfrac : fracField (withSign neg (e * 2 ^ 23 + 2 ^ 24)) = 0 := by omega
    rw [mag_of_expField_ne_zero (by omega), hexp, hfrac, Nat.add_succ_sub_one, pow_succ]
    omega

theorem mag_withSign_roundMag (neg : Bool) {n d : Nat} (hd : 0 < d)
    (hfin : isFinite (withSign neg (roundMag n d)) = true) :
    mag (withSign neg (roundMag n d)) = roundUnits n d * 2 ^ ulpExp n d := by
  rw [isFinite_withSign_roundMag] at hfin
  rw [roundMag_eq, min_eq_left hfin.le]
  exact mag_withSign neg (roundUnits_le hd) (le_roundUnits hd) hfin

/-! ### Nearest, ties to even -/

/-- No integer is nearer to N/D than `divRne N D`, and it is even where another is as near. -/
theorem divRne_nearest (N : Nat) {D : Nat} (hD : 0 < D) (k : ℤ) :
    |(divRne N D : ℤ) * D - N| ≤ |k * D - N| ∧
    (|(divRne N D : ℤ) * D - N| = |k * D - N| → k ≠ divRne N D → divRne N D % 2 = 0) := by
  obtain ⟨hlo, hhi, htie⟩ := divRne_spec N D hD
  generalize divRne N D = q at *
  zify at hlo hhi htie
  have hhalf : 2 * |(q : ℤ) * D - N| ≤ D ∧ (2 * |(q : ℤ) * D - N| = D → q % 2 = 0) := by
    rcases abs_cases ((q : ℤ) * D - N) with ⟨ha, -⟩ | ⟨ha, -⟩ <;> rw [ha] <;>
      exact ⟨by omega, fun h => by exact_mod_cast htie (by omega)⟩
  rcases eq_or_ne k q with rfl | hk
  · exact ⟨le_rfl, fun _ hne => absurd rfl hne⟩
  · have hstep : (D : ℤ) ≤ |k * D - q * D| := by
      rw [← sub_mul, abs_mul, Nat.abs_cast]
      exact le_mul_of_one_le_left (by positivity) (Int.one_le_abs (sub_ne_zero.2 hk))
    have htriangle := abs_sub_le (k * (D : ℤ)) N (q * D)
    rw [abs_sub_comm (N : ℤ)] at htriangle
    exact ⟨by omega, fun heq _ => hhalf.2 (by omega)⟩

/-- No value of the grid is nearer to n/d than the rounded one: a multiple of the unit in the last place by `divRne_nearest`, a value
below the binade of n/d because the least value of that binade lies between. -/
theorem roundUnits_nearest {n d : Nat} (hd : 0 < d) {u : ℤ} (hu : 2 ^ ulpExp n d ∣ u ∨ u < 2 ^ (ulpExp n d + 23)) :
    |(roundUnits n d * 2 ^ ulpExp n d : ℤ) * d - n * 2 ^ 149| ≤ |u * d - n * 2 ^ 149| ∧
    (|(roundUnits n d * 2 ^ ulpExp n d : ℤ) * d - n * 2 ^ 149| = |u * d - n * 2 ^ 149| →
      u ≠ roundUnits n d * 2 ^ ulpExp n d → roundUnits n d % 2 = 0) := by
  have hD : 0 < d * 2 ^ ulpExp n d := Nat.mul_pos hd (Nat.two_pow_pos _)
  have hnear (k : ℤ) := divRne_nearest (n * 2 ^ 149) hD k
  have hmul (k : ℤ) : k * 2 ^ ulpExp n d * d = k * (d * 2 ^ ulpExp n d : ℕ) := by push_cast; ring
  have hbig : 2 ^ ulpExp n d ∣ u ∨ 0 < ulpExp n d ∧ u < 2 ^ (ulpExp n d + 23) := by
    rcases Nat.eq_zero_or_pos (ulpExp n d) with h0 | hpos
    · exact .inl (by simp [h0])
    · exact hu.imp_right (⟨hpos, ·⟩)
  simp only [← roundUnits_eq, Nat.cast_mul n, Nat.cast_pow, Nat.cast_ofNat] at hnear
  rcases hbig with ⟨k, rfl⟩ | ⟨hpos, hlt⟩
  · rw [mul_comm _ k, hmul, hmul]
    exact ⟨(hnear k).1, fun heq hne => (hnear k).2 heq fun hk => hne (by rw [hk])⟩
  · have hfar : |(2 ^ 23 : ℤ) * (d * 2 ^ ulpExp n d : ℕ) - n * 2 ^ 149| < |u * d - n * 2 ^ 149| := by
      have hle : (2 ^ (ulpExp n d + 23) * d : ℤ) ≤ n * 2 ^ 149 := by exact_mod_cast two_pow_ulpExp_le hd hpos
      have hud : u * d < 2 ^ (ulpExp n d + 23) * d := by gcongr
      rw [← hmul, ← pow_add, add_comm 23, abs_of_nonpos (by linarith), abs_of_nonpos (by linarith)]
      linarith
    rw [hmul]
    have hq := (hnear (2 ^ 23)).1.trans_lt hfar
    exact ⟨hq.le, fun heq => absurd heq hq.ne⟩

/-- The pattern overflows exactly where n/d is at least (2 - 2^-24)·2^127. In the last binade, where the exponent is 253, that is the
midpoint of the units 2^24 - 1 and 2^24, a tie that goes to the even 2^24. -/
theorem roundMag_overflow_iff {n d : Nat} (hd : 0 < d) :
    0x7F800000 ≤ ulpExp n d * 2 ^ 23 + roundUnits n d ↔ (2 ^ 25 - 1) * 2 ^ 103 * d ≤ n := by
  have hlt := lt_two_pow_ulpExp (n := n) hd
  have hle := two_pow_ulpExp_le (n := n) hd
  have hqle := roundUnits_le (n := n) hd
  have hqge := le_roundUnits (n := n) hd
  rcases Nat.lt_trichotomy (ulpExp n d) 253 with he | he | he
  · have : 2 ^ (ulpExp n d + 24) * d ≤ 2 ^ 276 * d := by gcongr <;> omega
    omega
  · obtain ⟨hlo, hhi, htie⟩ := divRne_spec (n * 2 ^ 149) (d * 2 ^ ulpExp n d) (Nat.mul_pos hd (Nat.two_pow_pos _))
    rw [← roundUnits_eq, he] at hlo hhi htie
    rcases hqle.lt_or_eq with hq | hq
    · have hqD : roundUnits n d * (d * 2 ^ 253) ≤ (2 ^ 24 - 1) * (d * 2 ^ 253) := by gcongr; omega
      have hne : n * 2 ^ 149 * 2 ≠ (2 ^ 25 - 1) * (d * 2 ^ 253) := fun heq => by
        have := htie (.inr (by omega))
        have : roundUnits n d < 2 ^ 24 - 1 := by omega
        have : (roundUnits n d + 1) * (d * 2 ^ 253) ≤ (2 ^ 24 - 1) * (d * 2 ^ 253) := by gcongr; omega
        rw [add_mul] at this
        omega
      omega
    · rw [hq] at hlo
      omega
  · have : 2 ^ 277 * d ≤ 2 ^ (ulpExp n d + 23) * d := by gcongr <;> omega
    have := hle (by omega)
    omega

/-! ### RNE32 -/

@[simp] theorem rne32_zero (d : Nat) : rne32 0 d = 0 := if_pos rfl

theorem rne32_of_ne_zero {n : ℤ} (hn : n ≠ 0) (d : Nat) :
    rne32 n d = withSign (decide (n < 0)) (roundMag n.natAbs d) := if_neg hn

theorem units_rne32 {n : ℤ} {d : Nat} (hd : 0 < d) (hfin : isFinite (rne32 n d) = true) :
    units (rne32 n d) = n.sign * (roundUnits n.natAbs d * 2 ^ ulpExp n.natAbs d) := by
  rcases eq_or_ne n 0 with rfl | hn
  · rw [Int.sign_zero, zero_mul, rne32_zero]; decide
  rw [rne32_of_ne_zero hn] at hfin ⊢
  rw [units, signBit_withSign _ ((roundMag_le ..).trans_lt (by norm_num)), mag_withSign_roundMag _ hd hfin]
  rcases hn.lt_or_gt with h | h
  · simp [h, Int.sign_eq_neg_one_of_neg h]
  · simp [h.not_gt, Int.sign_eq_one_of_pos h]

/-- A distance to n is one to its magnitude, the signs moved to the other side. -/
theorem abs_mul_sub_eq_sign {n : ℤ} (hn : n ≠ 0) (u d c : ℤ) :
    |u * d - n * c| = |n.sign * u * d - n.natAbs * c| := by
  conv_lhs => rw [← Int.sign_mul_natAbs n]
  rcases hn.lt_or_gt with h | h
  · rw [Int.sign_eq_neg_one_of_neg h, ← abs_neg]; ring_nf
  · rw [Int.sign_eq_one_of_pos h]; ring_nf

/-- `dvd_mag_or_mag_lt` for a value seen from the side of n's sign. -/
theorem dvd_or_lt_sign_mul_units (b : Binary32) (n : ℤ) (e : Nat) :
    2 ^ e ∣ n.sign * units b ∨ n.sign * units b < 2 ^ (e + 23) := by
  rcases dvd_mag_or_mag_lt b e with h | h
  · refine .inl (dvd_mul_of_dvd_right ?_ _)
    rw [← Int.dvd_natAbs, units_natAbs]
    exact_mod_cast h
  · refine .inr ?_
    calc n.sign * units b ≤ (n.sign * units b).natAbs := Int.le_natAbs
      _ ≤ mag b := by
        rw [Int.natAbs_mul, units_natAbs, Int.natAbs_sign]
        split <;> simp
      _ < 2 ^ (e + 23) := by exact_mod_cast h

theorem fracField_rne32_mod_two {n : ℤ} (hn : n ≠ 0) {d : Nat} (hfin : isFinite (rne32 n d) = true) :
    fracField (rne32 n d) % 2 = roundUnits n.natAbs d % 2 := by
  rw [rne32_of_ne_zero hn] at hfin ⊢
  rw [fracField_withSign _ ((roundMag_le ..).trans_lt (by norm_num))]
  rw [isFinite_withSign_roundMag] at hfin
  rw [roundMag_eq]
  omega

theorem rne32_nearest {n : ℤ} {d : Nat} (hd : 0 < d) (b : Binary32) (hfin : isFinite (rne32 n d) = true) :
    |units (rne32 n d) * d - n * 2 ^ 149| ≤ |units b * d - n * 2 ^ 149| ∧
    (|units (rne32 n d) * d - n * 2 ^ 149| = |units b * d - n * 2 ^ 149| → units b ≠ units (rne32 n d) →
      fracField (rne32 n d) % 2 = 0) := by
  rcases eq_or_ne n 0 with rfl | hn
  · rw [rne32_zero]
    refine ⟨?_, fun _ _ => by decide⟩
    rw [show units 0 = 0 by decide, zero_mul, zero_mul, sub_zero, abs_zero]
    exact abs_nonneg _
  have hsign : n.sign * n.sign = 1 := by
    rcases hn.lt_or_gt with h | h <;> simp [Int.sign_eq_neg_one_of_neg, Int.sign_eq_one_of_pos, h]
  obtain ⟨hle, htie⟩ := roundUnits_nearest hd (dvd_or_lt_sign_mul_units b n (ulpExp n.natAbs d))
  rw [abs_mul_sub_eq_sign hn (units b), abs_mul_sub_eq_sign hn (units (rne32 n d)), fracField_rne32_mod_two hn hfin,
    units_rne32 hd hfin, ← mul_assoc, hsign, one_mul]
  refine ⟨hle, fun heq hne => htie heq fun hu => hne ?_⟩
  rw [← hu, ← mul_assoc, hsign, one_mul]

theorem isFinite_rne32_eq_false_iff (n : ℤ) {d : Nat} (hd : 0 < d) :
    isFinite (rne32 n d) = false ↔ (2 ^ 25 - 1) * 2 ^ 103 * d ≤ n.natAbs := by
  rcases eq_or_ne n 0 with rfl | hn
  · rw [rne32_zero, show isFinite 0 = true by decide, Int.natAbs_zero]
    simp [hd.ne']
  rw [rne32_of_ne_zero hn, ← roundMag_overflow_iff hd, ← not_lt, ← isFinite_withSign_roundMag, Bool.not_eq_true]

/-- The overflow threshold of R12 with its denominators cleared. -/
theorem overflow_threshold_le_iff (n : ℤ) {d : Nat} (hd : 0 < d) :
    (2 - 1 / 2 ^ 24) * 2 ^ 127 ≤ |(n : ℚ) / d| ↔ (2 ^ 25 - 1) * 2 ^ 103 * d ≤ n.natAbs := by
  have hd' : (0 : ℚ) < d := by exact_mod_cast hd
  rw [abs_div, abs_of_pos hd', le_div_iff₀ hd', ← Int.cast_abs, Int.abs_eq_natAbs, Int.cast_natCast,
    show (2 - 1 / 2 ^ 24 : ℚ) * 2 ^ 127 = ((2 ^ 25 - 1) * 2 ^ 103 : ℕ) by norm_num]
  exact_mod_cast Iff.rfl

theorem rne32_of_not_isFinite {n : ℤ} {d : Nat} (h : isFinite (rne32 n d) = false) :
    rne32 n d = withSign (decide (n < 0)) 0x7F800000 := by
  rcases eq_or_ne n 0 with rfl | hn
  · rw [rne32_zero] at h
    exact absurd h (by decide)
  rw [rne32_of_ne_zero hn] at h ⊢
  rw [← Bool.not_eq_true, isFinite_withSign _ (roundMag_le ..), not_lt] at h
  rw [le_antisymm (roundMag_le ..) h]

/-- Settles O42: `rne32_nearest` over the common denominator, and the overflow threshold in integers. -/
theorem rne32IsRoundToNearestEven : Obligations.Rne32IsRoundToNearestEven := by
  refine ⟨fun n d b hd hfin _ => ?_, fun n d hd => ⟨?_, fun hinf => ?_⟩, rne32_zero⟩
  · have hpos : (0 : ℚ) < 2 ^ 149 * d := by positivity
    obtain ⟨hle, htie⟩ := rne32_nearest hd b hfin
    rw [abs_val_sub_div _ n hd, abs_val_sub_div _ n hd, div_le_div_iff_of_pos_right hpos, div_left_inj' hpos.ne', Int.cast_le,
      Int.cast_inj]
    exact ⟨hle, fun heq hne => htie heq fun hu => hne (by rw [val, val, hu])⟩
  · rw [isFinite_rne32_eq_false_iff n hd, overflow_threshold_le_iff n hd]
  · rw [rne32_of_not_isFinite hinf]
    exact ⟨isInf_withSign_infinity _, signBit_withSign _ (by norm_num)⟩

/-! ### The gain and its product -/

/-- Rounding keeps a magnitude of at most 1 in [-1, 1], since 1 lies on every grid used below it. -/
theorem inUnitRange_withSign_roundMag (neg : Bool) {n d : Nat} (hd : 0 < d) (h : n ≤ d) :
    InUnitRange (withSign neg (roundMag n d)) := by
  have he : ulpExp n d ≤ 126 := by
    by_contra hlt
    have hle := two_pow_ulpExp_le (n := n) hd (by omega)
    have : 2 ^ 150 * d ≤ 2 ^ (ulpExp n d + 23) * d := by gcongr <;> omega
    omega
  have hone : 2 ^ (149 - ulpExp n d) * 2 ^ ulpExp n d = 2 ^ 149 := by
    rw [← pow_add, Nat.sub_add_cancel (by omega)]
  have hq : roundUnits n d ≤ 2 ^ (149 - ulpExp n d) :=
    roundUnits_le_of_le hd (by rw [hone, mul_comm]; exact Nat.mul_le_mul_left _ h)
  have hfin : isFinite (withSign neg (roundMag n d)) = true := by
    rw [isFinite_withSign_roundMag]
    have := roundUnits_le (n := n) hd
    omega
  rw [inUnitRange_iff, mag_withSign_roundMag neg hd hfin]
  exact ⟨hfin, (Nat.mul_le_mul_right _ hq).trans hone.le⟩

theorem rne32_inUnitRange {n : ℤ} {d : Nat} (hd : 0 < d) (h : n.natAbs ≤ d) : InUnitRange (rne32 n d) := by
  rcases eq_or_ne n 0 with rfl | hn
  · rw [rne32_zero]
    exact inUnitRange_iff.2 ⟨by decide, by decide⟩
  · rw [rne32_of_ne_zero hn]
    exact inUnitRange_withSign_roundMag _ hd h

theorem mul32_of_isFinite {a b : Binary32} (ha : isFinite a = true) (hb : isFinite b = true) :
    mul32 a b = withSign (xor (signBit a) (signBit b)) (roundMag (mag a * mag b) (2 ^ 298)) := by
  rcases pattern_kinds a with ⟨-, ha1, ha2⟩ | ⟨h, -⟩ | ⟨h, -⟩
  · rcases pattern_kinds b with ⟨-, hb1, hb2⟩ | ⟨h, -⟩ | ⟨h, -⟩
    · simp only [mul32, ha1, ha2, hb1, hb2, Bool.or_self, Bool.false_eq_true, if_false]
    all_goals simp [h] at hb
  all_goals simp [h] at ha

theorem roundMag_zero {d : Nat} (hd : 0 < d) : roundMag 0 d = 0 := by
  rw [roundMag_eq, roundUnits_eq, Nat.zero_mul, divRne_zero _ (Nat.mul_pos hd (Nat.two_pow_pos _))]
  simp [ulpExp]

/-- The sign of a nonzero product is the exclusive or of the signs. -/
theorem decide_units_mul_neg {a b : Binary32} (ha : mag a ≠ 0) (hb : mag b ≠ 0) :
    decide (units a * units b < 0) = xor (signBit a) (signBit b) := by
  have hua : 0 < units a ↔ ¬signBit a = true := by have := units_eq_zero_iff.not.2 ha; rw [← units_neg_iff ha]; omega
  have hub : 0 < units b ↔ ¬signBit b = true := by have := units_eq_zero_iff.not.2 hb; rw [← units_neg_iff hb]; omega
  rw [Bool.eq_iff_iff, decide_eq_true_iff, mul_neg_iff, hua, hub, units_neg_iff ha, units_neg_iff hb]
  cases signBit a <;> cases signBit b <;> decide

/-- The patterns from 1 to that of 1.0 have their values in (0, 1], the range of GAIN in 00_scope.md R8. -/
theorem gain_pattern_range {b : Binary32} (h0 : 1 ≤ b.toNat) (h1 : b.toNat ≤ 0x3F800000) :
    isFinite b = true ∧ 0 < val b ∧ val b ≤ 1 := by
  have hE := expField_eq_toNat b
  have hF := fracField_eq_toNat b
  have hsign : signBit b = false := by rw [signBit_eq_toNat, decide_eq_false_iff_not]; omega
  have hne : mag b ≠ 0 := by
    by_cases he : expField b = 0
    · rw [mag_of_expField_eq_zero he]; omega
    · rw [mag_of_expField_ne_zero he]; positivity
  have hle : mag b ≤ 2 ^ 149 := by
    rcases h1.lt_or_eq with hlt | heq
    · exact (mag_lt_of_expField_le (e := 126) (by omega)).le
    · rw [BitVec.eq_of_toNat_eq (y := 0x3F800000#32) heq]; decide
  refine ⟨by rw [isFinite, bne_iff_ne]; omega, ?_, ?_⟩
  · rw [val_of_signBit_false hsign]; positivity
  · exact (le_abs_self _).trans (abs_val_le_one_iff.2 hle)

/-- A legal GAIN is finite, above 0 and at most 1, the unstated one too (00_scope.md R8, notes/assumptions/4). -/
theorem gainBits_range {g : Config.Gain} (h : g.legal = true) :
    isFinite (gainBits g) = true ∧ 0 < val (gainBits g) ∧ val (gainBits g) ≤ 1 := by
  cases g with
  | unstated =>
    have hn : (gainBits .unstated).toNat = Config.gainFree % 0x3F800000 + 1 := by
      rw [gainBits, BitVec.toNat_ofNat]; omega
    exact gain_pattern_range (by omega) (by omega)
  | given b =>
    simp only [Config.Gain.legal, Bool.and_eq_true, decide_eq_true_eq] at h
    exact gain_pattern_range h.1 h.2

/-- A product of two values in [-1, 1] stays there. -/
theorem mul32_inUnitRange {a b : Binary32} (ha : InUnitRange a) (hb : InUnitRange b) : InUnitRange (mul32 a b) := by
  obtain ⟨hfa, hma⟩ := inUnitRange_iff.1 ha
  obtain ⟨hfb, hmb⟩ := inUnitRange_iff.1 hb
  have hprod : mag a * mag b ≤ 2 ^ 298 := (Nat.mul_le_mul hma hmb).trans_eq (by rw [← pow_add])
  rw [mul32_of_isFinite hfa hfb]
  exact inUnitRange_withSign_roundMag _ (pow_pos two_pos _) hprod

/-- Settles O43: both sides round the same magnitude under the same sign, and 1 bounds a rounded magnitude of at most 1. -/
theorem gainProductIsRoundedAndBounded : Obligations.GainProductIsRoundedAndBounded := by
  refine ⟨fun a b ha hb hne => ⟨?_, ?_⟩, fun a b ha hb hzero => ?_, fun a g ha hg => ?_, fun _ => rfl, gainBits_range rfl⟩
  · rw [mul_ne_zero_iff, Ne, Ne, val_eq_zero_iff, val_eq_zero_iff] at hne
    obtain ⟨hma, hmb⟩ := hne
    have hprod : units a * units b ≠ 0 := mul_ne_zero (mt units_eq_zero_iff.1 hma) (mt units_eq_zero_iff.1 hmb)
    rw [mul32_of_isFinite ha hb, rne32_of_ne_zero hprod, Int.natAbs_mul, units_natAbs, units_natAbs,
      decide_units_mul_neg hma hmb]
  · rw [val, val, div_mul_div_comm, ← pow_add, Int.cast_mul, Nat.cast_pow, Nat.cast_ofNat]
  · rw [mul_eq_zero, val_eq_zero_iff, val_eq_zero_iff, ← Nat.mul_eq_zero] at hzero
    rw [mul32_of_isFinite ha hb, hzero, roundMag_zero (Nat.two_pow_pos _)]
    cases xor (signBit a) (signBit b) <;> rfl
  · obtain ⟨hfin, hpos, hle⟩ := gainBits_range hg
    exact mul32_inUnitRange ha ⟨hfin, by linarith, hle⟩

/-! ### The parameters -/

/-- The ranges of R8, with that of GAIN read by value. -/
theorem ranges_of_legal {p : Config.Params} (h : p.legal = true) :
    1 ≤ p.capMax ∧ p.capMax ≤ 2 ^ 20 ∧ 1 ≤ p.nOsc ∧ p.nOsc ≤ 16 ∧ 1 ≤ p.chMax ∧ p.chMax ≤ 2 ^ 20 - 1 ∧
      1 ≤ p.framesMax ∧ 1 ≤ p.qdepth ∧
      isFinite (gainBits p.gain) = true ∧ 0 < val (gainBits p.gain) ∧ val (gainBits p.gain) ≤ 1 := by
  simp only [Config.Params.legal, Bool.and_eq_true, decide_eq_true_eq, and_assoc] at h
  obtain ⟨hcap0, hcap1, hosc0, hosc1, hch0, hch1, hframes, hqdepth, hgain⟩ := h
  exact ⟨hcap0, hcap1, hosc0, hosc1, hch0, hch1, hframes, hqdepth, gainBits_range hgain⟩

theorem step_of_not_legal {s : State} (h : ¬s.cfg.legal = true) : step s = .refused .illegalConfiguration := if_neg h

theorem Completes.cfg_eq {i : Instr} {s t : State} (h : Completes i s t) : t.cfg = s.cfg :=
  (congrArg State.cfg h.frame).trans rfl

theorem Did.cfg_eq {turn : Turn} {u t : State} (h : Did turn u t) : t.cfg = u.cfg := by
  cases h with
  | completed _ x w ws i _ _ _ hc => simpa using hc.cfg_eq
  | nothing | raised | burst | issued | answered | wroteFrame | fault | reset => simp

theorem step_cfg_eq {s t : State} (h : step s = .next t) : t.cfg = s.cfg := by
  obtain ⟨-, ⟨-, rfl⟩ | ⟨turn, rest, -, hdid⟩⟩ := step_did h
  · rfl
  · exact hdid.cfg_eq

/-- Settles O28: `step` answers only in a legal configuration, and no turn touches the parameters. -/
theorem parametersAreLegalAndNeverChange : Obligations.ParametersAreLegalAndNeverChange :=
  ⟨fun _ hbad => step_of_not_legal fun hlegal => hbad (ranges_of_legal hlegal), fun _ _ => step_cfg_eq⟩

end Sys2Proof.Machine
end

section
/-! The machine invariant (10_state.md R25, R30, R32, R35; 42_bridge.md R157, R159): each operation of the state keeps it, so every step
does (O49, O50). -/

namespace Sys2Proof.Machine

open Sys2Proof

variable {s t u : State}

/-! ### The sequences of the history -/

@[simp] theorem ctlSamples_append (h k : List Event) : ctlSamples (h ++ k) = ctlSamples h ++ ctlSamples k :=
  List.filterMap_append
@[simp] theorem ctlSamples_command (w : Command) (oc : CommandOutcome) : ctlSamples [.command w oc] = [] := rfl
@[simp] theorem ctlSamples_ctlSample (v : Binary32) : ctlSamples [.ctlSample v] = [v] := rfl
@[simp] theorem ctlSamples_rndSample (v : Binary32) : ctlSamples [.rndSample v] = [] := rfl
@[simp] theorem ctlSamples_burstDone (n : Nat) : ctlSamples [.burstDone n] = [] := rfl
@[simp] theorem ctlSamples_fault (f : FaultCode) : ctlSamples [.fault f] = [] := rfl

@[simp] theorem rndSamples_append (h k : List Event) : rndSamples (h ++ k) = rndSamples h ++ rndSamples k :=
  List.filterMap_append
@[simp] theorem rndSamples_command (w : Command) (oc : CommandOutcome) : rndSamples [.command w oc] = [] := rfl
@[simp] theorem rndSamples_ctlSample (v : Binary32) : rndSamples [.ctlSample v] = [] := rfl
@[simp] theorem rndSamples_rndSample (v : Binary32) : rndSamples [.rndSample v] = [v] := rfl
@[simp] theorem rndSamples_burstDone (n : Nat) : rndSamples [.burstDone n] = [] := rfl
@[simp] theorem rndSamples_fault (f : FaultCode) : rndSamples [.fault f] = [] := rfl

theorem ctlSamples_finishBurst (s : State) : ctlSamples s.finishBurst.hist = ctlSamples s.hist := by
  rw [finishBurst_hist]; split <;> simp

theorem rndSamples_finishBurst (s : State) : rndSamples s.finishBurst.hist = rndSamples s.hist := by
  rw [finishBurst_hist]; split <;> simp

/-! ### Operands -/

/-- A decoded command's operands fit their fields, since they are the word's own fields (30_encoding.md R81). -/
theorem wf_of_decode_eq_ok {w : Command} {i : Instr} (h : decode w = .ok i) : i.wf = true := by
  obtain ⟨o, -, rfl⟩ := (decode_eq_ok_iff w i).1 h
  have hsel : fitsSel (selField w).toNat = true := decide_eq_true (selField w).isLt
  have hb : fitsB (bField w).toNat = true := decide_eq_true (bField w).isLt
  have ha : fitsA (aField w).toNat = true := decide_eq_true (aField w).isLt
  cases o <;> simp only [Opcode.build, Instr.wf, hsel, hb, ha, Bool.and_self]

theorem toNat_freqOperand {a : Nat} (h : a < 2 ^ 32) : (freqOperand a).toNat = a := (BitVec.toNat_ofNat ..).trans (Nat.mod_eq_of_lt h)

theorem toNat_rateOperand {b : Nat} (h : b < 2 ^ 20) : (rateOperand b).toNat = b := (BitVec.toNat_ofNat ..).trans (Nat.mod_eq_of_lt h)

theorem toNat_channelOperand {b : Nat} (h : b < 2 ^ 20) : (channelOperand b).toNat = b := (BitVec.toNat_ofNat ..).trans (Nat.mod_eq_of_lt h)

theorem FaultCode.code_ne_zero (f : FaultCode) : f.code ≠ 0 := by cases f <;> decide

/-! ### The generators' range -/

/-- The fixed-point sine is at most 1, since each quadrant's series is cut off there. -/
theorem natAbs_sineApprox_le (c i : Nat) : (sineApprox c i).natAbs ≤ sineOne := by
  have hsin (x : Nat) : sinFix x ≤ sineOne := min_le_right ..
  have hcos (x : Nat) : cosFix x ≤ sineOne := min_le_right ..
  unfold sineApprox
  dsimp only
  split <;> simp only [Int.natAbs_neg, Int.natAbs_natCast, hsin, hcos]

theorem sineRounded_inUnitRange (c i : Nat) : InUnitRange (sineRounded c i) :=
  rne32_inUnitRange (Nat.two_pow_pos _) (natAbs_sineApprox_le c i)

theorem sineRom_inUnitRange (rom : Config.SineRom) (c i : Nat) : InUnitRange (sineRom rom c i) := by
  cases rom with
  | rounded => exact sineRounded_inUnitRange c i
  | other =>
    unfold sineRom
    dsimp only
    split
    · next h =>
      simp only [sineAllowed, Bool.and_eq_true, decide_eq_true_eq] at h
      exact inUnitRange_iff.2 h.1
    · exact sineRounded_inUnitRange c i

theorem sawRom_inUnitRange {c : Nat} (hc : 0 < c) (i : Nat) : InUnitRange (sawRom c i) := by
  have hmod : (2 * i + c) % (2 * c) < 2 * c := Nat.mod_lt _ (by omega)
  exact rne32_inUnitRange hc (by omega)

/-- Either generator's every entry is finite and in [-1, 1] (40_wavetable.md R106). -/
theorem romEntry_inUnitRange (rom : Config.SineRom) (g : Generator) {c : Nat} (hc : 0 < c) (i : Nat) :
    InUnitRange (romEntry rom g c i) := by
  cases g with
  | sine => exact sineRom_inUnitRange rom c i
  | saw => exact sawRom_inUnitRange hc i

/-! ### The table -/

/-- The table invariant speaks of CAP, TLEN, the entries and the parameters only. -/
theorem TableInv.congr (h : TableInv s) (hcap : t.cap = s.cap := by simp) (htlen : t.tlen = s.tlen := by simp)
    (htable : t.table = s.table := by simp) (hcfg : t.cfg = s.cfg := by simp) : TableInv t := by
  constructor
  · rw [hcap, hcfg]; exact h.capBound
  · rw [htlen, hcap]; exact h.lenZeroOrCap
  · rw [htlen, htable]; exact h.entries
  · rw [htlen, htable]; exact h.othersNone

theorem TableInv.tlen_eq_zero (h : TableInv s) (hne : s.tlen ≠ s.cap) : s.tlen = 0 :=
  h.lenZeroOrCap.resolve_right hne

theorem TableInv.inUnitRange_of_readEntry (h : TableInv s) {i : Nat} {v : Binary32} (hv : s.table.readEntry i = some v) :
    InUnitRange v := by
  rcases Nat.lt_or_ge i s.tlen with hi | hi
  · obtain ⟨v', hv', hrange⟩ := h.entries i hi
    rw [hv] at hv'
    cases hv'
    exact hrange
  · rw [h.othersNone i hi] at hv
    cases hv

/-- TFILL (40_wavetable.md R108): the entries below CAP are the generator's, and none stood above TLEN = 0. -/
theorem TableInv.fill (h : TableInv s) (g : Generator) (hcap : s.cap ≠ 0) (hne : s.tlen ≠ s.cap) :
    TableInv { s with table := s.table.fillEntries (romEntries s.cfg.sineRom g s.cap), tlen := s.cap } := by
  refine ⟨h.capBound, .inr rfl, fun i hi => ?_, fun i hi => ?_⟩
  · exact ⟨_, Memory.readEntry_fillEntries _ _ _ (romEntry s.cfg.sineRom g s.cap i) (by simp [romEntries, List.getElem?_range hi]),
      romEntry_inUnitRange _ _ (Nat.pos_of_ne_zero hcap) _⟩
  · have hlen : (romEntries s.cfg.sineRom g s.cap).length = s.cap := by simp [romEntries]
    exact (Memory.readEntry_fillEntries_above _ _ _ (hlen.trans_le hi)).trans
      (h.othersNone i (by rw [h.tlen_eq_zero hne]; exact i.zero_le))

/-! ### The slots -/

@[simp] theorem advance_freq (sl : Slot) (cap : Nat) : (sl.advance cap).freq = sl.freq := rfl
@[simp] theorem advance_rate (sl : Slot) (cap : Nat) : (sl.advance cap).rate = sl.rate := rfl

theorem unitsPerEntry_pos {sl : Slot} (h : 1 ≤ sl.rate.toNat) : 0 < sl.unitsPerEntry := Nat.mul_pos h (Nat.two_pow_pos _)

theorem modulus_pos {sl : Slot} {cap : Nat} (hcap : cap ≠ 0) (h : 1 ≤ sl.rate.toNat) : 0 < sl.modulus cap :=
  Nat.mul_pos (Nat.pos_of_ne_zero hcap) (unitsPerEntry_pos h)

/-- The lookup address of a phase below M lies in the table (41_oscillator.md R131). -/
theorem address_lt {sl : Slot} {cap : Nat} (hphase : sl.phase < sl.modulus cap) : sl.address < cap :=
  Nat.div_lt_of_lt_mul (by rwa [Nat.mul_comm])

/-- What a place of the slots holds after a write was written or stood there. -/
theorem slot_setSlot_eq_some {o p : Nat} {sl sl' : Slot} (h : (s.setSlot o sl).slot p = some sl') :
    sl' = sl ∨ s.slot p = some sl' := by
  rcases eq_or_ne o p with rfl | hne
  · have hlt : o < s.slots.length := by simpa using lt_length_of_slot _ h
    rw [slot_setSlot_same _ _ hlt] at h
    exact .inl (Option.some.inj h).symm
  · rw [slot_setSlot_other _ _ hne] at h
    exact .inr h

/-- A write of a slot clears no OV (41_oscillator.md R139). -/
theorem ov_setSlot {p : Nat} (h : s.ov p = true) (o : Nat) (sl : Slot) : (s.setSlot o sl).ov p = true := by
  rcases eq_or_ne o p with rfl | hne
  · obtain ⟨sl₀, h₀⟩ := Option.isSome_iff_exists.1 h
    rw [State.ov, slot_setSlot_same _ _ (lt_length_of_slot _ h₀)]
    rfl
  · rwa [State.ov, slot_setSlot_other _ _ hne]

theorem ov_congr (h : t.slots = s.slots) (o : Nat) : t.ov o = s.ov o := by rw [State.ov, State.ov, slot_congr h]

theorem SlotInv.congr (h : SlotInv s) (hslots : t.slots = s.slots := by simp) (hcap : t.cap = s.cap := by simp)
    (htlen : t.tlen = s.tlen := by simp) (hcfg : t.cfg = s.cfg := by simp) : SlotInv t := by
  constructor
  · rw [hslots, hcfg]; exact h.count
  · intro o sl hsl
    rw [hcap, htlen]
    exact h.live o sl (by rwa [← slot_congr hslots])

/-- Where the table is not filled no slot is live, so CAP and TLEN may change freely. -/
theorem SlotInv.of_not_filled (h : SlotInv s) (hn : ¬(s.cap ≠ 0 ∧ s.tlen = s.cap)) (hslots : t.slots = s.slots)
    (hcfg : t.cfg = s.cfg) : SlotInv t := by
  constructor
  · rw [hslots, hcfg]; exact h.count
  · intro o sl hsl
    rw [slot_congr hslots] at hsl
    obtain ⟨hcap, hfull, -⟩ := h.live o sl hsl
    exact absurd ⟨hcap, hfull⟩ hn

theorem SlotInv.setSlot (h : SlotInv s) {o : Nat} {sl : Slot}
    (hsl : s.cap ≠ 0 ∧ s.tlen = s.cap ∧ 1 ≤ sl.freq.toNat ∧ 1 ≤ sl.rate.toNat ∧ sl.phase < sl.modulus s.cap) :
    SlotInv (s.setSlot o sl) := by
  constructor
  · simpa using h.count
  · intro p sl' hsl'
    rcases slot_setSlot_eq_some hsl' with rfl | hsl'
    · exact hsl
    · exact h.live p sl' hsl'

/-- A live slot's table entry holds a value. -/
theorem exists_entry_of_slot (ht : TableInv s) (hs : SlotInv s) {o : Nat} {sl : Slot} (hsl : s.slot o = some sl) :
    ∃ a, s.table.readEntry sl.address = some a := by
  obtain ⟨-, hfull, -, -, hphase⟩ := hs.live o sl hsl
  obtain ⟨a, ha, -⟩ := ht.entries sl.address (by rw [hfull]; exact address_lt hphase)
  exact ⟨a, ha⟩

/-! ### The stream, the bridge, the fault registers -/

/-- A stream keeps its invariant as long as its configuration stays and slot 0 stays live. -/
theorem StreamInv.of_ov (h : StreamInv s) (hov : s.ov 0 = true → t.ov 0 = true) (hstream : t.stream = s.stream)
    (hcfg : t.cfg = s.cfg) : StreamInv t := by
  intro st hst
  rw [hstream] at hst
  obtain ⟨hlive, hch⟩ := h st hst
  exact ⟨hov hlive, by rwa [hcfg]⟩

theorem StreamInv.congr (h : StreamInv s) (hslots : t.slots = s.slots := by simp) (hstream : t.stream = s.stream := by simp)
    (hcfg : t.cfg = s.cfg := by simp) : StreamInv t :=
  h.of_ov (by rw [ov_congr hslots]; exact id) hstream hcfg

theorem BridgeInv.congr (h : BridgeInv s) (hbact : t.bact = s.bact := by simp)
    (hsen : s.sen = true → t.sen = true := by simp [State.sen])
    (hbpos : t.bpos = s.bpos := by simp) (hbn : t.bn = s.bn := by simp) (hreqq : t.reqq = s.reqq := by simp)
    (hrespq : t.respq = s.respq := by simp) (hpend : t.pend = s.pend := by simp) (hcfg : t.cfg = s.cfg := by simp)
    (hctl : ctlSamples t.hist = ctlSamples s.hist := by simp) (hrnd : rndSamples t.hist = rndSamples s.hist := by simp) :
    BridgeInv t := by
  constructor
  · rw [hbact, hbpos, hbn, hreqq, hrespq, hpend, hcfg]
    exact fun hb => (h.active hb).imp_left hsen
  · rw [hbact, hreqq, hrespq, hpend]; exact h.idle
  · rw [hctl, hrnd, hrespq]; exact h.paired

/-- A request in the queue is the one message of a burst that is being filled (42_bridge.md R159). -/
theorem BridgeInv.of_reqq_pos (h : BridgeInv s) (hpos : 0 < s.reqq) :
    s.bact = true ∧ s.pend = true ∧ s.reqq = 1 ∧ s.respq = [] := by
  have hbact : s.bact = true := by
    by_contra hb
    have := (h.idle (by simpa using hb)).1
    omega
  obtain ⟨-, -, -, hone⟩ := h.active hbact
  split at hone
  · next hpend => exact ⟨hbact, hpend, by omega, List.length_eq_zero_iff.1 (by omega)⟩
  · omega

/-- An active burst has a stream, so slot 0 is live. -/
theorem Inv.stream_of_bact (h : Inv s) (hb : s.bact = true) : ∃ st, s.stream = some st ∧ s.ov 0 = true := by
  obtain ⟨hsen, -⟩ := h.bridge.active hb
  obtain ⟨st, hst⟩ := Option.isSome_iff_exists.1 hsen
  exact ⟨st, hst, (h.stream st hst).1⟩

theorem FaultInv.congr (h : FaultInv s) (hhalted : t.halted = s.halted := by simp) (hfault : t.fault = s.fault := by simp) :
    FaultInv t := by
  constructor
  · rw [hhalted, hfault]; exact h.haltedIff
  · rw [hfault]; exact h.known

theorem FaultInv.fault_eq_zero_iff (h : FaultInv s) : s.fault = 0 ↔ s.halted = false := by
  rw [← Bool.not_eq_true, h.haltedIff, not_not]

theorem raise_fault_of_eq_zero (h : s.fault = 0) (f : FaultCode) : (s.raise f).fault = f.code := if_pos h

theorem raise_fault_of_ne_zero (h : s.fault ≠ 0) (f : FaultCode) : (s.raise f).fault = s.fault := if_neg h

theorem FaultInv.raise (h : FaultInv s) (f : FaultCode) : FaultInv (s.raise f) := by
  rcases eq_or_ne s.fault 0 with h0 | h0
  · have hf := raise_fault_of_eq_zero h0 f
    exact ⟨iff_of_true rfl (by rw [hf]; exact f.code_ne_zero), .inr ⟨f, hf⟩⟩
  · have hf := raise_fault_of_ne_zero h0 f
    exact ⟨iff_of_true rfl (by rwa [hf]), by rw [hf]; exact h.known⟩

theorem SamplesInv.congr (h : SamplesInv s) (hrespq : t.respq = s.respq := by simp) : SamplesInv t := by
  rw [SamplesInv, hrespq]; exact h

theorem SpacesInv.congr (h : SpacesInv s) (htable : t.table = s.table := by simp) (hout : t.out = s.out := by simp) :
    SpacesInv t := by
  rw [SpacesInv, htable, hout]; exact h

/-! ### When the agents' steps are enabled -/

theorem burstEnabled_iff {n : Nat} :
    s.burstEnabled n = true ↔ s.halted = false ∧ s.sen = true ∧ s.bact = false ∧ 1 ≤ n ∧ n ≤ s.cfg.framesMax := by
  simp only [State.burstEnabled, Bool.and_eq_true, Bool.not_eq_true', decide_eq_true_eq, and_assoc]

theorem issueEnabled_iff :
    s.issueEnabled = true ↔ s.halted = false ∧ s.bact = true ∧ s.pend = false ∧ s.reqq < s.cfg.qdepth := by
  simp only [State.issueEnabled, State.reqRoom, Bool.and_eq_true, Bool.not_eq_true', decide_eq_true_eq, and_assoc]

theorem controlEnabled_iff :
    s.controlEnabled = true ↔ s.halted = false ∧ 0 < s.reqq ∧ s.respq.length < s.cfg.qdepth := by
  simp only [State.controlEnabled, State.respRoom, Bool.and_eq_true, Bool.not_eq_true', decide_eq_true_eq, and_assoc]

theorem frameEnabled_iff :
    s.frameEnabled = true ↔ s.halted = false ∧ s.bact = true ∧ s.pend = true ∧ s.respq ≠ [] := by
  simp only [State.frameEnabled, Bool.and_eq_true, Bool.not_eq_true', List.isEmpty_eq_false_iff, and_assoc]

/-! ### Every operation keeps the machine invariant -/

/-- RES, the host's and the device's lists and the schedule are no part of the invariant. -/
theorem Inv.of_bookkeeping (h : Inv s) (res : BitVec 64) (prog : List Command) (pc : Nat) (bursts : List Nat)
    (sched : List Turn) : Inv { s with res := res, prog := prog, pc := pc, bursts := bursts, sched := sched } :=
  ⟨h.table.congr, h.slots.congr, h.stream.congr, h.bridge.congr, h.fault.congr, h.spaces.congr, h.samples.congr⟩

theorem Inv.setRes (h : Inv s) (v : BitVec 64) : Inv (s.setRes v) := h.of_bookkeeping ..

theorem Inv.takeWord (h : Inv s) (ws : List Command) : Inv (s.takeWord ws) := h.of_bookkeeping ..

/-- The event of a command is no sample. -/
theorem Inv.emit_command (h : Inv s) (w : Command) (oc : CommandOutcome) : Inv (s.emit (.command w oc)) :=
  ⟨h.table.congr, h.slots.congr, h.stream.congr, h.bridge.congr, h.fault.congr, h.spaces.congr, h.samples.congr⟩

theorem Inv.raise (h : Inv s) (f : FaultCode) : Inv (s.raise f) :=
  ⟨h.table.congr, h.slots.congr, h.stream.congr, h.bridge.congr, h.fault.raise f, h.spaces.congr, h.samples.congr⟩

theorem slot_assertReset (s : State) (o : Nat) : s.assertReset.slot o = none := by
  rw [State.slot, assertReset_slots, List.getD_eq_getElem?_getD, List.getElem?_replicate]
  split <;> rfl

/-- Every register at its reset value meets the invariant, whatever the state was; of the state before, OUT alone is kept. -/
theorem inv_assertReset (hout : s.out.wf) : Inv s.assertReset where
  table := ⟨Nat.zero_le _, .inl rfl, fun _ hi => absurd hi (Nat.not_lt_zero _), fun _ _ => rfl⟩
  slots := ⟨List.length_replicate, fun o sl hsl => by simp [slot_assertReset] at hsl⟩
  stream := fun _ hst => by cases hst
  bridge := ⟨fun hb => absurd hb (by simp), fun _ => ⟨rfl, rfl, rfl⟩, rfl⟩
  fault := ⟨by simp, .inl rfl⟩
  spaces := ⟨List.Pairwise.nil, hout⟩
  samples := fun _ hv => by cases hv

/-- TNEW: no table existed, so nothing was filled and no slot was live. -/
theorem Inv.createTable (h : Inv s) {cap : Nat} (hmax : cap ≤ s.cfg.capMax) (hnone : s.cap = 0) :
    Inv { s with cap := cap, tlen := 0 } where
  table := by
    have htlen : s.tlen = 0 := by have := h.table.lenZeroOrCap; omega
    exact ⟨hmax, .inl rfl, fun _ hi => absurd hi (Nat.not_lt_zero _),
      fun i _ => h.table.othersNone i (by rw [htlen]; exact i.zero_le)⟩
  slots := h.slots.of_not_filled (fun hf => hf.1 hnone) rfl rfl
  stream := h.stream.congr
  bridge := h.bridge.congr
  fault := h.fault.congr
  spaces := h.spaces.congr
  samples := h.samples.congr

theorem Inv.fillTable (h : Inv s) (g : Generator) (hcap : s.cap ≠ 0) (hne : s.tlen ≠ s.cap) :
    Inv { s with table := s.table.fillEntries (romEntries s.cfg.sineRom g s.cap), tlen := s.cap } where
  table := h.table.fill g hcap hne
  slots := h.slots.of_not_filled (fun hf => hne hf.2) rfl rfl
  stream := h.stream.congr
  bridge := h.bridge.congr
  fault := h.fault.congr
  spaces := ⟨Memory.fillEntries_wf h.spaces.1 _, h.spaces.2⟩
  samples := h.samples.congr

theorem Inv.setSlot (h : Inv s) (o : Nat) {sl : Slot}
    (hsl : s.cap ≠ 0 ∧ s.tlen = s.cap ∧ 1 ≤ sl.freq.toNat ∧ 1 ≤ sl.rate.toNat ∧ sl.phase < sl.modulus s.cap) :
    Inv (s.setSlot o sl) where
  table := h.table.congr
  slots := h.slots.setSlot hsl
  stream := h.stream.of_ov (fun hov => ov_setSlot hov o sl) rfl rfl
  bridge := h.bridge.congr
  fault := h.fault.congr
  spaces := h.spaces.congr
  samples := h.samples.congr

/-- OINIT starts a slot at phase 0, below a modulus that is positive. -/
theorem Inv.initSlot (h : Inv s) (o : Nat) {freq sr : Nat} (hcap : s.cap ≠ 0) (hfull : s.tlen = s.cap) (hf : freq ≠ 0)
    (hf' : freq < 2 ^ 32) (hr : sr ≠ 0) (hr' : sr < 2 ^ 20) :
    Inv (s.setSlot o { freq := freqOperand freq, rate := rateOperand sr, phase := 0 }) := by
  have hrate : 1 ≤ (rateOperand sr).toNat := by rw [toNat_rateOperand hr']; omega
  refine h.setSlot o ⟨hcap, hfull, ?_, hrate, modulus_pos hcap hrate⟩
  show 1 ≤ (freqOperand freq).toNat
  rw [toNat_freqOperand hf']
  omega

/-- OFREQ keeps the phase and the modulus, which does not depend on the frequency. -/
theorem Inv.setFreq (h : Inv s) {o freq : Nat} {sl : Slot} (hsl : s.slot o = some sl) (hf : freq ≠ 0) (hf' : freq < 2 ^ 32) :
    Inv (s.setSlot o { sl with freq := freqOperand freq }) := by
  obtain ⟨hcap, hfull, -, hrate, hphase⟩ := h.slots.live o sl hsl
  refine h.setSlot o ⟨hcap, hfull, ?_, hrate, hphase⟩
  show 1 ≤ (freqOperand freq).toNat
  rw [toNat_freqOperand hf']
  omega

/-- `oscStep` leaves the phase reduced modulo M (41_oscillator.md R133). -/
theorem Inv.advanceSlot (h : Inv s) {o : Nat} {sl : Slot} (hsl : s.slot o = some sl) :
    Inv (s.setSlot o (sl.advance s.cap)) := by
  obtain ⟨hcap, hfull, hfreq, hrate, -⟩ := h.slots.live o sl hsl
  exact h.setSlot o ⟨hcap, hfull, hfreq, hrate, Nat.mod_lt _ (modulus_pos hcap hrate)⟩

theorem Inv.startStream (h : Inv s) (hl : s.cfg.legal = true) (f : Format) {ch : Nat} (hch : ch ≠ 0) (hmax : ch ≤ s.cfg.chMax)
    (hov : s.ov 0 = true) : Inv { s with stream := some { fmt := f, ch := channelOperand ch } } where
  table := h.table.congr
  slots := h.slots.congr
  stream := by
    obtain ⟨-, -, -, -, -, hchMax, -⟩ := ranges_of_legal hl
    intro st hst
    cases hst
    simp only [toNat_channelOperand (show ch < 2 ^ 20 by omega)]
    exact ⟨hov, by omega, hmax⟩
  bridge := h.bridge.congr (hsen := fun _ => rfl)
  fault := h.fault.congr
  spaces := h.spaces.congr
  samples := h.samples.congr

/-- Every command that completes keeps the invariant; its operands are those of a decoded word. -/
theorem Completes.inv {i : Instr} (hc : Completes i s t) (hwf : i.wf = true) (hl : s.cfg.legal = true) (h : Inv s) : Inv t := by
  cases i with
  | tnew cap =>
    obtain ⟨-, hmax, hnone, rfl⟩ := hc
    exact h.createTable hmax hnone
  | tfill gen =>
    obtain ⟨g, -, hcap, hne, rfl⟩ := hc
    exact h.fillTable g hcap hne
  | tlen =>
    obtain ⟨-, rfl⟩ := hc
    exact h.setRes _
  | tread index =>
    obtain ⟨-, -, v, -, rfl⟩ := hc
    exact h.setRes _
  | oinit o freq sr =>
    obtain ⟨-, hf, hr, hcap, hfull, -, rfl⟩ := hc
    simp only [Instr.wf, fitsSel, fitsA, fitsB, Bool.and_eq_true, decide_eq_true_eq] at hwf
    obtain ⟨⟨-, hf'⟩, hr'⟩ := hwf
    exact h.initSlot o hcap hfull hf hf' hr hr'
  | ofreq o freq =>
    obtain ⟨-, hf, sl, hsl, rfl⟩ := hc
    simp only [Instr.wf, fitsSel, fitsA, Bool.and_eq_true, decide_eq_true_eq] at hwf
    obtain ⟨-, hf'⟩ := hwf
    exact h.setFreq hsl hf hf'
  | ostep o =>
    obtain ⟨-, -, sl, a, hsl, -, rfl⟩ := hc
    exact (h.advanceSlot hsl).setRes _
  | sstart fmt ch =>
    obtain ⟨f, -, hch, hmax, -, hov, rfl⟩ := hc
    exact h.startStream hl f hch hmax hov
  | qconv fmt value =>
    obtain ⟨f, q, -, -, rfl⟩ := hc
    exact h.setRes _

/-- An accepted burst request: nothing was outstanding, and the burst has a first frame to fill (42_bridge.md R153). -/
theorem Inv.beginBurst (h : Inv s) {n : Nat} (he : s.burstEnabled n = true) : Inv (s.beginBurst n) := by
  obtain ⟨-, hsen, hbact, hpos, hmax⟩ := burstEnabled_iff.1 he
  obtain ⟨hreqq, hrespq, hpend⟩ := h.bridge.idle hbact
  exact
    { table := h.table.congr
      slots := h.slots.congr
      stream := h.stream.congr
      bridge := ⟨fun _ => ⟨hsen, hpos, hmax, by simp [hreqq, hrespq, hpend]⟩, fun hb => absurd hb (by simp), h.bridge.paired⟩
      fault := h.fault.congr
      spaces := ⟨h.spaces.1, List.Pairwise.nil⟩
      samples := h.samples.congr }

/-- A sample in [-1, 1] times a legal GAIN stays there (42_bridge.md R157). -/
theorem attenuate_inUnitRange (hl : s.cfg.legal = true) {a : Binary32} (ha : InUnitRange a) : InUnitRange (s.attenuate a) := by
  obtain ⟨-, -, -, -, -, -, -, -, hfin, hpos, hle⟩ := ranges_of_legal hl
  exact mul32_inUnitRange ha ⟨hfin, by linarith, hle⟩

/-- The issue step turns the missing request into one in the queue (42_bridge.md R154, R159). -/
theorem Inv.issue (h : Inv s) (he : s.issueEnabled = true) : Inv { s with reqq := s.reqq + 1, pend := true } := by
  obtain ⟨-, hbact, hpend, -⟩ := issueEnabled_iff.1 he
  obtain ⟨hsen, hbpos, hbn, hone⟩ := h.bridge.active hbact
  simp only [hpend, Bool.false_eq_true, if_false] at hone
  have hnone : s.reqq = 0 ∧ s.respq.length = 0 := by omega
  exact
    { table := h.table.congr
      slots := h.slots.congr
      stream := h.stream.congr
      bridge := ⟨fun _ => ⟨hsen, hbpos, hbn, by simp [hnone]⟩, fun hb => by simp [hbact] at hb, h.bridge.paired⟩
      fault := h.fault.congr
      spaces := h.spaces.congr
      samples := h.samples.congr }

/-- The control step's bridge side: a request leaves its queue and the sample that answers it enters the other (42_bridge.md R157). -/
theorem Inv.answer (h : Inv s) (hpos : 0 < s.reqq) {v : Binary32} (hv : InUnitRange v) :
    Inv (({ s with reqq := s.reqq - 1, respq := s.respq ++ [v] } : State).emit (.ctlSample v)) := by
  obtain ⟨hbact, hpend, hreqq, hrespq⟩ := h.bridge.of_reqq_pos hpos
  obtain ⟨hsen, hbpos, hbn, -⟩ := h.bridge.active hbact
  exact
    { table := h.table.congr
      slots := h.slots.congr
      stream := h.stream.congr
      bridge :=
        ⟨fun _ => ⟨hsen, hbpos, hbn, by simp [hreqq, hrespq, hpend]⟩, fun hb => by simp [hbact] at hb,
          by simp [h.bridge.paired]⟩
      fault := h.fault.congr
      spaces := h.spaces.congr
      samples := fun x hx => by
        rcases List.mem_append.1 hx with hx | hx
        · exact h.samples x hx
        · rw [List.mem_singleton.1 hx]; exact hv }

/-- The frame step takes the one message there is and writes its frame; the burst goes on below BN or ends (42_bridge.md R155, R156). -/
theorem Inv.receiveFrame (h : Inv s) (he : s.frameEnabled = true) {v : Binary32} {later : List Binary32} (hr : s.respq = v :: later)
    (st : Stream) (q : BitVec 64) :
    Inv ((({ s with respq := later } : State).emit (.rndSample v)).writeFrame st q).finishBurst := by
  obtain ⟨-, hbact, hpend, -⟩ := frameEnabled_iff.1 he
  obtain ⟨hsen, hbpos, hbn, hone⟩ := h.bridge.active hbact
  simp only [hr, List.length_cons, hpend, if_true] at hone
  have hreqq : s.reqq = 0 := by omega
  obtain rfl : later = [] := List.length_eq_zero_iff.1 (by omega)
  exact
    { table := h.table.congr
      slots := h.slots.congr
      stream := h.stream.congr
      bridge := by
        constructor
        · intro hb
          have hne : s.bpos + 1 ≠ s.bn := fun heq => by simp [heq] at hb
          have hlt : s.bpos + 1 < s.bn := by omega
          exact ⟨by simpa [State.sen] using hsen, by simpa using hlt, by simpa using hbn, by simp [hreqq]⟩
        · intro _
          simp [hreqq]
        · rw [ctlSamples_finishBurst, rndSamples_finishBurst]
          simpa [hr] using h.bridge.paired
      fault := h.fault.congr
      spaces := by
        constructor
        · simpa using h.spaces.1
        · simpa using Memory.replicateSlot_wf h.spaces.2 _ _ _ _
      samples := fun x hx => by simp at hx }

/-- What one turn does keeps the invariant. -/
theorem Did.inv {turn : Turn} (hd : Did turn u t) (hl : u.cfg.legal = true) (h : Inv u) : Inv t := by
  cases hd with
  | nothing => exact h
  | raised _ w ws f => exact ((h.takeWord ws).raise f).emit_command ..
  | completed _ x w ws i _ _ hdec hc => exact (hc.inv (wf_of_decode_eq_ok hdec) hl (h.takeWord ws)).emit_command ..
  | burst _ n later _ he => exact (h.of_bookkeeping u.res u.prog u.pc later u.sched).beginBurst he
  | issued _ he => exact h.issue he
  | answered _ sl a he hsl ha =>
    obtain ⟨-, hpos, -⟩ := controlEnabled_iff.1 he
    exact (h.advanceSlot hsl).answer hpos (attenuate_inUnitRange hl (h.table.inUnitRange_of_readEntry ha))
  | wroteFrame _ v later st q he hr => exact h.receiveFrame he hr st q
  | fault _ _ f => exact h.raise f
  | reset => exact inv_assertReset h.spaces.2

/-- Settles O49: the state after reset is a reset of itself. -/
theorem invariantHoldsAtReset : Obligations.InvariantHoldsAtReset :=
  inv_assertReset (s := State.reset) List.Pairwise.nil

/-- Settles O50: taking the turn off the schedule keeps the invariant, and so does each thing the turn can do. -/
theorem everyStepKeepsTheInvariant : Obligations.EveryStepKeepsTheInvariant := by
  intro s t h hstep
  obtain ⟨hl, ⟨-, rfl⟩ | ⟨turn, rest, -, hd⟩⟩ := step_did hstep
  · exact h
  · exact hd.inv hl (h.of_bookkeeping s.res s.prog s.pc s.bursts rest)

end Sys2Proof.Machine
end

section
/-! Under the machine invariant no stop of the model is met (O51). -/

namespace Sys2Proof.Machine

open Sys2Proof

variable {s t u : State}

/-! ### No stop is met -/

/-- TREAD reads below TLEN only, where every entry holds a value (20_memory.md R62). -/
theorem execTread_answers (h : TableInv s) (index : Nat) : ∃ t, execTread index s = .next t := by
  unfold execTread
  split
  · exact ⟨_, rfl⟩
  split
  · exact ⟨_, rfl⟩
  next hlt =>
  obtain ⟨v, hv, -⟩ := h.entries index (Nat.lt_of_not_le hlt)
  rw [hv]
  exact ⟨_, rfl⟩

/-- `oscStep` of a live slot finds its table entry (10_state.md R32). -/
theorem exists_oscStep (ht : TableInv s) (hs : SlotInv s) {o : Nat} {sl : Slot} (hsl : s.slot o = some sl) :
    ∃ a, s.oscStep sl = some (a, sl.advance s.cap) := by
  obtain ⟨a, ha⟩ := exists_entry_of_slot ht hs hsl
  exact ⟨a, oscStep_eq_some.2 ⟨ha, rfl⟩⟩

theorem execOstep_answers (ht : TableInv s) (hs : SlotInv s) (o : Nat) : ∃ t, execOstep o s = .next t := by
  unfold execOstep
  split
  · exact ⟨_, rfl⟩
  split
  · exact ⟨_, rfl⟩
  next sl hsl =>
  split
  · exact ⟨_, rfl⟩
  obtain ⟨a, ha⟩ := exists_oscStep ht hs hsl
  rw [ha]
  exact ⟨_, rfl⟩

/-- Only TREAD and OSTEP can meet a stop of the model; every other command answers in every state. -/
theorem exec_answers (ht : TableInv s) (hs : SlotInv s) (i : Instr) : ∃ t, exec i s = .next t := by
  cases i with
  | tnew cap => simp only [exec, execTnew]; split_ifs <;> exact ⟨_, rfl⟩
  | tfill gen =>
    simp only [exec, execTfill]
    split
    · exact ⟨_, rfl⟩
    · split_ifs <;> exact ⟨_, rfl⟩
  | tlen => simp only [exec, execTlen]; split_ifs <;> exact ⟨_, rfl⟩
  | tread index => exact execTread_answers ht index
  | oinit o freq sr => simp only [exec, execOinit]; split_ifs <;> exact ⟨_, rfl⟩
  | ofreq o freq =>
    simp only [exec, execOfreq]
    split_ifs
    · exact ⟨_, rfl⟩
    · exact ⟨_, rfl⟩
    · split <;> exact ⟨_, rfl⟩
  | ostep o => exact execOstep_answers ht hs o
  | sstart fmt ch =>
    simp only [exec, execSstart]
    split
    · exact ⟨_, rfl⟩
    · split_ifs <;> exact ⟨_, rfl⟩
  | qconv fmt value =>
    simp only [exec, execQconv]
    split
    · exact ⟨_, rfl⟩
    · split <;> exact ⟨_, rfl⟩

theorem runCommand_answers (ht : TableInv s) (hs : SlotInv s) (w : Command) : ∃ t, runCommand w s = .next t := by
  unfold runCommand
  split
  · exact ⟨_, rfl⟩
  · exact exec_answers ht hs _

theorem commandStep_answers (h : Inv s) : ∃ t, commandStep s = .next t := by
  unfold commandStep
  split
  · exact ⟨_, rfl⟩
  next w ws hp =>
  split
  · obtain ⟨t, ht⟩ := runCommand_answers (h.takeWord ws).table (h.takeWord ws).slots w
    rw [ht]
    exact ⟨_, rfl⟩
  · exact ⟨_, rfl⟩

/-- A request stands in the queue only while a burst is active, and then slot 0 is live (42_bridge.md R157). -/
theorem controlStep_answers (h : Inv s) : ∃ t, controlStep s = .next t := by
  unfold controlStep
  split
  · next he =>
    obtain ⟨-, hpos, -⟩ := controlEnabled_iff.1 he
    obtain ⟨hbact, -⟩ := h.bridge.of_reqq_pos hpos
    obtain ⟨-, -, hov⟩ := h.stream_of_bact hbact
    obtain ⟨sl, hsl⟩ := Option.isSome_iff_exists.1 hov
    obtain ⟨a, ha⟩ := exists_oscStep h.table h.slots hsl
    simp only [hsl, ha]
    exact ⟨_, rfl⟩
  · exact ⟨_, rfl⟩

/-- A burst is active only with SEN = 1 (10_state.md R33, R35). -/
theorem frameStep_answers (h : Inv s) : ∃ t, frameStep s = .next t := by
  unfold frameStep
  split
  · next he =>
    obtain ⟨-, hbact, -⟩ := frameEnabled_iff.1 he
    obtain ⟨st, hst, -⟩ := h.stream_of_bact hbact
    simp only [hst]
    split
    · exact ⟨_, rfl⟩
    · split <;> exact ⟨_, rfl⟩
  · exact ⟨_, rfl⟩

theorem takeTurn_answers (h : Inv s) (turn : Turn) : ∃ t, takeTurn turn s = .next t := by
  cases turn with
  | command => exact commandStep_answers h
  | control => exact controlStep_answers h
  | frame => exact frameStep_answers h
  | hostRead port => exact ⟨_, rfl⟩
  | deviceRead slot => exact ⟨_, rfl⟩
  | reset => exact ⟨_, rfl⟩
  | burstReq =>
    simp only [takeTurn, burstStep]
    split
    · exact ⟨_, rfl⟩
    · split <;> exact ⟨_, rfl⟩
  | issue => simp only [takeTurn, issueStep]; split <;> exact ⟨_, rfl⟩
  | teardown => simp only [takeTurn, teardownStep]; split <;> exact ⟨_, rfl⟩
  | devFail => simp only [takeTurn, devFailStep]; split <;> exact ⟨_, rfl⟩

/-- Settles O51: the invariant outlives the taking of the turn, and under it every turn answers. -/
theorem legalStepsAlwaysAnswer : Obligations.LegalStepsAlwaysAnswer := by
  intro s hl h
  rcases hs : s.sched with _ | ⟨turn, rest⟩
  · exact ⟨s, by simp only [step, hl, if_true, nextStep, hs]⟩
  · rw [step_of_turn hl hs]
    exact takeTurn_answers (h.of_bookkeeping s.res s.prog s.pc s.bursts rest) turn

end Sys2Proof.Machine
end

section
/-! Registers and ports, step by step: STATUS (10_state.md R24), the command port and the host's index (R21, R26), RES (R23), FAULT and
HALTED (R25), and the table (R30), each from what one turn does (O19, O21, O22, O24, O26, O27). -/

namespace Sys2Proof.Machine

open Sys2Proof

variable {s t u : State} {turn : Turn}

/-! ### Steps but reset, and what a command that completes leaves alone -/

/-- `step_did` for a step whose turn is not reset's. -/
theorem step_did_of_not_reset (hstep : step s = .next t) (hr : s.sched.head? ≠ some .reset) :
    t = s ∨ ∃ turn rest, turn ≠ .reset ∧ Did turn { s with sched := rest } t := by
  obtain ⟨-, ⟨-, rfl⟩ | ⟨turn, rest, hs, hd⟩⟩ := step_did hstep
  · exact .inl rfl
  · refine .inr ⟨turn, rest, ?_, hd⟩
    rintro rfl
    exact hr (by rw [hs]; rfl)

theorem Completes.halted_eq {i : Instr} (h : Completes i s t) : t.halted = s.halted := (congrArg State.halted h.frame).trans rfl
theorem Completes.fault_eq {i : Instr} (h : Completes i s t) : t.fault = s.fault := (congrArg State.fault h.frame).trans rfl
theorem Completes.prog_eq {i : Instr} (h : Completes i s t) : t.prog = s.prog := (congrArg State.prog h.frame).trans rfl
theorem Completes.pc_eq {i : Instr} (h : Completes i s t) : t.pc = s.pc := (congrArg State.pc h.frame).trans rfl

/-! ### STATUS -/

/-- Bit o of STATUS[31:16] (10_state.md R24). -/
theorem getLsbD_ovField (s : State) {o : Nat} (h : o < 16) :
    s.ovField.getLsbD o = (decide (o < s.cfg.nOsc) && s.ov o) := by
  rw [State.ovField, BitVec.getLsbD_ofFnLE, dif_pos h]

/-- STATUS by bit number (10_state.md R24). -/
theorem getLsbD_status (s : State) (i : Nat) :
    s.status.getLsbD i =
      if i < 5 then [s.halted, s.tcreated, s.tfilled, s.sen, s.bact].getD i false
      else if i < 8 then false
      else if i < 16 then s.fault.getLsbD (i - 8)
      else s.ovField.getLsbD (i - 16) := by
  simp only [State.status, BitVec.getLsbD_append]
  rcases Nat.lt_or_ge i 8 with h | h
  · interval_cases i <;> simp
  · obtain ⟨j, rfl⟩ := Nat.exists_eq_add_of_le' h
    rw [if_neg (show ¬j + 8 < 5 by omega), if_neg (show ¬j + 8 < 8 by omega)]
    rcases Nat.lt_or_ge j 8 with hj | hj
    · rw [if_pos (show j + 8 < 16 by omega)]
      simp [hj]
    · rw [if_neg (show ¬j + 8 < 16 by omega)]
      simp [Nat.not_lt.2 hj]

/-- Settles O21: each bit stands where the concatenation puts it. -/
theorem statusBitsAreAsStated : Obligations.StatusBitsAreAsStated := by
  refine ⟨fun s => ⟨getLsbD_status s 0, ?_, ?_, getLsbD_status s 3, getLsbD_status s 4, ?_, ?_, fun o ho => ?_, rfl, rfl⟩,
    fun s p rest hl hs => step_of_turn hl hs, fun n => ?_, by decide⟩
  · rw [show s.status.getLsbD 1 = s.tcreated from getLsbD_status s 1]
    simp [State.tcreated]
  · rw [show s.status.getLsbD 2 = s.tfilled from getLsbD_status s 2]
    simp [State.tfilled]
  · apply BitVec.eq_of_getLsbD_eq
    intro i hi
    rw [BitVec.getLsbD_extractLsb', getLsbD_status]
    interval_cases i <;> simp
  · apply BitVec.eq_of_getLsbD_eq
    intro i hi
    rw [BitVec.getLsbD_extractLsb', getLsbD_status, if_neg (by omega), if_neg (by omega), if_pos (by omega)]
    simp [hi]
  · rw [← getLsbD_ovField s ho, getLsbD_status, if_neg (by omega), if_neg (by omega), if_neg (by omega)]
    simp
  · match n with
    | 0 => rfl
    | 1 => rfl
    | n + 2 => simp [portOf]

/-! ### The command port -/

/-- In the host's turn a ready port runs the first word and records it (10_state.md R26). -/
theorem step_of_command {w : Command} {ws : List Command} {rest : List Turn} (hl : s.cfg.legal = true)
    (hs : s.sched = .command :: rest) (hp : s.prog = w :: ws) (hh : s.halted = false) :
    step s = recordCommand w (runCommand w (({ s with sched := rest } : State).takeWord ws)) := by
  rw [step_of_turn hl hs]
  simp only [takeTurn, commandStep, hp, State.portReady, hh, Bool.not_false, if_true]

theorem runCommand_of_ok {w : Command} {i : Instr} (hd : decode w = .ok i) (s : State) : runCommand w s = exec i s := by
  simp only [runCommand, hd]

theorem runCommand_of_error {w : Command} {e : Illegal} (hd : decode w = .error e) (s : State) :
    runCommand w s = .next (s.raise .illegal) := by
  simp only [runCommand, hd]

/-- Settles O27: the word's decoding decides what `step_of_command` runs. -/
theorem stepRunsTheDecodedCommand : Obligations.StepRunsTheDecodedCommand := by
  refine ⟨fun s w ws rest i hl hs hp hh hd => ?_, fun s w ws rest e hl hs hp hh hd => ?_, fun w t => rfl⟩
  · rw [step_of_command hl hs hp hh, runCommand_of_ok hd]
    rfl
  · rw [step_of_command hl hs hp hh, runCommand_of_error hd]
    rfl

/-- The event emitted last stands last in the history (10_state.md R28). -/
theorem getLast?_hist_emit (s : State) (e : Event) : (s.emit e).hist.getLast? = some e := List.getLast?_concat ..

/-- A turn leaves the host's list and index alone, or accepts the first word and records it last (10_state.md R21, R26). -/
theorem Did.port_cases (hd : Did turn u t) :
    (t.prog = u.prog ∧ t.pc = u.pc) ∨
    (turn = .command ∧ u.halted = false ∧ ∃ w, u.prog = w :: t.prog ∧ t.pc = u.pc + 1 ∧
      ∃ oc, t.hist.getLast? = some (.command w oc) ∧ (oc = .completed ↔ t.halted = false)) := by
  cases hd with
  | raised _ w ws f hh hp => exact .inr ⟨rfl, hh, w, hp, rfl, _, getLast?_hist_emit .., by simp⟩
  | completed _ x w ws i hh hp _ hc =>
    refine .inr ⟨rfl, hh, w, ?_, hc.pc_eq, .completed, getLast?_hist_emit .., iff_of_true rfl (hc.halted_eq.trans hh)⟩
    rw [emit_prog, hc.prog_eq]
    exact hp
  | nothing | burst | issued | answered | wroteFrame | fault | reset => exact .inl ⟨by simp, by simp⟩

/-- Settles O26: the schedule's first turn is the only one that can touch the host's list. -/
theorem commandsAreAcceptedOneAtATime : Obligations.CommandsAreAcceptedOneAtATime := by
  intro s t hstep
  obtain ⟨-, ⟨-, rfl⟩ | ⟨turn, rest, hs, hd⟩⟩ := step_did hstep
  · exact .inl ⟨rfl, rfl⟩
  · refine hd.port_cases.imp_right ?_
    rintro ⟨rfl, hh, w, hp, hpc, hlast⟩
    exact ⟨w, hp, hpc, hh, by rw [hs]; rfl, hlast⟩

/-! ### RES -/

theorem Completes.res_eq_or {i : Instr} (h : Completes i s t) :
    t.res = s.res ∨ i = .tlen ∨ (∃ a, i = .tread a) ∨ (∃ o, i = .ostep o) ∨ ∃ f v, i = .qconv f v := by
  cases i with
  | tnew => obtain ⟨-, -, -, rfl⟩ := h; exact .inl rfl
  | tfill => obtain ⟨-, -, -, -, rfl⟩ := h; exact .inl rfl
  | oinit => obtain ⟨-, -, -, -, -, -, rfl⟩ := h; exact .inl rfl
  | ofreq => obtain ⟨-, -, -, -, rfl⟩ := h; exact .inl rfl
  | sstart => obtain ⟨-, -, -, -, -, -, rfl⟩ := h; exact .inl rfl
  | tlen => exact .inr (.inl rfl)
  | tread a => exact .inr (.inr (.inl ⟨a, rfl⟩))
  | ostep o => exact .inr (.inr (.inr (.inl ⟨o, rfl⟩)))
  | qconv f v => exact .inr (.inr (.inr (.inr ⟨f, v, rfl⟩)))

/-- Settles O22: no agent's step and no fault entry writes RES, so a change is reset's or a command's that completed. -/
theorem onlyFourCommandsWriteRes : Obligations.OnlyFourCommandsWriteRes := by
  intro s t hstep hres
  obtain ⟨-, ⟨-, rfl⟩ | ⟨turn, rest, hs, hd⟩⟩ := step_did hstep
  · exact absurd rfl hres
  rw [hs]
  cases hd with
  | reset => exact .inl rfl
  | completed _ x w ws i hh hp hdec hc =>
    refine .inr ⟨rfl, hc.halted_eq.trans hh, w, i, ?_, hdec, hc.res_eq_or.resolve_left hres⟩
    exact (congrArg List.head? hp).trans rfl
  | nothing | raised | burst | issued | answered | wroteFrame | fault => exact absurd (by simp) hres

/-! ### FAULT and HALTED -/

/-- A turn other than reset leaves FAULT and HALTED alone, or is a fault entry of a block that was running (60_exceptions.md R203). -/
theorem Did.fault_cases (hd : Did turn u t) (hr : turn ≠ .reset) :
    (t.halted = u.halted ∧ t.fault = u.fault) ∨
    (u.halted = false ∧ t.halted = true ∧ ∃ f : FaultCode, t.fault = (u.raise f).fault ∧ Event.fault f ∈ t.hist) := by
  cases hd with
  | raised _ w ws f hh => exact .inr ⟨hh, rfl, f, rfl, by simp⟩
  | fault _ _ f hh => exact .inr ⟨hh, rfl, f, rfl, by simp⟩
  | completed _ x w ws i _ _ _ hc => exact .inl ⟨hc.halted_eq, hc.fault_eq⟩
  | reset => exact absurd rfl hr
  | nothing | burst | issued | answered | wroteFrame => exact .inl ⟨by simp, by simp⟩

/-- Settles O19: a fault entry finds FAULT = 0, since HALTED was 0, and leaves a code, which is never 0. -/
theorem faultAndHaltedChangeTogether : Obligations.FaultAndHaltedChangeTogether := by
  intro s t hstep hinv hr
  obtain rfl | ⟨turn, rest, hturn, hd⟩ := step_did_of_not_reset hstep hr
  · exact ⟨id, fun _ => rfl, iff_of_false (not_not.2 rfl) (not_not.2 rfl), fun hne => absurd rfl hne⟩
  rcases hd.fault_cases hturn with ⟨hh, hf⟩ | ⟨hh, hh', f, hf, hmem⟩
  · exact ⟨fun h => hh.trans h, fun _ => hf, iff_of_false (not_not.2 hf) (not_not.2 hh), fun hne => absurd hh hne⟩
  · have h0 : s.fault = 0 := hinv.fault_eq_zero_iff.2 hh
    have hcode : t.fault = f.code := hf.trans (raise_fault_of_eq_zero h0 f)
    have hne : t.halted ≠ s.halted := by
      rw [hh', show s.halted = false from hh]
      decide
    refine ⟨fun _ => hh', fun hne0 => absurd h0 hne0, iff_of_true ?_ hne, fun _ => ⟨f, hcode, hmem⟩⟩
    rw [hcode, h0]
    exact f.code_ne_zero

/-! ### The table -/

/-- What one turn other than reset does to CAP, TLEN and T: nothing, TNEW's creation, or TFILL's fill. -/
def TableStep (s t : State) : Prop :=
  (t.cap = s.cap ∧ t.tlen = s.tlen ∧ t.table = s.table) ∨
  (s.cap = 0 ∧ 1 ≤ t.cap ∧ t.cap ≤ s.cfg.capMax ∧ t.tlen = 0 ∧ t.table = s.table) ∨
  (s.cap ≠ 0 ∧ s.tlen ≠ s.cap ∧ t.cap = s.cap ∧ t.tlen = s.cap ∧
    ∃ g, t.table = s.table.fillEntries (romEntries s.cfg.sineRom g s.cap))

theorem Completes.tableStep {i : Instr} (h : Completes i s t) : TableStep s t := by
  cases i with
  | tnew => obtain ⟨hpos, hmax, hnone, rfl⟩ := h; exact .inr (.inl ⟨hnone, Nat.pos_of_ne_zero hpos, hmax, rfl, rfl⟩)
  | tfill => obtain ⟨g, -, hcap, hne, rfl⟩ := h; exact .inr (.inr ⟨hcap, hne, rfl, rfl, g, rfl⟩)
  | tlen => obtain ⟨-, rfl⟩ := h; exact .inl ⟨rfl, rfl, rfl⟩
  | tread => obtain ⟨-, -, -, -, rfl⟩ := h; exact .inl ⟨rfl, rfl, rfl⟩
  | oinit => obtain ⟨-, -, -, -, -, -, rfl⟩ := h; exact .inl ⟨rfl, rfl, rfl⟩
  | ofreq => obtain ⟨-, -, -, -, rfl⟩ := h; exact .inl ⟨rfl, rfl, rfl⟩
  | ostep => obtain ⟨-, -, -, -, -, -, rfl⟩ := h; exact .inl ⟨rfl, rfl, rfl⟩
  | sstart => obtain ⟨-, -, -, -, -, -, rfl⟩ := h; exact .inl ⟨rfl, rfl, rfl⟩
  | qconv => obtain ⟨-, -, -, -, rfl⟩ := h; exact .inl ⟨rfl, rfl, rfl⟩

theorem Did.tableStep (hd : Did turn u t) (hr : turn ≠ .reset) : TableStep u t := by
  cases hd with
  | completed _ x w ws i _ _ _ hc => exact hc.tableStep
  | reset => exact absurd rfl hr
  | nothing | raised | burst | issued | answered | wroteFrame | fault => exact .inl ⟨by simp, by simp, by simp⟩

/-- Every step but reset treats the table as `TableStep` says. -/
theorem step_tableStep (hstep : step s = .next t) (hr : s.sched.head? ≠ some .reset) : TableStep s t := by
  obtain rfl | ⟨turn, rest, hturn, hd⟩ := step_did_of_not_reset hstep hr
  · exact .inl ⟨rfl, rfl, rfl⟩
  · exact hd.tableStep hturn

/-- Settles O24: each way of `TableStep` is checked against the five claims, TLEN being 0 or CAP before. -/
theorem tableIsFilledOnceThenImmutable : Obligations.TableIsFilledOnceThenImmutable := by
  intro s t hstep hinv hr
  have hlen := hinv.lenZeroOrCap
  rcases step_tableStep hstep hr with ⟨hcap, htlen, htable⟩ | ⟨hnone, hpos, hmax, htlen, htable⟩ | ⟨hcap0, hne, hcap, htlen, -⟩
  · exact ⟨by omega, by omega, by omega, fun _ => htable, by omega⟩
  · exact ⟨by omega, by omega, by omega, fun _ => htable, by omega⟩
  · exact ⟨by omega, by omega, by omega, fun hfull => absurd hfull hne, by omega⟩

end Sys2Proof.Machine
end

section
/-! The device's buffer as the device reads it (20_memory.md R61, R68, R74): what it sees in a slot, and that its read has no effect (O57). -/

namespace Sys2Proof.Machine

open Sys2Proof

variable {s t : State} {st : Stream} {k : Nat} {rest : List Turn}

/-! ### What the device sees in a slot -/

theorem deviceSlot_of_no_stream (hs : s.stream = none) (k : Nat) : s.deviceSlot k = none := by
  simp only [State.deviceSlot, hs]

/-- Once a stream is configured, the device sees the slots of the last burst, and those only after it is done (20_memory.md R74). -/
theorem deviceSlot_of_stream (hs : s.stream = some st) (k : Nat) :
    s.deviceSlot k =
      if s.bact = false ∧ k < s.bn * st.ch.toNat then s.out.readSlot (formatWidth st.fmt) k else none := by
  simp only [State.deviceSlot, hs]

theorem deviceSlot_of_bact (hb : s.bact = true) (k : Nat) : s.deviceSlot k = none := by
  cases hs : s.stream with
  | none => exact deviceSlot_of_no_stream hs k
  | some st =>
    rw [deviceSlot_of_stream hs]
    exact if_neg fun ⟨hdone, _⟩ => Bool.false_ne_true (hdone.symm.trans hb)

theorem deviceSlot_past_burst (hs : s.stream = some st) (hk : s.bn * st.ch.toNat ≤ k) : s.deviceSlot k = none := by
  rw [deviceSlot_of_stream hs]
  exact if_neg fun ⟨_, hlt⟩ => Nat.not_lt.2 hk hlt

theorem deviceSlot_of_done (hs : s.stream = some st) (hb : s.bact = false) (hk : k < s.bn * st.ch.toNat) :
    s.deviceSlot k = s.out.readSlot (formatWidth st.fmt) k := by
  rw [deviceSlot_of_stream hs]
  exact if_pos ⟨hb, hk⟩

/-! ### The turns of the device's read and of reset -/

/-- A read by the device uses its turn up and does nothing else (20_memory.md R61). -/
theorem step_of_deviceRead (hl : s.cfg.legal = true) (hs : s.sched = .deviceRead k :: rest) :
    step s = .next { s with sched := rest } := by
  rw [step_of_turn hl hs]
  rfl

/-- The step of the reset input is the reset of 70_reset_and_hazards.md R230. -/
theorem step_of_reset (hl : s.cfg.legal = true) (hs : s.sched = .reset :: rest) :
    step s = .next ({ s with sched := rest } : State).assertReset := by
  rw [step_of_turn hl hs]
  rfl

theorem eq_assertReset_of_step (hs : s.sched = .reset :: rest) (hstep : step s = .next t) :
    t = ({ s with sched := rest } : State).assertReset := by
  obtain ⟨hl, -⟩ := step_cases hstep
  rw [step_of_reset hl hs] at hstep
  injection hstep with ht
  exact ht.symm

/-- Settles O57: the guards of `deviceSlot` one by one; reset leaves OUT alone but takes the stream away, and with it what the device sees. -/
theorem deviceReadsOnlyFinishedBursts : Obligations.DeviceReadsOnlyFinishedBursts := by
  refine ⟨fun s k rest => step_of_deviceRead, fun s k hb => deviceSlot_of_bact hb k, fun s k st => deviceSlot_past_burst,
    fun s k hs => deviceSlot_of_no_stream hs k, fun s k st => deviceSlot_of_done, fun s t k rest hs hstep => ?_⟩
  obtain rfl := eq_assertReset_of_step hs hstep
  exact ⟨assertReset_out .., deviceSlot_of_no_stream (assertReset_stream ..) k⟩

end Sys2Proof.Machine
end

section
/-! The encoding (30_encoding.md R81 to R95): the encoder's word spells its row and gives the operands back, a word that spells a row is
the encoding of what it decodes to, the illegal words are those that spell no row, and the listed lines assemble (O1 to O5, O56). -/

namespace Sys2Proof.Machine

open Sys2Proof

variable {w : Command} {o o' : Opcode}

/-! ### From a command to its word and back -/

/-- The encoder writes words of the command's own row, whatever the operands (30_encoding.md R86). -/
theorem spells_encode (i : Instr) : i.opcode.spells (encode i) = true := by
  cases i with
  | tnew cap => exact (Laws.WordSpellsRow.tnew cap).1
  | tfill gen => exact (Laws.WordSpellsRow.tfill gen).1
  | tlen => exact Laws.WordSpellsRow.tlen.1
  | tread index => exact (Laws.WordSpellsRow.tread index).1
  | oinit slot freq sr => exact (Laws.WordSpellsRow.oinit slot freq sr).1
  | ofreq slot freq => exact (Laws.WordSpellsRow.ofreq slot freq).1
  | ostep slot => exact (Laws.WordSpellsRow.ostep slot).1
  | sstart fmt ch => exact (Laws.WordSpellsRow.sstart fmt ch).1
  | qconv fmt value => exact (Laws.WordSpellsRow.qconv fmt value).1

/-- The operands of a well-formed command stand in the fields its row reads them from (30_encoding.md R81 to R85). -/
theorem build_fields_encode {i : Instr} (h : i.wf = true) :
    i.opcode.build (selField (encode i)).toNat (bField (encode i)).toNat (aField (encode i)).toNat (aField (encode i)) = i := by
  cases i with
  | tlen => rfl
  | _ => simpa [Instr.opcode, Opcode.build, encode, Instr.wf, fitsSel, fitsB, fitsA, and_assoc] using h

/-- Settles O1: the word spells the command's row, and the row's operands are read back from their fields. -/
theorem decodeOfEncodeIsIdentity : Obligations.DecodeOfEncodeIsIdentity := fun i h =>
  (decode_eq_ok_iff _ _).2 ⟨i.opcode, spells_encode i, (build_fields_encode h).symm⟩

/-! ### From a word to its command and back -/

/-- The encoder packs exactly the fields the row reads; the others are the ones the row fixes at zero (30_encoding.md R85). -/
theorem encode_build {a : BitVec 32} {b : BitVec 20} {s : BitVec 4} (ha : o.fixes.1 = true → a = 0)
    (hb : o.fixes.2.1 = true → b = 0) (hs : o.fixes.2.2 = true → s = 0) :
    encode (o.build s.toNat b.toNat a.toNat a) = packWord a b s o.code := by
  cases o <;> simp_all [Opcode.fixes, Opcode.build, encode]

theorem encode_of_decode_eq_ok {i : Instr} (h : decode w = .ok i) : encode i = w := by
  obtain ⟨o, hspells, rfl⟩ := (decode_eq_ok_iff w i).1 h
  obtain ⟨hop, hrsv, ha, hb, hs⟩ := (spells_iff o w).1 hspells
  rw [encode_build ha hb hs, ← hop]
  exact (word_eq_packWord w hrsv).symm

/-- Settles O2: what the word spells is packed again field by field. -/
theorem encodeOfDecodeIsIdentity : Obligations.EncodeOfDecodeIsIdentity := fun _ _ h =>
  ⟨encode_of_decode_eq_ok h, wf_of_decode_eq_ok h⟩

/-! ### The rows a word spells -/

theorem opField_of_spells (h : o.spells w = true) : opField w = o.code := ((spells_iff o w).1 h).1

/-- A word spells no row but that of the opcode standing in it. -/
theorem eq_of_spells (h : o.spells w = true) (hop : opField w = o'.code) : o = o' := by
  have hcode : Opcode.ofCode o.code = Opcode.ofCode o'.code := congrArg Opcode.ofCode ((opField_of_spells h).symm.trans hop)
  rw [ofCode_code, ofCode_code] at hcode
  exact Option.some.inj hcode

/-- A word spells a row iff it decodes to a command of that row (30_encoding.md R86, R89). -/
theorem spells_iff_decode : o.spells w = true ↔ ∃ i, decode w = .ok i ∧ i.opcode = o := by
  constructor
  · intro h
    exact ⟨_, (decode_eq_ok_iff w _).2 ⟨o, h, rfl⟩, opcode_build ..⟩
  · rintro ⟨i, hdec, rfl⟩
    obtain ⟨o, hspells, rfl⟩ := (decode_eq_ok_iff w i).1 hdec
    rwa [opcode_build]

/-- The nine opcodes in the order of 30_encoding.md R85. -/
def allOpcodes : List Opcode := [.tnew, .tfill, .tlen, .tread, .oinit, .ofreq, .ostep, .sstart, .qconv]

/-- A row of the table of 30_encoding.md R86: mnemonic, match, mask. -/
def matchRow (o : Opcode) : Opcode × Command × Command := (o, o.matchBits, o.maskBits)

theorem spells_iff_matchRow : o.spells w = true ↔ w &&& (matchRow o).2.2 = (matchRow o).2.1 := beq_iff_eq

/-- Settles O4: the listed rows are the opcodes' own (`matchRow`), so matching a row is spelling it. -/
theorem wordsSpellTheRowTheyMatch : Obligations.WordsSpellTheRowTheyMatch := by
  show (∀ r ∈ allOpcodes.map matchRow, _) ∧ ∀ r ∈ allOpcodes.map matchRow, ∀ r' ∈ allOpcodes.map matchRow, _
  simp only [List.forall_mem_map]
  refine ⟨fun o _ w => ?_, fun o _ o' _ w h h' => ?_⟩
  · rw [← spells_iff_matchRow]
    exact spells_iff_decode
  · rw [← spells_iff_matchRow] at h h'
    rw [eq_of_spells h (opField_of_spells h')]

/-! ### The illegal words -/

theorem ofCode_eq_none_iff (c : BitVec 4) : Opcode.ofCode c = none ↔ c = 0 ∨ 0xA ≤ c := by
  revert c
  decide

/-- The illegal words are those that spell no row (30_encoding.md R87, R89). -/
theorem decode_error_iff : (∃ e, decode w = .error e) ↔ ∀ o : Opcode, ¬ o.spells w = true := by
  have hok : (∃ i, decode w = .ok i) ↔ ∃ o : Opcode, o.spells w = true := by simp [spells_iff_decode]
  rw [← not_exists, ← hok]
  cases decode w <;> simp

/-- With a reserved opcode no row is spelled. -/
theorem decode_error_of_reserved (h : Opcode.ofCode (opField w) = none) : ∃ e, decode w = .error e := by
  refine decode_error_iff.2 fun o hspells => ?_
  rw [opField_of_spells hspells, ofCode_code] at h
  exact Option.some_ne_none o h

/-- With an assigned opcode a word is illegal iff the reserved field or one the row fixes is not zero (30_encoding.md R87). -/
theorem decode_error_iff_of_opField (h : opField w = o.code) :
    (∃ e, decode w = .error e) ↔ rsvField w ≠ 0 ∨ (o.fixes.1 = true ∧ aField w ≠ 0) ∨ (o.fixes.2.1 = true ∧ bField w ≠ 0) ∨
      (o.fixes.2.2 = true ∧ selField w ≠ 0) := by
  have honly : (∀ o' : Opcode, ¬ o'.spells w = true) ↔ ¬ o.spells w = true :=
    ⟨fun hall => hall o, fun hno o' hspells => hno (eq_of_spells hspells h ▸ hspells)⟩
  rw [decode_error_iff, honly, spells_iff]
  simp only [h, true_and, not_and_or, Classical.not_imp]

/-- Settles O3: a reserved opcode spells no row; under an assigned one the fields its row fixes decide. Running the word follows `decode`. -/
theorem illegalWordsAreExactlyTheListedOnes : Obligations.IllegalWordsAreExactlyTheListedOnes := by
  refine ⟨fun w => ?_, fun _ s _ hd => runCommand_of_error hd s, fun _ s _ hd => runCommand_of_ok hd s, rfl, _, rfl⟩
  cases hop : Opcode.ofCode (opField w) with
  | none =>
    have hreserved : opField w = 0 ∨ 0xA ≤ opField w := (ofCode_eq_none_iff _).1 hop
    exact iff_of_true (decode_error_of_reserved hop) (hreserved.imp_right .inl)
  | some o =>
    have hcode : opField w = o.code := code_of_ofCode hop
    rw [decode_error_iff_of_opField hcode, hcode]
    cases o <;> simp [Opcode.code, Opcode.fixes, or_assoc, or_comm, or_left_comm]

/-! ### The assembler's examples -/

/-- Settles O5: nine lines through the assembler, and their words through the decoder. -/
theorem encodingExamplesOfTheSpec : Obligations.EncodingExamplesOfTheSpec := by
  unfold Obligations.EncodingExamplesOfTheSpec
  decide +kernel

/-- Settles O56: the expansions are the definitions; the two lines are assembled. -/
theorem pseudoInstructionsExpand : Obligations.PseudoInstructionsExpand := by
  refine ⟨fun _ _ => rfl, fun _ _ _ _ => rfl, ?_, ?_⟩
  · decide +kernel
  · decide +kernel

end Sys2Proof.Machine
end

section
/-! The wavetable commands TNEW, TFILL, TLEN and TREAD (40_wavetable.md R107 to R110): which words run them, their checks in order, their effect;
and that no other step writes the table's registers (R111) (O6 to O9, O23). -/

namespace Sys2Proof.Machine

open Sys2Proof

variable {s t u : State} {w : Command} {o : Opcode} {turn : Turn}

/-! ### The words of a row -/

/-- A word with a row's opcode runs the row's command if it spells the row, and is illegal otherwise (30_encoding.md R87, R89);
`P` is what spelling the row says of the word's fields. -/
theorem runCommand_of_opField {P : Prop} (hop : opField w = o.code) (hP : o.spells w = true ↔ P) (s : State) :
    (P → runCommand w s = exec (o.build (selField w).toNat (bField w).toNat (aField w).toNat (aField w)) s) ∧
    (¬P → runCommand w s = .next (s.raise .illegal)) := by
  rw [← hP]
  refine ⟨fun h => runCommand_of_ok ((decode_eq_ok_iff w _).2 ⟨o, h, rfl⟩) s, fun h => ?_⟩
  obtain ⟨e, he⟩ := decode_error_iff.2 fun o' hspells => h (eq_of_spells hspells hop ▸ hspells)
  exact runCommand_of_error he s

/-- TNEW and TREAD read the field A alone (30_encoding.md R85). -/
theorem spells_iff_of_opField_onlyA (hfix : o.fixes = (false, true, true)) (hop : opField w = o.code) :
    o.spells w = true ↔ rsvField w = 0 ∧ selField w = 0 ∧ bField w = 0 := by
  rw [spells_iff, hfix]
  simp only [hop, true_and, Bool.false_eq_true, false_implies, true_implies, and_comm (a := bField w = 0)]

theorem spells_tfill_iff (hop : opField w = Opcode.tfill.code) :
    Opcode.tfill.spells w = true ↔ rsvField w = 0 ∧ bField w = 0 ∧ aField w = 0 := by
  rw [spells_iff]
  simp only [hop, true_and, Opcode.fixes, Bool.false_eq_true, false_implies, true_implies, and_true,
    and_comm (a := aField w = 0)]

theorem spells_tlen_iff (hop : opField w = Opcode.tlen.code) :
    Opcode.tlen.spells w = true ↔ rsvField w = 0 ∧ selField w = 0 ∧ bField w = 0 ∧ aField w = 0 := by
  rw [spells_iff]
  simp only [hop, true_and, Opcode.fixes, true_implies]
  tauto

/-! ### TNEW -/

/-- Settles O6: the row fixes sel and B; each check stands behind the failure of those before it. -/
theorem tnewFollowsItsRule : Obligations.TnewFollowsItsRule := by
  refine ⟨fun w s hop => runCommand_of_opField (o := .tnew) hop (spells_iff_of_opField_onlyA rfl hop) s,
    fun cap s => ⟨fun h0 => ?_, fun h0 hmax => ?_, fun h0 hmax hcap => ?_, fun h0 hmax hcap => ⟨?_, ?_⟩⟩⟩
  · exact if_pos h0
  · exact (if_neg h0).trans (if_pos hmax)
  · exact (if_neg h0).trans ((if_neg hmax.not_gt).trans (if_pos hcap))
  · exact (if_neg h0).trans ((if_neg hmax.not_gt).trans (if_neg (not_not.2 hcap)))
  · exact (getLsbD_status _ 1).trans (bne_iff_ne.2 h0)

/-! ### TFILL -/

/-- The generator of a code below 2 gives the entries R108 names by the code. -/
theorem exists_generatorOf {gen : Nat} (h : gen < 2) :
    ∃ g, generatorOf gen = some g ∧
      ∀ rom c i, romEntry rom g c i = if gen = 0 then sineRom rom c i else sawRom c i := by
  interval_cases gen
  · exact ⟨.sine, rfl, fun _ _ _ => (if_pos rfl).symm⟩
  · exact ⟨.saw, rfl, fun _ _ _ => (if_neg one_ne_zero).symm⟩

theorem execTfill_of_generatorOf {gen : Nat} {g : Generator} (hg : generatorOf gen = some g) (s : State) :
    execTfill gen s =
      if s.cap = 0 then .next (s.raise .noTable)
      else if s.tlen = s.cap then .next (s.raise .refill)
      else .next { s with table := s.table.fillEntries (romEntries s.cfg.sineRom g s.cap), tlen := s.cap } := by
  simp only [execTfill, hg]

@[simp] theorem length_romEntries (rom : Config.SineRom) (g : Generator) (c : Nat) : (romEntries rom g c).length = c := by
  simp [romEntries]

theorem getElem?_romEntries (rom : Config.SineRom) (g : Generator) {c i : Nat} (h : i < c) :
    (romEntries rom g c)[i]? = some (romEntry rom g c i) := by
  simp [romEntries, List.getElem?_range h]

/-- Settles O7: the entries below CAP are the fill's own, and no byte from 4·CAP on is one of them. -/
theorem tfillFollowsItsRule : Obligations.TfillFollowsItsRule := by
  refine ⟨fun w s hop => runCommand_of_opField (o := .tfill) hop (spells_tfill_iff hop) s,
    fun gen s => ⟨fun hgen => ?_, fun hgen hcap => ?_, fun hgen hcap hfull => ?_, fun hgen hcap hne => ?_⟩⟩
  · simp only [exec, execTfill, generatorOf_none hgen]
  all_goals obtain ⟨g, hg, hrom⟩ := exists_generatorOf hgen
  · exact (execTfill_of_generatorOf hg s).trans (if_pos hcap)
  · exact (execTfill_of_generatorOf hg s).trans ((if_neg hcap).trans (if_pos hfull))
  · refine ⟨_, (execTfill_of_generatorOf hg s).trans ((if_neg hcap).trans (if_neg hne)), fun i hi => ?_, fun a ha => ?_, rfl, ?_⟩
    · rw [← hrom]
      exact Memory.readEntry_fillEntries _ _ _ _ (getElem?_romEntries _ _ hi)
    · exact Memory.readByte_fillEntries_above _ _ _ (by rwa [length_romEntries])
    · exact (getLsbD_status _ 2).trans (by simpa [State.tfilled] using hcap)

/-! ### TLEN and TREAD -/

/-- Settles O8: a table's length is at most 2^20, so RES holds it whole. -/
theorem tlenFollowsItsRule : Obligations.TlenFollowsItsRule := by
  refine ⟨fun w s hop => runCommand_of_opField (o := .tlen) hop (spells_tlen_iff hop) s,
    fun s => ⟨fun hcap => if_pos hcap, fun hcap => if_neg hcap, fun hcap hl hinv => ?_⟩⟩
  obtain ⟨-, hmax, -⟩ := ranges_of_legal hl
  have hbound := hinv.capBound
  have hlen := hinv.lenZeroOrCap
  refine ⟨_, if_neg hcap, ?_, hlen⟩
  rw [setRes_res, BitVec.toNat_ofNat, Nat.mod_eq_of_lt (by omega)]

/-- Settles O9: the row fixes sel and B; below TLEN the entry's value goes to RES. -/
theorem treadFollowsItsRule : Obligations.TreadFollowsItsRule := by
  refine ⟨fun w s hop => runCommand_of_opField (o := .tread) hop (spells_iff_of_opField_onlyA rfl hop) s,
    fun index s => ⟨fun hcap => if_pos hcap, fun hcap hlen => (if_neg hcap).trans (if_pos hlen), fun v hcap hlt hv => ?_⟩⟩
  simp only [exec, execTread, if_neg hcap, if_neg hlt.not_ge, hv]
  rfl

/-! ### Who writes the table -/

/-- A command that completes and writes CAP is a TNEW, one that writes T a TFILL, and one that writes TLEN one of the two. -/
theorem Completes.table_writer {i : Instr} (h : Completes i s t) :
    (t.cap = s.cap ∨ ∃ cap, i = .tnew cap) ∧
    (t.tlen = s.tlen ∨ (∃ cap, i = .tnew cap) ∨ ∃ gen, i = .tfill gen) ∧
    (t.table = s.table ∨ ∃ gen, i = .tfill gen) := by
  cases i with
  | tnew cap => obtain ⟨-, -, -, rfl⟩ := h; exact ⟨.inr ⟨cap, rfl⟩, .inr (.inl ⟨cap, rfl⟩), .inl rfl⟩
  | tfill gen => obtain ⟨_, -, -, -, rfl⟩ := h; exact ⟨.inl rfl, .inr (.inr ⟨gen, rfl⟩), .inr ⟨gen, rfl⟩⟩
  | tlen => obtain ⟨-, rfl⟩ := h; exact ⟨.inl rfl, .inl rfl, .inl rfl⟩
  | tread => obtain ⟨-, -, -, -, rfl⟩ := h; exact ⟨.inl rfl, .inl rfl, .inl rfl⟩
  | oinit => obtain ⟨-, -, -, -, -, -, rfl⟩ := h; exact ⟨.inl rfl, .inl rfl, .inl rfl⟩
  | ofreq => obtain ⟨-, -, -, -, rfl⟩ := h; exact ⟨.inl rfl, .inl rfl, .inl rfl⟩
  | ostep => obtain ⟨-, -, -, -, -, -, rfl⟩ := h; exact ⟨.inl rfl, .inl rfl, .inl rfl⟩
  | sstart => obtain ⟨-, -, -, -, -, -, rfl⟩ := h; exact ⟨.inl rfl, .inl rfl, .inl rfl⟩
  | qconv => obtain ⟨-, -, -, -, rfl⟩ := h; exact ⟨.inl rfl, .inl rfl, .inl rfl⟩

/-- A turn other than reset leaves CAP, TLEN and T alone, or completes the host's first command. -/
theorem Did.table_cases (hd : Did turn u t) (hr : turn ≠ .reset) :
    (t.cap = u.cap ∧ t.tlen = u.tlen ∧ t.table = u.table) ∨
    (turn = .command ∧ ∃ w ws i x, u.prog = w :: ws ∧ decode w = .ok i ∧ Completes i (u.takeWord ws) x ∧
      t = x.emit (.command w .completed)) := by
  cases hd with
  | completed _ x w ws i _ hp hdec hc => exact .inr ⟨rfl, w, ws, i, x, hp, hdec, hc, rfl⟩
  | reset => exact absurd rfl hr
  | nothing | raised | burst | issued | answered | wroteFrame | fault => exact .inl ⟨by simp, by simp, by simp⟩

/-- Settles O23: only a completed command can write the table's registers, and `Completes.table_writer` says which one. -/
theorem onlyTnewAndTfillWriteTheTable : Obligations.OnlyTnewAndTfillWriteTheTable := by
  intro s t hstep hr
  obtain ⟨-, ⟨-, rfl⟩ | ⟨turn, rest, hs, hd⟩⟩ := step_did hstep
  · exact ⟨fun h => absurd rfl h, fun h => absurd rfl h, fun h => absurd rfl h⟩
  rw [hs] at hr ⊢
  rcases hd.table_cases fun h => hr (congrArg some h) with ⟨hcap, htlen, htable⟩ | ⟨rfl, w, ws, i, x, hp, hdec, hc, rfl⟩
  · exact ⟨fun h => absurd hcap h, fun h => absurd htlen h, fun h => absurd htable h⟩
  have hw : s.prog.head? = some w := congrArg List.head? hp
  obtain ⟨hcap, htlen, htable⟩ := hc.table_writer
  refine ⟨fun h => ?_, fun h => ?_, fun h => ?_⟩
  · obtain ⟨cap, rfl⟩ := hcap.resolve_left h
    exact ⟨w, cap, rfl, hw, hdec⟩
  · refine ⟨w, rfl, hw, (htlen.resolve_left h).imp ?_ ?_⟩
    · rintro ⟨cap, rfl⟩; exact ⟨cap, hdec⟩
    · rintro ⟨gen, rfl⟩; exact ⟨gen, hdec⟩
  · obtain ⟨gen, rfl⟩ := htable.resolve_left h
    exact ⟨w, gen, rfl, hw, hdec⟩

end Sys2Proof.Machine
end

section
/-! The rounding error of RNE32 on [-1, 1], and with it the sawtooth ROM and the generators' ranges (40_wavetable.md R104, R106) (O39, O40). -/

namespace Sys2Proof.Machine

open Sys2Proof

/-! ### Rounding on [-1, 1] -/

theorem ulpExp_self {d : Nat} (hd : 0 < d) : ulpExp d d = 126 := by
  rw [ulpExp, Nat.mul_div_cancel_left _ hd, Nat.log2_two_pow]

/-- The value 1 is 2^23 units of 2^126. -/
theorem roundUnits_self {d : Nat} (hd : 0 < d) : roundUnits d d = 2 ^ 23 := by
  rw [roundUnits_eq, ulpExp_self hd, show d * 2 ^ 149 = 2 ^ 23 * (d * 2 ^ 126) by ring,
    divRne_mul _ _ (Nat.mul_pos hd (Nat.two_pow_pos _))]

theorem roundMag_self {d : Nat} (hd : 0 < d) : roundMag d d = 0x3F800000 := by
  rw [roundMag_eq, ulpExp_self hd, roundUnits_self hd]
  rfl

/-- Half a unit in the last place of a magnitude up to 1 is at most 2^-25; the magnitude 1 itself is exact. -/
theorem roundUnits_error_le {n d : Nat} (hd : 0 < d) (h : n ≤ d) :
    |(roundUnits n d * 2 ^ ulpExp n d : ℤ) * d - n * 2 ^ 149| ≤ (2 ^ 124 * d : ℤ) := by
  rcases h.lt_or_eq with hlt | rfl
  · have he : ulpExp n d ≤ 125 := by
      by_contra hgt
      have hle := two_pow_ulpExp_le (n := n) hd (by omega)
      have : 2 ^ 149 * d ≤ 2 ^ (ulpExp n d + 23) * d := by gcongr <;> omega
      omega
    have hulp : d * 2 ^ ulpExp n d ≤ d * 2 ^ 125 := by gcongr; omega
    obtain ⟨hlo, hhi, -⟩ := divRne_spec (n * 2 ^ 149) (d * 2 ^ ulpExp n d) (Nat.mul_pos hd (Nat.two_pow_pos _))
    rw [← roundUnits_eq, show roundUnits n d * (d * 2 ^ ulpExp n d) = roundUnits n d * 2 ^ ulpExp n d * d by ring] at hlo hhi
    zify at hlo hhi hulp
    rw [abs_le]
    constructor <;> linarith
  · rw [ulpExp_self hd, roundUnits_self hd, show ((2 ^ 23 : ℕ) * 2 ^ 126 : ℤ) * n - n * 2 ^ 149 = 0 by push_cast; ring, abs_zero]
    positivity

/-- RNE32 of a rational in [-1, 1] is within 2^-25 of it. -/
theorem abs_val_rne32_sub_le {n : ℤ} {d : Nat} (hd : 0 < d) (h : n.natAbs ≤ d) :
    |val (rne32 n d) - (n : ℚ) / d| ≤ 1 / 2 ^ 25 := by
  have hd' : (0 : ℚ) < d := by exact_mod_cast hd
  have herror : |units (rne32 n d) * d - n * 2 ^ 149| ≤ (2 ^ 124 * d : ℤ) := by
    rcases eq_or_ne n 0 with rfl | hn
    · rw [rne32_zero, show units 0 = 0 by decide, zero_mul, zero_mul, sub_zero, abs_zero]
      positivity
    have hsign : n.sign * n.sign = 1 := by rw [← Int.sign_mul, Int.sign_eq_one_of_pos (mul_self_pos.2 hn)]
    rw [abs_mul_sub_eq_sign hn, units_rne32 hd (rne32_inUnitRange hd h).1, ← mul_assoc, hsign, one_mul]
    exact roundUnits_error_le hd h
  rw [abs_val_sub_div _ n hd, div_le_iff₀ (by positivity)]
  calc ((|units (rne32 n d) * d - n * 2 ^ 149| : ℤ) : ℚ) ≤ 2 ^ 124 * d := by exact_mod_cast herror
    _ = 1 / 2 ^ 25 * (2 ^ 149 * d) := by ring

theorem val_rne32_nonneg {n : ℤ} {d : Nat} (hd : 0 < d) (hn : 0 ≤ n) (h : n.natAbs ≤ d) : 0 ≤ val (rne32 n d) := by
  have hunits : 0 ≤ units (rne32 n d) := by
    rw [units_rne32 hd (rne32_inUnitRange hd h).1]
    exact mul_nonneg (Int.sign_nonneg_iff.2 hn) (by positivity)
  exact div_nonneg (by exact_mod_cast hunits) (by positivity)

/-! ### The sawtooth -/

section Saw
variable {c i : Nat}

/-- The sawtooth's numerator over c (40_wavetable.md R104). -/
theorem sawRom_eq (c i : Nat) : sawRom c i = rne32 (((2 * i + c) % (2 * c) : Nat) - (c : Int)) c := rfl

theorem sawRom_of_lt (h : 2 * i < c) : sawRom c i = rne32 (2 * i) c := by
  rw [sawRom_eq, Nat.mod_eq_of_lt (by omega)]
  push_cast
  rw [add_sub_cancel_right]

theorem sawRom_of_le (hi : i < c) (h : c ≤ 2 * i) : sawRom c i = rne32 (2 * i - 2 * c) c := by
  have hmod : ((2 * i + c) % (2 * c) : Nat) - (c : Int) = 2 * i - 2 * c := by
    rw [Nat.mod_eq_sub_mod (by omega), Nat.mod_eq_of_lt (by omega)]
    omega
  rw [sawRom_eq, hmod]

/-- The two halves of the wave: ratMod takes off no period, or one. -/
theorem ratMod_saw_of_lt (hc : 0 < c) (h : 2 * i < c) : ratMod (2 * i / c + 1) 2 - 1 = ((2 * i : ℤ) : ℚ) / c := by
  have hc' : (0 : ℚ) < c := by exact_mod_cast hc
  have h0 : (0 : ℚ) ≤ 2 * i / c := by positivity
  have h1 : (2 * i / c : ℚ) < 1 := by rw [div_lt_one hc']; exact_mod_cast h
  have hfloor : ⌊(2 * i / c + 1 : ℚ) / 2⌋ = 0 := by
    rw [Int.floor_eq_iff]
    constructor <;> push_cast <;> linarith
  rw [ratMod, hfloor]
  push_cast
  ring

theorem ratMod_saw_of_le (hi : i < c) (h : c ≤ 2 * i) :
    ratMod (2 * i / c + 1) 2 - 1 = ((2 * i - 2 * c : ℤ) : ℚ) / c := by
  have hc' : (0 : ℚ) < c := by exact_mod_cast (show 0 < c by omega)
  have h0 : (1 : ℚ) ≤ 2 * i / c := by rw [one_le_div hc']; exact_mod_cast h
  have h1 : (2 * i / c : ℚ) < 2 := by rw [div_lt_iff₀ hc']; exact_mod_cast (show 2 * i < 2 * c by omega)
  have hfloor : ⌊(2 * i / c + 1 : ℚ) / 2⌋ = 1 := by
    rw [Int.floor_eq_iff]
    constructor <;> push_cast <;> linarith
  rw [ratMod, hfloor]
  push_cast
  field_simp
  ring

/-- On the rising half the entry is in [0, 1): the rational is at most 1 - 2^-20, and rounding moves it by no more than 2^-25. -/
theorem val_sawRom_of_lt (hc : c ≤ 2 ^ 20) (h : 2 * i < c) : 0 ≤ val (sawRom c i) ∧ val (sawRom c i) < 1 := by
  have hc' : (0 : ℚ) < c := by exact_mod_cast (show 0 < c by omega)
  rw [sawRom_of_lt h]
  refine ⟨val_rne32_nonneg (by omega) (by omega) (by omega), ?_⟩
  have hstep : (((2 * i : ℤ) : ℚ) / c) ≤ 1 - 1 / 2 ^ 20 := by
    have hc1 : (1 : ℚ) ≤ 2 ^ 20 / c := by rw [one_le_div hc']; exact_mod_cast hc
    have hic : (2 * i + 1 : ℚ) / c ≤ 1 := by rw [div_le_one hc']; exact_mod_cast h
    push_cast
    rw [add_div] at hic
    have : (2 : ℚ) ^ 20 / c = 2 ^ 20 * (1 / c) := by ring
    linarith
  have herr := (abs_le.1 (abs_val_rne32_sub_le (n := 2 * i) (d := c) (by omega) (by omega))).2
  norm_num at herr hstep ⊢
  linarith

/-- On the other half it is in [-1, 0): the rational is at most -2^-19. -/
theorem val_sawRom_of_le (hc : c ≤ 2 ^ 20) (hi : i < c) (h : c ≤ 2 * i) :
    -1 ≤ val (sawRom c i) ∧ val (sawRom c i) < 0 := by
  have hc' : (0 : ℚ) < c := by exact_mod_cast (show 0 < c by omega)
  refine ⟨(sawRom_inUnitRange (by omega) i).2.1, ?_⟩
  rw [sawRom_of_le hi h]
  have hstep : (((2 * i - 2 * c : ℤ) : ℚ) / c) ≤ -(1 / 2 ^ 20) := by
    have hic : (i + 1 : ℚ) ≤ c := by exact_mod_cast hi
    have hc20 : (c : ℚ) ≤ 2 ^ 20 := by exact_mod_cast hc
    rw [div_le_iff₀ hc']
    push_cast
    linarith
  have herr := (abs_le.1 (abs_val_rne32_sub_le (n := 2 * i - 2 * c) (d := c) (by omega) (by omega))).2
  norm_num at herr hstep ⊢
  linarith

theorem sawRom_half (h : 2 * i = c) (hi : i < c) : sawRom c i = 0xBF800000 := by
  rw [sawRom_of_le hi h.ge, show (2 * i - 2 * c : ℤ) = -c by omega, rne32_of_ne_zero (by omega), Int.natAbs_neg,
    Int.natAbs_natCast, roundMag_self (by omega), decide_eq_true (show -(c : ℤ) < 0 by omega)]
  rfl

end Saw

/-- Settles O39: each half of the wave has its closed form, and its range from the rounding error. -/
theorem sawRomIsTheExactRationalRounded : Obligations.SawRomIsTheExactRationalRounded := by
  intro c i hc hmax hi
  refine ⟨?_, fun h => ⟨sawRom_of_lt h, val_sawRom_of_lt hmax h⟩, fun h => ⟨sawRom_of_le hi h, val_sawRom_of_le hmax hi h⟩,
    fun h => sawRom_half h hi, ?_⟩
  · rcases Nat.lt_or_ge (2 * i) c with h | h
    · exact ⟨2 * i, (ratMod_saw_of_lt hc h).symm, sawRom_of_lt h⟩
    · exact ⟨2 * i - 2 * c, (ratMod_saw_of_le hi h).symm, sawRom_of_le hi h⟩
  · rw [sawRom_of_lt (by omega)]
    exact rne32_zero c

/-- Settles O40: the ranges of the sine and saw entries, the saw's below 1 on either half of the wave. -/
theorem generatorsStayInRange : Obligations.GeneratorsStayInRange := by
  intro rom c i hc hmax hi
  refine ⟨sineRom_inUnitRange rom c i, sawRom_inUnitRange hc i, ?_⟩
  rcases Nat.lt_or_ge (2 * i) c with h | h
  · exact (val_sawRom_of_lt hmax h).2
  · exact (val_sawRom_of_le hmax hi h).2.trans one_pos

end Sys2Proof.Machine
end

section
/-! The sine ROM against the real sine (40_wavetable.md R103): the model's series against the Taylor sums of the complex exponential, the angle within
the quadrant, the quadrants, and then the rounding (O41). -/

namespace Sys2Proof.Machine

open Sys2Proof

variable {x c i : Nat} {X θ y : ℝ}

theorem sineOne_pos : 0 < sineOne := Nat.two_pow_pos 192

theorem cast_sineOne_pos : (0 : ℝ) < sineOne := Nat.cast_pos.2 sineOne_pos

/-! ### The series and its Taylor sum -/

/-- The sum X^m/m! - X^(m+2)/(m+2)! + … of `n` terms, by the recursion of `altSeries`: cos X from m = 0, sin X from m = 1. -/
noncomputable def taylorSum (X : ℝ) : Nat → Nat → ℝ
  | 0, _ => 0
  | n + 1, m => X ^ m / m.factorial - taylorSum X n (m + 2)

/-- The Taylor sum of exp(iX) has the two alternating sums as its real and imaginary parts. -/
theorem sum_exp_eq_taylorSum (X : ℝ) (n m : Nat) :
    ∑ j ∈ Finset.range (2 * n), ((X : ℂ) * Complex.I) ^ (j + m) / (j + m).factorial =
      Complex.I ^ m * (taylorSum X n m + taylorSum X n (m + 1) * Complex.I) := by
  induction n generalizing m with
  | zero => simp [taylorSum]
  | succ n ih =>
    have hshift (j : Nat) : j + 1 + 1 + m = j + (m + 2) := by omega
    rw [Nat.mul_succ, Finset.sum_range_succ', Finset.sum_range_succ']
    simp only [hshift, zero_add, ih (m + 2), taylorSum, add_comm 1 m]
    push_cast
    rw [mul_pow, mul_pow, pow_add _ m 2, Complex.I_sq]
    ring

theorem taylorSum_error (h0 : 0 ≤ X) (h2 : X ≤ 2) :
    |taylorSum X 32 0 - Real.cos X| ≤ 1 / 2 ^ 128 ∧ |taylorSum X 32 1 - Real.sin X| ≤ 1 / 2 ^ 128 := by
  have hnorm : ‖(X : ℂ) * Complex.I‖ = X := by simp [abs_of_nonneg h0]
  have hsum := sum_exp_eq_taylorSum X 32 0
  have hbound := Complex.exp_bound' (x := (X : ℂ) * Complex.I) (n := 2 * 32) (by rw [hnorm]; norm_num; linarith)
  simp only [add_zero, pow_zero, one_mul, zero_add] at hsum
  rw [hnorm, hsum, norm_sub_rev] at hbound
  have hsmall : X ^ (2 * 32) / ((2 * 32).factorial : ℝ) * 2 ≤ 1 / 2 ^ 128 :=
    calc X ^ (2 * 32) / ((2 * 32).factorial : ℝ) * 2 ≤ 2 ^ (2 * 32) / ((2 * 32).factorial : ℝ) * 2 := by gcongr
      _ ≤ 1 / 2 ^ 128 := by norm_num [Nat.factorial]
  have hre := (Complex.abs_re_le_norm _).trans (hbound.trans hsmall)
  have him := (Complex.abs_im_le_norm _).trans (hbound.trans hsmall)
  constructor
  · simpa using hre
  · simpa using him

/-- An integer quotient is the real one less a part below 1. -/
theorem abs_cast_div_sub_le (a b : Nat) : |((a / b : Nat) : ℝ) - a / b| ≤ 1 := by
  have h0 : (0 : ℝ) ≤ a / b := by positivity
  rw [← Nat.floor_div_eq_div (K := ℝ), abs_le]
  constructor <;> linarith [Nat.floor_le h0, Nat.lt_floor_add_one (a / b : ℝ)]

/-- The next term of the series: the error of the last at most doubles, as X² ≤ 4 and the divisor is at least 2, and the division adds 1. -/
theorem term_error (hX : X = x / sineOne) (h2 : X ≤ 2) {m t : Nat} {e : ℝ}
    (ht : |(t : ℝ) - sineOne * (X ^ m / m.factorial)| ≤ e) :
    |((t * (x * x) / ((m + 1) * (m + 1 + 1) * sineOne ^ 2) : Nat) : ℝ) - sineOne * (X ^ (m + 2) / (m + 2).factorial)| ≤
      2 * e + 1 := by
  have hone := cast_sineOne_pos
  have h0 : 0 ≤ X := by rw [hX]; positivity
  have hdiv := abs_cast_div_sub_le (t * (x * x)) ((m + 1) * (m + 1 + 1) * sineOne ^ 2)
  have hfactor : X ^ 2 / ((m + 1) * (m + 2)) ≤ 2 := by
    rw [div_le_iff₀ (by positivity)]
    nlinarith [(Nat.cast_nonneg m : (0 : ℝ) ≤ m)]
  have hquot : ((t * (x * x) : Nat) : ℝ) / ((m + 1) * (m + 1 + 1) * sineOne ^ 2 : Nat) -
      sineOne * (X ^ (m + 2) / (m + 2).factorial) =
      (t - sineOne * (X ^ m / m.factorial)) * (X ^ 2 / ((m + 1) * (m + 2))) := by
    have hx : (x : ℝ) = X * sineOne := ((eq_div_iff hone.ne').1 hX).symm
    rw [Nat.factorial_succ, Nat.factorial_succ]
    push_cast
    rw [hx]
    field_simp
    ring
  have hscaled : |((t : ℝ) - sineOne * (X ^ m / m.factorial)) * (X ^ 2 / ((m + 1) * (m + 2)))| ≤ e * 2 := by
    rw [abs_mul, abs_of_nonneg (a := X ^ 2 / ((m + 1) * (m + 2))) (by positivity)]
    exact mul_le_mul ht hfactor (by positivity) ((abs_nonneg _).trans ht)
  rw [← hquot] at hscaled
  linarith [abs_sub_le ((t * (x * x) / ((m + 1) * (m + 1 + 1) * sineOne ^ 2) : Nat) : ℝ)
    (((t * (x * x) : Nat) : ℝ) / ((m + 1) * (m + 1 + 1) * sineOne ^ 2 : Nat)) (sineOne * (X ^ (m + 2) / (m + 2).factorial))]

/-- The model's series is the Taylor sum but for the errors of its terms, which at worst double from term to term. -/
theorem altSeries_error (hX : X = x / sineOne) (h2 : X ≤ 2) (n : Nat) {m t : Nat} {e : ℝ}
    (ht : |(t : ℝ) - sineOne * (X ^ m / m.factorial)| ≤ e) :
    |(altSeries (x * x) n (m + 1) t : ℝ) - sineOne * taylorSum X n m| ≤ (2 ^ n - 1) * (e + 1) := by
  induction n generalizing m t e with
  | zero => simp [altSeries, taylorSum]
  | succ n ih =>
    have hrest := ih (term_error hX h2 ht)
    have htri := abs_sub (t - sineOne * (X ^ m / m.factorial))
      ((altSeries (x * x) n (m + 2 + 1) (t * (x * x) / ((m + 1) * (m + 1 + 1) * sineOne ^ 2)) : ℝ) -
        sineOne * taylorSum X n (m + 2))
    have hsplit : (altSeries (x * x) (n + 1) (m + 1) t : ℝ) - sineOne * taylorSum X (n + 1) m =
        (t - sineOne * (X ^ m / m.factorial)) -
          ((altSeries (x * x) n (m + 2 + 1) (t * (x * x) / ((m + 1) * (m + 1 + 1) * sineOne ^ 2)) : ℝ) -
            sineOne * taylorSum X n (m + 2)) := by
      rw [altSeries, taylorSum, show m + 1 + 2 = m + 2 + 1 by omega]
      push_cast
      ring
    rw [hsplit, show (2 : ℝ) ^ (n + 1) = 2 * 2 ^ n from pow_succ' ..]
    linarith

/-! ### One quadrant -/

/-- Keeping a value within [0, n] takes it no farther from a point of that range. -/
theorem abs_clamp_sub_le (z : ℤ) (n : Nat) (h0 : 0 ≤ y) (hn : y ≤ n) : |((min z.toNat n : Nat) : ℝ) - y| ≤ |(z : ℝ) - y| := by
  rcases le_total z 0 with hz | hz
  · have hz' : (z : ℝ) ≤ 0 := by exact_mod_cast hz
    rw [Int.toNat_of_nonpos hz, Nat.zero_min, Nat.cast_zero, abs_of_nonpos (by linarith), abs_of_nonpos (by linarith)]
    linarith
  obtain ⟨k, rfl⟩ := Int.eq_ofNat_of_zero_le hz
  rw [Int.toNat_natCast, Int.cast_natCast]
  rcases le_total k n with hk | hk
  · rw [min_eq_left hk]
  · have hk' : (n : ℝ) ≤ k := by exact_mod_cast hk
    rw [min_eq_right hk, abs_of_nonneg (by linarith), abs_of_nonneg (by linarith)]
    linarith

/-- The clamped series of 32 terms, from an exact first term, against a value near that of its Taylor sum. -/
theorem clamped_series_error (hX : X = x / sineOne) (h2 : X ≤ 2) {m t : Nat} (ht : (t : ℝ) = sineOne * (X ^ m / m.factorial))
    {v δ : ℝ} (hv : |taylorSum X 32 m - v| ≤ 1 / 2 ^ 128) (hvy : |v - y| ≤ δ) (h0 : 0 ≤ y) (h1 : y ≤ 1) :
    |((min (altSeries (x * x) 32 (m + 1) t).toNat sineOne : Nat) : ℝ) / sineOne - y| ≤ δ + 1 / 2 ^ 64 := by
  have hone := cast_sineOne_pos
  have hseries := altSeries_error hX h2 32 (e := 0) (m := m) (t := t) (by rw [ht, sub_self, abs_zero])
  have hsmall : (2 ^ 32 - 1) * (0 + 1) ≤ (1 / 2 ^ 128 : ℝ) * sineOne := by norm_num [sineOne]
  have hsum : |(altSeries (x * x) 32 (m + 1) t : ℝ) / sineOne - taylorSum X 32 m| ≤ 1 / 2 ^ 128 := by
    rw [div_sub' hone.ne', abs_div, abs_of_pos hone, div_le_iff₀ hone]
    exact hseries.trans hsmall
  have hclamp := abs_clamp_sub_le (altSeries (x * x) 32 (m + 1) t) sineOne (mul_nonneg hone.le h0)
    (mul_le_of_le_one_right hone.le h1)
  calc |((min (altSeries (x * x) 32 (m + 1) t).toNat sineOne : Nat) : ℝ) / sineOne - y|
      ≤ |(altSeries (x * x) 32 (m + 1) t : ℝ) / sineOne - y| := by
        rw [div_sub' hone.ne', div_sub' hone.ne', abs_div, abs_div]
        gcongr
    _ ≤ |(altSeries (x * x) 32 (m + 1) t : ℝ) / sineOne - taylorSum X 32 m| + |taylorSum X 32 m - v| + |v - y| :=
        (abs_sub_le _ v _).trans (by gcongr; exact abs_sub_le ..)
    _ ≤ δ + 1 / 2 ^ 64 := by linarith [show (1 / 2 ^ 128 + 1 / 2 ^ 128 : ℝ) ≤ 1 / 2 ^ 64 by norm_num]

section Quadrant
variable (h2 : (x : ℝ) / sineOne ≤ 2)
include h2

theorem sinFix_error (h0 : 0 ≤ Real.sin θ) :
    |(sinFix x : ℝ) / sineOne - Real.sin θ| ≤ |(x : ℝ) / sineOne - θ| + 1 / 2 ^ 64 :=
  clamped_series_error rfl h2 (m := 1) (by simp [mul_div_cancel₀, cast_sineOne_pos.ne'])
    (taylorSum_error (by positivity) h2).2 (Real.abs_sin_sub_sin_le ..) h0 (Real.sin_le_one θ)

theorem cosFix_error (h0 : 0 ≤ Real.cos θ) :
    |(cosFix x : ℝ) / sineOne - Real.cos θ| ≤ |(x : ℝ) / sineOne - θ| + 1 / 2 ^ 64 :=
  clamped_series_error rfl h2 (m := 0) (by simp)
    (taylorSum_error (by positivity) h2).1 (Real.abs_cos_sub_cos_le ..) h0 (Real.cos_le_one θ)

end Quadrant

/-! ### The angle and its quadrant -/

theorem halfPi_error : |(halfPi : ℝ) / sineOne - Real.pi / 2| ≤ 1 / (2 * 10 ^ 20) := by
  have hlo := Real.pi_gt_d20
  have hhi := Real.pi_lt_d20
  rw [abs_le]
  norm_num [halfPi, sineOne] at hlo hhi ⊢
  constructor <;> linarith

/-- The angle within its quadrant, r/c of a right angle. -/
theorem quadrant_angle_error {r : Nat} (hc : 0 < c) (hr : r ≤ c) :
    |((halfPi * r / c : Nat) : ℝ) / sineOne - Real.pi / 2 * (r / c)| ≤ 1 / 10 ^ 20 := by
  have hone := cast_sineOne_pos
  have hc' : (0 : ℝ) < c := by exact_mod_cast hc
  have hrc : (r : ℝ) / c ≤ 1 := by rw [div_le_one hc']; exact_mod_cast hr
  have hfloor : |((halfPi * r / c : Nat) : ℝ) / sineOne - (halfPi * r : Nat) / c / sineOne| ≤ 1 / sineOne := by
    rw [← sub_div, abs_div, abs_of_pos hone]
    gcongr
    exact abs_cast_div_sub_le _ _
  have hpi : |((halfPi * r : Nat) : ℝ) / c / sineOne - Real.pi / 2 * (r / c)| ≤ 1 / (2 * 10 ^ 20) := by
    rw [show ((halfPi * r : Nat) : ℝ) / c / sineOne - Real.pi / 2 * (r / c) =
      (halfPi / sineOne - Real.pi / 2) * (r / c) by push_cast; ring, abs_mul, abs_of_nonneg (a := (r / c : ℝ)) (by positivity)]
    calc _ ≤ 1 / (2 * 10 ^ 20) * (1 : ℝ) := mul_le_mul halfPi_error hrc (by positivity) (by positivity)
      _ = _ := mul_one _
  have htiny : (1 / sineOne : ℝ) ≤ 1 / (2 * 10 ^ 20) := by norm_num [sineOne]
  linarith [abs_sub_le (((halfPi * r / c : Nat) : ℝ) / sineOne) ((halfPi * r : Nat) / c / sineOne) (Real.pi / 2 * (r / c))]

theorem quadrant_angle_le {r : Nat} (hc : 0 < c) (hr : r ≤ c) : ((halfPi * r / c : Nat) : ℝ) / sineOne ≤ 2 := by
  have hle : halfPi * r / c ≤ 2 * sineOne :=
    calc halfPi * r / c ≤ halfPi * c / c := by gcongr
      _ = halfPi := Nat.mul_div_cancel _ hc
      _ ≤ 2 * sineOne := by decide
  rw [div_le_iff₀ cast_sineOne_pos]
  exact_mod_cast hle

/-- Sine and cosine of the angle within the quadrant, both of them nonnegative, come out within 2^-62. -/
theorem quadrant_error {r : Nat} (hc : 0 < c) (hr : r ≤ c) :
    |(sinFix (halfPi * r / c) : ℝ) / sineOne - Real.sin (Real.pi / 2 * (r / c))| ≤ 1 / 2 ^ 62 ∧
    |(cosFix (halfPi * r / c) : ℝ) / sineOne - Real.cos (Real.pi / 2 * (r / c))| ≤ 1 / 2 ^ 62 := by
  have hpi := Real.pi_pos
  have hrc : (r : ℝ) / c ≤ 1 := by rw [div_le_one (Nat.cast_pos.2 hc)]; exact_mod_cast hr
  have h0 : 0 ≤ Real.pi / 2 * (r / c) := by positivity
  have h1 : Real.pi / 2 * (r / c) ≤ Real.pi / 2 := mul_le_of_le_one_right (by positivity) hrc
  have h2 := quadrant_angle_le hc hr
  have htol : |((halfPi * r / c : Nat) : ℝ) / sineOne - Real.pi / 2 * (r / c)| + 1 / 2 ^ 64 ≤ 1 / 2 ^ 62 := by
    linarith [quadrant_angle_error hc hr, show (1 / 10 ^ 20 + 1 / 2 ^ 64 : ℝ) ≤ 1 / 2 ^ 62 by norm_num]
  exact ⟨(sinFix_error h2 (Real.sin_nonneg_of_nonneg_of_le_pi h0 (by linarith))).trans htol,
    (cosFix_error h2 (Real.cos_nonneg_of_neg_pi_div_two_le_of_le (by linarith) h1)).trans htol⟩

/-- The angle is that within the quadrant and 4i/c right angles. -/
theorem angle_eq (hc : 0 < c) (i : Nat) :
    2 * Real.pi * i / c = Real.pi / 2 * ((4 * i % c : Nat) / c) + (4 * i / c : Nat) * (Real.pi / 2) := by
  have hc' : (0 : ℝ) < c := Nat.cast_pos.2 hc
  have h4i : (4 * i : ℝ) = c * (4 * i / c : Nat) + (4 * i % c : Nat) := by exact_mod_cast (Nat.div_add_mod (4 * i) c).symm
  field_simp
  linarith

/-- The fixed-point sine is within 2^-62 of the real one: in each quadrant it is, but for its sign, the sine or the cosine of the
angle left. -/
theorem sineApprox_error (hc : 0 < c) (hi : i < c) :
    |(sineApprox c i : ℝ) / sineOne - Real.sin (2 * Real.pi * i / c)| ≤ 1 / 2 ^ 62 := by
  obtain ⟨hsin, hcos⟩ := quadrant_error hc (Nat.mod_lt (4 * i) hc).le
  have hq : 4 * i / c < 4 := by rw [Nat.div_lt_iff_lt_mul hc]; omega
  rw [angle_eq hc i]
  unfold sineApprox
  generalize Real.pi / 2 * ((4 * i % c : Nat) / c : ℝ) = θ at *
  dsimp only
  interval_cases 4 * i / c
  · simpa using hsin
  · simpa [Real.sin_add_pi_div_two] using hcos
  · rw [show θ + (2 : Nat) * (Real.pi / 2) = θ + Real.pi by push_cast; ring, Real.sin_add_pi]
    simp only [Int.cast_neg, Int.cast_natCast, neg_div, neg_sub_neg]
    rwa [abs_sub_comm]
  · rw [show θ + (3 : Nat) * (Real.pi / 2) = θ + Real.pi / 2 + Real.pi by push_cast; ring, Real.sin_add_pi,
      Real.sin_add_pi_div_two]
    simp only [Int.cast_neg, Int.cast_natCast, neg_div, neg_sub_neg]
    rwa [abs_sub_comm]

/-! ### The ROM -/

/-- A distance between rationals is the same between the reals. -/
theorem abs_cast_sub_div (q : ℚ) (n : ℤ) (d : Nat) : |(q : ℝ) - n / d| = ((|q - n / d| : ℚ) : ℝ) := by
  push_cast
  rfl

theorem abs_val_sineRounded_sub_le (c i : Nat) :
    |((val (sineRounded c i) : ℚ) : ℝ) - sineApprox c i / sineOne| ≤ 1 / 2 ^ 25 := by
  rw [abs_cast_sub_div]
  exact (Rat.cast_le.2 (abs_val_rne32_sub_le sineOne_pos (natAbs_sineApprox_le c i))).trans_eq (by norm_num)

/-- No binary32 is nearer to the fixed-point sine than the default ROM's entry. -/
theorem sineRounded_nearest (c i : Nat) {b : Binary32} (hb : isFinite b = true) :
    |((val (sineRounded c i) : ℚ) : ℝ) - sineApprox c i / sineOne| ≤ |((val b : ℚ) : ℝ) - sineApprox c i / sineOne| := by
  obtain ⟨hnearest, -⟩ := rne32IsRoundToNearestEven
  rw [abs_cast_sub_div, abs_cast_sub_div]
  exact Rat.cast_le.2 (hnearest _ _ b sineOne_pos (sineRounded_inUnitRange c i).1 hb).1

/-- What S2 allows is within 10^-6 of the fixed-point sine. -/
theorem abs_val_sub_le_of_sineAllowed {v : Binary32} (h : sineAllowed c i v = true) :
    |((val v : ℚ) : ℝ) - sineApprox c i / sineOne| ≤ 1 / 10 ^ 6 := by
  simp only [sineAllowed, Bool.and_eq_true, decide_eq_true_eq] at h
  obtain ⟨-, hclose⟩ := h
  have hone : (0 : ℚ) < sineOne := Nat.cast_pos.2 sineOne_pos
  have hnum : ((|units v * sineOne - sineApprox c i * 2 ^ 149| : ℤ) : ℚ) * 10 ^ 6 ≤ sineOne * 2 ^ 149 := by
    rw [Int.abs_eq_natAbs]
    exact_mod_cast hclose
  have hval : |val v - (sineApprox c i : ℚ) / sineOne| ≤ 1 / 10 ^ 6 := by
    rw [abs_val_sub_div v _ sineOne_pos, div_le_div_iff₀ (by positivity) (by positivity)]
    linarith
  rw [abs_cast_sub_div]
  exact (Rat.cast_le.2 hval).trans_eq (by norm_num)

theorem abs_val_sineRom_other_sub_le (c i : Nat) :
    |((val (sineRom .other c i) : ℚ) : ℝ) - sineApprox c i / sineOne| ≤ 1 / 10 ^ 6 := by
  unfold sineRom
  dsimp only
  split
  · next h => exact abs_val_sub_le_of_sineAllowed h
  · exact (abs_val_sineRounded_sub_le c i).trans (by norm_num)

/-- Settles O41: every bound on the fixed-point sine is one on the real sine but for the 2^-62 of `sineApprox_error`, taken once or twice. -/
theorem sineRomIsWithinTolerance : Obligations.SineRomIsWithinTolerance := by
  intro c i hc _ hi
  have happrox := sineApprox_error hc hi
  have hrounded := abs_val_sineRounded_sub_le c i
  have hother := abs_val_sineRom_other_sub_le c i
  have hfrom (v : ℝ) := abs_sub_le v (sineApprox c i / sineOne) (Real.sin (2 * Real.pi * i / c))
  refine ⟨⟨sineRom_inUnitRange _ c i, ?_, ?_, fun b hb => ?_⟩, sineRom_inUnitRange _ c i, ?_⟩
  · refine (hfrom _).trans ((add_le_add hrounded happrox).trans ?_)
    norm_num
  · refine (hfrom _).trans ((add_le_add hrounded happrox).trans ?_)
    norm_num
  · have hb' := abs_sub_le ((val b : ℚ) : ℝ) (Real.sin (2 * Real.pi * i / c)) (sineApprox c i / sineOne)
    rw [abs_sub_comm (Real.sin _)] at hb'
    calc |((val (sineRounded c i) : ℚ) : ℝ) - Real.sin (2 * Real.pi * i / c)|
        ≤ |((val b : ℚ) : ℝ) - sineApprox c i / sineOne| + 1 / 2 ^ 62 :=
          (hfrom _).trans (add_le_add (sineRounded_nearest c i hb) happrox)
      _ ≤ |((val b : ℚ) : ℝ) - Real.sin (2 * Real.pi * i / c)| + 1 / 2 ^ 62 + 1 / 2 ^ 62 := by linarith
      _ ≤ |((val b : ℚ) : ℝ) - Real.sin (2 * Real.pi * i / c)| + 1 / 2 ^ 60 := by
          rw [add_assoc]
          gcongr
          norm_num
  · refine (hfrom _).trans ((add_le_add hother happrox).trans ?_)
    gcongr <;> norm_num

end Sys2Proof.Machine
end

section
/-! The oscillator: the arithmetic of the phase accumulator (41_oscillator.md R131, R133), which words run OINIT, OFREQ and OSTEP, their checks in
order and their effect (R132, R134, R135), what else can change a slot (R139), and the sequences the slots return (R136 to R138)
(O10 to O12, O25, O34, O35, O37, O38). -/

namespace Sys2Proof.Machine

open Sys2Proof

variable {s t u : State} {w : Command} {turn : Turn}

/-! ### The phase accumulator -/

theorem modulus_lt {sl : Slot} {cap : Nat} (h : cap ≤ 2 ^ 20) : sl.modulus cap < 2 ^ 56 := by
  have hrate := sl.rate.isLt
  calc cap * (sl.rate.toNat * 2 ^ 16) ≤ 2 ^ 20 * (sl.rate.toNat * 2 ^ 16) := Nat.mul_le_mul_right _ h
    _ < 2 ^ 56 := by omega

theorem stepSize_lt {sl : Slot} {cap : Nat} (h : cap ≤ 2 ^ 20) : sl.stepSize cap < 2 ^ 52 := by
  have hfreq := sl.freq.isLt
  calc sl.freq.toNat * cap ≤ sl.freq.toNat * 2 ^ 20 := Nat.mul_le_mul_left _ h
    _ < 2 ^ 52 := by omega

/-- Settles O34: the widths follow from F < 2^32, SR < 2^20 and CAP ≤ 2^20, and the advance reduces modulo M > 0. -/
theorem lookupAddressStaysInTheTable : Obligations.LookupAddressStaysInTheTable := by
  intro sl cap hrate hcap hmax hphase
  have hM := modulus_lt (sl := sl) hmax
  have hS := stepSize_lt (sl := sl) hmax
  refine ⟨(Rat.floor_natCast_div_natCast _ _).symm, address_lt hphase, ?_, hM, hS, by omega,
    Nat.mod_lt _ (modulus_pos (Nat.ne_of_gt hcap) hrate)⟩
  have hwidth := sl.rate.isLt
  show sl.rate.toNat * 2 ^ 16 < 2 ^ 36
  omega

/-- The slot after n advances (41_oscillator.md R133). -/
def Slot.advances (sl : Slot) (cap n : Nat) : Slot := (fun x => x.advance cap)^[n] sl

theorem advances_succ (sl : Slot) (cap n : Nat) : sl.advances cap (n + 1) = (sl.advances cap n).advance cap :=
  Function.iterate_succ_apply' ..

/-- The slot that OINIT writes (41_oscillator.md R132). -/
def Slot.fresh (freq sr : Nat) : Slot := { freq := freqOperand freq, rate := rateOperand sr, phase := 0 }

/-- The slot that OFREQ writes (41_oscillator.md R135). -/
def Slot.withFreq (sl : Slot) (freq : Nat) : Slot := { sl with freq := freqOperand freq }

/-- n advances add n steps, reduced modulo M once (41_oscillator.md R133). -/
theorem advances_eq {sl : Slot} {cap : Nat} (h : sl.phase < sl.modulus cap) (n : Nat) :
    sl.advances cap n = { sl with phase := (sl.phase + n * sl.stepSize cap) % sl.modulus cap } := by
  induction n with
  | zero => simp [Slot.advances, Nat.mod_eq_of_lt h]
  | succ n ih =>
    rw [advances_succ, ih]
    show ({ sl with phase := ((sl.phase + n * sl.stepSize cap) % sl.modulus cap + sl.stepSize cap) % sl.modulus cap } : Slot) = _
    rw [Nat.mod_add_mod, Nat.add_assoc, ← Nat.succ_mul]

/-- The address a slot reads after n advances (41_oscillator.md R131, R137). -/
theorem address_advances {sl : Slot} {cap : Nat} (h : sl.phase < sl.modulus cap) (n : Nat) :
    (sl.advances cap n).address =
      (sl.phase + n * (sl.freq.toNat * cap)) % (cap * (sl.rate.toNat * 2 ^ 16)) / (sl.rate.toNat * 2 ^ 16) := by
  rw [advances_eq h]
  rfl

/-- The phase stays below M, and M stays what it was. -/
theorem phase_advances_lt {sl : Slot} {cap : Nat} (h : sl.phase < sl.modulus cap) (n : Nat) :
    (sl.advances cap n).phase < (sl.advances cap n).modulus cap := by
  rw [advances_eq h]
  exact Nat.mod_lt _ (Nat.zero_lt_of_lt h)

/-- The law's index in whole numbers: the phase (n·F·CAP) mod M of a slot that started at 0, divided by D (41_oscillator.md R131, R136). -/
theorem lawIndex_eq (n freq cap : Nat) {sr : Nat} (h : 1 ≤ sr) :
    lawIndex n freq cap sr = n * (freq * cap) % (cap * (sr * 2 ^ 16)) / (sr * 2 ^ 16) := by
  have hd : ((sr * 2 ^ 16 : Nat) : ℚ) ≠ 0 := by positivity
  have hx : (n : ℚ) * ((freq : ℚ) / 2 ^ 16) * cap / sr = (n * (freq * cap) : Nat) / (sr * 2 ^ 16 : Nat) := by
    have : (sr : ℚ) ≠ 0 := by positivity
    push_cast
    field_simp
    ring
  rw [lawIndex, hx]
  generalize n * (freq * cap) = a
  generalize sr * 2 ^ 16 = d at *
  have hquot : ⌊(a : ℚ) / d / cap⌋ = ((a / (cap * d) : Nat) : ℤ) := by
    rw [div_div, ← Nat.cast_mul, mul_comm d, Rat.floor_natCast_div_natCast, Int.natCast_div]
  have hmod : ratMod ((a : ℚ) / d) cap = ((a % (cap * d) : Nat) : ℚ) / d := by
    have hsplit : ((cap * d * (a / (cap * d)) + a % (cap * d) : Nat) : ℚ) = a := by rw [Nat.div_add_mod]
    rw [ratMod, hquot, Int.cast_natCast, eq_div_iff hd, sub_mul, div_mul_cancel₀ _ hd, ← hsplit, Nat.cast_add, Nat.cast_mul,
      Nat.cast_mul]
    ring
  rw [hmod, Nat.floor_div_eq_div]

/-- The law's index is the address a slot reads n advances after phase 0. -/
theorem lawIndex_eq_address {sl : Slot} {cap : Nat} (hcap : cap ≠ 0) (hrate : 1 ≤ sl.rate.toNat) (h0 : sl.phase = 0) (n : Nat) :
    lawIndex n sl.freq.toNat cap sl.rate.toNat = (sl.advances cap n).address := by
  rw [lawIndex_eq _ _ _ hrate, address_advances (h0 ▸ modulus_pos hcap hrate), h0, Nat.zero_add]

/-- On a filled table the address of a phase below M holds a value (41_oscillator.md R131). -/
theorem TableInv.exists_entry_of_phase (h : TableInv s) (hfull : s.tlen = s.cap) {sl : Slot}
    (hphase : sl.phase < sl.modulus s.cap) : ∃ v, s.table.readEntry sl.address = some v := by
  obtain ⟨v, hv, -⟩ := h.entries sl.address (by rw [hfull]; exact address_lt hphase)
  exact ⟨v, hv⟩

/-! ### A write of one slot -/

/-- The whole effect of a write of slot o (41_oscillator.md R132, R138). -/
theorem setSlot_frame {o : Nat} (h : o < s.slots.length) (sl : Slot) :
    (s.setSlot o sl).slot o = some sl ∧ (∀ p, p ≠ o → (s.setSlot o sl).slot p = s.slot p) ∧
    (s.setSlot o sl).slots.length = s.slots.length ∧ s.setSlot o sl = { s with slots := (s.setSlot o sl).slots } :=
  ⟨slot_setSlot_same s sl h, fun _ hp => slot_setSlot_other s sl hp.symm, List.length_set .., rfl⟩

/-- Of two writes of RES and of one slot, the later ones stand. -/
theorem setSlot_setRes_twice (s : State) (o : Nat) (sl sl' : Slot) (v v' : BitVec 64) :
    (((s.setSlot o sl).setRes v).setSlot o sl').setRes v' = (s.setSlot o sl').setRes v' := by
  simp only [State.setSlot, State.setRes, List.set_set]

/-! ### The commands where no check fails -/

theorem exec_oinit_of_checks {o freq sr : Nat} (ho : o < s.cfg.nOsc) (hf : freq ≠ 0) (hr : sr ≠ 0) (hcap : s.cap ≠ 0)
    (hfull : s.tlen = s.cap) (hown : ¬(o = 0 ∧ s.sen = true)) :
    exec (.oinit o freq sr) s = .next (s.setSlot o (Slot.fresh freq sr)) := by
  simp only [exec, execOinit, if_neg ho.not_ge, if_neg hf, if_neg hr, if_neg hcap, if_neg (not_not.2 hfull), if_neg hown,
    Slot.fresh]

theorem exec_ofreq_of_checks {o freq : Nat} {sl : Slot} (ho : o < s.cfg.nOsc) (hf : freq ≠ 0) (hsl : s.slot o = some sl) :
    exec (.ofreq o freq) s = .next (s.setSlot o (sl.withFreq freq)) := by
  simp only [exec, execOfreq, if_neg ho.not_ge, if_neg hf, hsl, Slot.withFreq]

theorem exec_ostep_of_checks {o : Nat} {sl : Slot} {a : Binary32} (ho : o < s.cfg.nOsc) (hsl : s.slot o = some sl)
    (hown : ¬(o = 0 ∧ s.sen = true)) (ha : s.table.readEntry sl.address = some a) :
    exec (.ostep o) s = .next ((s.setSlot o (sl.advance s.cap)).setRes (zext64 a)) := by
  simp only [exec, execOstep, if_neg ho.not_ge, hsl, if_neg hown, oscStep_eq_some.2 ⟨ha, rfl⟩]

/-! ### The commands follow their rules -/

theorem spells_oinit_iff (hop : opField w = Opcode.oinit.code) : Opcode.oinit.spells w = true ↔ rsvField w = 0 := by
  rw [spells_iff]
  simp only [hop, true_and, Opcode.fixes, Bool.false_eq_true, false_implies, and_true]

theorem spells_ofreq_iff (hop : opField w = Opcode.ofreq.code) :
    Opcode.ofreq.spells w = true ↔ rsvField w = 0 ∧ bField w = 0 := by
  rw [spells_iff]
  simp only [hop, true_and, Opcode.fixes, Bool.false_eq_true, false_implies, true_implies, and_true]

theorem spells_ostep_iff (hop : opField w = Opcode.ostep.code) :
    Opcode.ostep.spells w = true ↔ rsvField w = 0 ∧ bField w = 0 ∧ aField w = 0 := by
  rw [spells_iff]
  simp only [hop, true_and, Opcode.fixes, Bool.false_eq_true, false_implies, true_implies, and_true,
    and_comm (a := aField w = 0)]

/-- Settles O10: each check stands behind the failure of those before it, and STATUS shows the OV that OINIT sets. -/
theorem oinitFollowsItsRule : Obligations.OinitFollowsItsRule := by
  refine ⟨fun w s hop => runCommand_of_opField (o := .oinit) hop (spells_oinit_iff hop) s,
    fun o freq sr s => ⟨fun ho => ?_, fun ho hf => ?_, fun ho hf hr => ?_, fun ho hf hr hcap => ?_, fun ho hf hr hcap hne => ?_,
      fun ho hf hr hcap hfull h0 hsen => ?_, fun ho hf hr hcap hfull hown hmax hlen => ?_⟩⟩
  · exact if_pos ho
  · exact (if_neg ho.not_ge).trans (if_pos hf)
  · exact (if_neg ho.not_ge).trans ((if_neg hf).trans (if_pos hr))
  · simp only [exec, execOinit, if_neg ho.not_ge, if_neg hf, if_neg hr, if_pos hcap]
  · simp only [exec, execOinit, if_neg ho.not_ge, if_neg hf, if_neg hr, if_neg hcap, if_pos hne]
  · simp only [exec, execOinit, if_neg ho.not_ge, if_neg hf, if_neg hr, if_neg hcap, if_neg (not_not.2 hfull),
      if_pos (And.intro h0 hsen)]
  · obtain ⟨hsame, hother, hlength, hframe⟩ := setSlot_frame (ho.trans_eq hlen.symm) (Slot.fresh freq sr)
    refine ⟨_, exec_oinit_of_checks ho hf hr hcap hfull hown, hsame, hother, hlength, hframe, ?_⟩
    rw [getLsbD_status, if_neg (by omega), if_neg (by omega), if_neg (by omega), Nat.add_sub_cancel_left,
      getLsbD_ovField _ (by omega), State.ov, hsame]
    exact (Bool.and_true _).trans (decide_eq_true ho)

/-- Settles O11: the row fixes B and A; a live slot is one of the slots there are, so the write is read back. -/
theorem ostepFollowsItsRule : Obligations.OstepFollowsItsRule := by
  refine ⟨fun w s hop => runCommand_of_opField (o := .ostep) hop (spells_ostep_iff hop) s,
    fun o s => ⟨fun ho => if_pos ho, fun ho hsl => ?_, fun ho hsl h0 hsen => ?_, fun sl a ho hsl hown ha => ?_⟩⟩
  · simp only [exec, execOstep, if_neg ho.not_ge, hsl]
  · obtain ⟨sl, hsl⟩ := Option.ne_none_iff_exists'.1 hsl
    simp only [exec, execOstep, if_neg ho.not_ge, hsl, if_pos (And.intro h0 hsen)]
  · obtain ⟨hsame, hother, hlength, -⟩ := setSlot_frame (lt_length_of_slot s hsl) (sl.advance s.cap)
    exact ⟨_, exec_ostep_of_checks ho hsl hown ha, rfl, hsame, hother, hlength, rfl⟩

/-- Settles O12: the row fixes B; no check of OFREQ asks for the stream. -/
theorem ofreqFollowsItsRule : Obligations.OfreqFollowsItsRule := by
  refine ⟨fun w s hop => runCommand_of_opField (o := .ofreq) hop (spells_ofreq_iff hop) s,
    fun o freq s => ⟨fun ho => if_pos ho, fun ho hf => (if_neg ho.not_ge).trans (if_pos hf), fun ho hf hsl => ?_,
      fun sl ho hf hsl => ⟨_, exec_ofreq_of_checks ho hf hsl, setSlot_frame (lt_length_of_slot s hsl) _⟩⟩⟩
  simp only [exec, execOfreq, if_neg ho.not_ge, if_neg hf, hsl]

/-! ### What changes a slot or the stream -/

/-- The command is one of the three that write slot o (41_oscillator.md R132, R134, R135). -/
def WritesSlot (o : Nat) (i : Instr) : Prop := (∃ f r, i = .oinit o f r) ∨ (∃ f, i = .ofreq o f) ∨ i = .ostep o

/-- From s to t no live slot is lost and no stream configuration changes (41_oscillator.md R139, 10_state.md R33). -/
def Persists (s t : State) : Prop :=
  (∀ o, s.ov o = true → t.ov o = true) ∧ ∀ st, s.stream = some st → t.stream = some st

theorem persists_of_eq (hslots : t.slots = s.slots := by simp) (hstream : t.stream = s.stream := by simp) : Persists s t :=
  ⟨fun o h => (ov_congr hslots o).trans h, fun _ h => hstream.trans h⟩

theorem persists_setSlot (s : State) (o : Nat) (sl : Slot) : Persists s (s.setSlot o sl) :=
  ⟨fun _ h => ov_setSlot h o sl, fun _ h => h⟩

/-- SSTART alone writes the stream, and only where there is none. -/
theorem Completes.persists {i : Instr} (h : Completes i s t) : Persists s t := by
  cases i with
  | tnew => obtain ⟨-, -, -, rfl⟩ := h; exact persists_of_eq
  | tfill => obtain ⟨-, -, -, -, rfl⟩ := h; exact persists_of_eq
  | tlen => obtain ⟨-, rfl⟩ := h; exact persists_of_eq
  | tread => obtain ⟨-, -, -, -, rfl⟩ := h; exact persists_of_eq
  | oinit => obtain ⟨-, -, -, -, -, -, rfl⟩ := h; exact persists_setSlot ..
  | ofreq => obtain ⟨-, -, -, -, rfl⟩ := h; exact persists_setSlot ..
  | ostep => obtain ⟨-, -, -, -, -, -, rfl⟩ := h; exact persists_setSlot s _ _
  | sstart => obtain ⟨_, -, -, -, hnone, -, rfl⟩ := h; exact ⟨fun _ h => h, fun st h => by rw [hnone] at h; cases h⟩
  | qconv => obtain ⟨-, -, -, -, rfl⟩ := h; exact persists_of_eq

theorem slot_setSlot_eq_or (s : State) (o p : Nat) (sl : Slot) : (s.setSlot o sl).slot p = s.slot p ∨ o = p :=
  (eq_or_ne o p).symm.imp_left (slot_setSlot_other s sl)

theorem Completes.slot_eq_or {i : Instr} (h : Completes i s t) (p : Nat) : t.slot p = s.slot p ∨ WritesSlot p i := by
  cases i with
  | tnew => obtain ⟨-, -, -, rfl⟩ := h; exact .inl rfl
  | tfill => obtain ⟨-, -, -, -, rfl⟩ := h; exact .inl rfl
  | tlen => obtain ⟨-, rfl⟩ := h; exact .inl rfl
  | tread => obtain ⟨-, -, -, -, rfl⟩ := h; exact .inl rfl
  | sstart => obtain ⟨-, -, -, -, -, -, rfl⟩ := h; exact .inl rfl
  | qconv => obtain ⟨-, -, -, -, rfl⟩ := h; exact .inl rfl
  | oinit o freq sr =>
    obtain ⟨-, -, -, -, -, -, rfl⟩ := h
    exact (slot_setSlot_eq_or s o p _).imp_right fun ho => .inl ⟨freq, sr, by rw [ho]⟩
  | ofreq o freq =>
    obtain ⟨-, -, -, -, rfl⟩ := h
    exact (slot_setSlot_eq_or s o p _).imp_right fun ho => .inr (.inl ⟨freq, by rw [ho]⟩)
  | ostep o =>
    obtain ⟨-, -, -, -, -, -, rfl⟩ := h
    exact (slot_setSlot_eq_or s o p _).imp_right fun ho => .inr (.inr (by rw [ho]))

theorem Did.persists (hd : Did turn u t) (hr : turn ≠ .reset) : Persists u t := by
  cases hd with
  | completed _ x w ws i _ _ _ hc => exact hc.persists
  | answered _ sl => exact persists_setSlot u 0 (sl.advance u.cap)
  | reset => exact absurd rfl hr
  | nothing | raised | burst | issued | wroteFrame | fault => exact persists_of_eq

/-- A turn other than reset leaves slot p alone, is the control step with p = 0, or completes the host's first command, which writes p. -/
theorem Did.slot_cases (hd : Did turn u t) (hr : turn ≠ .reset) (p : Nat) :
    t.slot p = u.slot p ∨ (p = 0 ∧ turn = .control) ∨
    (turn = .command ∧ ∃ w i, u.prog.head? = some w ∧ decode w = .ok i ∧ WritesSlot p i) := by
  cases hd with
  | completed _ x w ws i _ hp hdec hc =>
    exact (hc.slot_eq_or p).imp_right fun hi => .inr ⟨rfl, w, i, congrArg List.head? hp, hdec, hi⟩
  | answered _ sl => exact (slot_setSlot_eq_or u 0 p (sl.advance u.cap)).imp_right fun h => .inl ⟨h.symm, rfl⟩
  | reset => exact absurd rfl hr
  | nothing | raised | burst | issued | wroteFrame | fault => exact .inl (slot_congr (by simp) p)

/-- Settles O25: the schedule's first turn does one of the things `Did` lists, and none but reset clears a slot or the stream. -/
theorem slotsAndStreamPersistUntilReset : Obligations.SlotsAndStreamPersistUntilReset := by
  intro s t hstep hr
  obtain ⟨-, ⟨-, rfl⟩ | ⟨turn, rest, hs, hd⟩⟩ := step_did hstep
  · exact ⟨fun _ h => h, fun _ h => h, fun _ h => absurd rfl h⟩
  rw [hs] at hr ⊢
  have hturn : turn ≠ .reset := fun h => hr (congrArg some h)
  obtain ⟨hov, hstream⟩ := hd.persists hturn
  refine ⟨hov, hstream, fun o hne => ?_⟩
  rcases (hd.slot_cases hturn o).resolve_left hne with ⟨h0, rfl⟩ | ⟨rfl, hw⟩
  · exact .inl ⟨h0, rfl⟩
  · exact .inr ⟨rfl, hw⟩

/-! ### Runs of commands -/

theorem execAll_cons_eq_next {i : Instr} {is : List Instr} :
    execAll (i :: is) s = .next t ↔ ∃ u, exec i s = .next u ∧ execAll is u = .next t := by
  simp only [execAll]
  split
  · next u hu => simp [hu]
  · next hu => simp [hu]
  · next hu => simp [hu]

/-- No command ends the halt (60_exceptions.md R205). -/
theorem exec_halted {i : Instr} (h : exec i s = .next t) (hh : s.halted = true) : t.halted = true := by
  rcases exec_cases h with ⟨f, rfl⟩ | hc
  · rfl
  · exact hc.halted_eq.trans hh

theorem execAll_halted {is : List Instr} (h : execAll is s = .next t) (hh : s.halted = true) : t.halted = true := by
  induction is generalizing s with
  | nil => cases h; exact hh
  | cons i is ih =>
    obtain ⟨u, hu, h⟩ := execAll_cons_eq_next.1 h
    exact ih h (exec_halted hu hh)

/-- Where the host may step a live slot, OSTEP answers iff its entry holds a value. -/
theorem exec_ostep_eq_next {o : Nat} {sl : Slot} (ho : o < s.cfg.nOsc) (hsl : s.slot o = some sl) (hown : ¬(o = 0 ∧ s.sen = true)) :
    exec (.ostep o) s = .next t ↔
      ∃ a, s.table.readEntry sl.address = some a ∧ t = (s.setSlot o (sl.advance s.cap)).setRes (zext64 a) := by
  cases ha : s.table.readEntry sl.address with
  | none => simp [exec, execOstep, ho.not_ge, hsl, hown, State.oscStep, ha]
  | some a => simp [exec_ostep_of_checks ho hsl hown ha, eq_comm]

/-- n+1 OSTEPs of a live slot answer iff the n+1 entries they read hold values; RES then holds the last one, and the slot has advanced
n+1 times (41_oscillator.md R133, R134). -/
theorem execAll_ostep_eq_next {o : Nat} {sl : Slot} (ho : o < s.cfg.nOsc) (hsl : s.slot o = some sl)
    (hown : ¬(o = 0 ∧ s.sen = true)) (n : Nat) :
    execAll (List.replicate (n + 1) (.ostep o)) s = .next t ↔
      (∀ k < n, ∃ a, s.table.readEntry (sl.advances s.cap k).address = some a) ∧
      ∃ v, s.table.readEntry (sl.advances s.cap n).address = some v ∧
        t = (s.setSlot o (sl.advances s.cap (n + 1))).setRes (zext64 v) := by
  induction n generalizing s sl with
  | zero =>
    rw [List.replicate_succ, execAll_cons_eq_next]
    simp only [exec_ostep_eq_next ho hsl hown]
    simp [execAll, Slot.advances, eq_comm]
  | succ n ih =>
    have hnext (a : Binary32) := ih (s := (s.setSlot o (sl.advance s.cap)).setRes (zext64 a)) ho
      (slot_setSlot_same s (sl.advance s.cap) (lt_length_of_slot s hsl)) hown
    rw [List.replicate_succ, execAll_cons_eq_next]
    simp only [exec_ostep_eq_next ho hsl hown]
    constructor
    · rintro ⟨u, ⟨a, ha, rfl⟩, h⟩
      obtain ⟨hk, v, hv, rfl⟩ := (hnext a).1 h
      exact ⟨Nat.forall_lt_succ_left.2 ⟨⟨a, ha⟩, hk⟩, v, hv, setSlot_setRes_twice s o _ _ _ _⟩
    · rintro ⟨hk, v, hv, rfl⟩
      obtain ⟨⟨a, ha⟩, hk⟩ := Nat.forall_lt_succ_left.1 hk
      exact ⟨_, ⟨a, ha, rfl⟩, (hnext a).2 ⟨hk, v, hv, (setSlot_setRes_twice s o _ _ _ _).symm⟩⟩

/-- n+1 OSTEPs of a slot below its modulus, on a filled table, answer with the entry at the phase n advances on. -/
theorem execAll_ostep_of_filled (ht : TableInv s) (hfull : s.tlen = s.cap) {o : Nat} {sl : Slot} (ho : o < s.cfg.nOsc)
    (hsl : s.slot o = some sl) (hown : ¬(o = 0 ∧ s.sen = true)) (hphase : sl.phase < sl.modulus s.cap) (n : Nat) :
    ∃ t v, execAll (List.replicate (n + 1) (.ostep o)) s = .next t ∧
      s.table.readEntry (sl.advances s.cap n).address = some v ∧ t.res = v.setWidth 64 := by
  have hentry (k : Nat) := ht.exists_entry_of_phase hfull (phase_advances_lt hphase k)
  obtain ⟨v, hv⟩ := hentry n
  exact ⟨_, v, (execAll_ostep_eq_next ho hsl hown n).2 ⟨fun k _ => hentry k, v, hv, rfl⟩, hv, rfl⟩

/-! ### The sequences the slots return -/

/-- Settles O35: a slot that started at 0 has phase (n·S) mod M after n advances, whose address is the law's index. -/
theorem exactSequenceLaw : Obligations.ExactSequenceLaw := by
  refine ⟨fun s sl n ht hcap hfull hrate h0 => ?_, fun s o freq sr n _ ht hlen ho hf hf' hr hr' hcap hfull hown => ?_⟩
  · have hphase : sl.phase < sl.modulus s.cap := h0 ▸ modulus_pos hcap hrate
    obtain ⟨v, hv⟩ := ht.exists_entry_of_phase hfull (phase_advances_lt hphase n)
    exact ⟨v, _, oscStep_eq_some.2 ⟨hv, rfl⟩, by rwa [lawIndex_eq_address hcap hrate h0]⟩
  · have hfreq : (Slot.fresh freq sr).freq.toNat = freq := toNat_freqOperand hf'
    have hrate : (Slot.fresh freq sr).rate.toNat = sr := toNat_rateOperand hr'
    have hpos : 1 ≤ (Slot.fresh freq sr).rate.toNat := hr.trans_eq hrate.symm
    have hphase : (Slot.fresh freq sr).phase < (Slot.fresh freq sr).modulus s.cap := modulus_pos hcap hpos
    have hindex : lawIndex n freq s.cap sr = ((Slot.fresh freq sr).advances s.cap n).address := by
      rw [← lawIndex_eq_address hcap hpos rfl, hfreq, hrate]
    obtain ⟨t, v, hrun, hv, hres⟩ := execAll_ostep_of_filled (s := s.setSlot o (Slot.fresh freq sr)) ht.congr hfull ho
      (slot_setSlot_same _ _ (ho.trans_eq hlen.symm)) hown hphase n
    rw [hindex]
    exact ⟨t, v, execAll_cons_eq_next.2 ⟨_, exec_oinit_of_checks ho (Nat.ne_of_gt hf) (Nat.ne_of_gt hr) hcap hfull hown, hrun⟩,
      address_lt (phase_advances_lt hphase n), hv, hres⟩

/-- A slot with another frequency after m advances: P and D stay, S is the new frequency's step (41_oscillator.md R137). -/
theorem address_withFreq_advances {sl : Slot} {cap freq : Nat} (hf : freq < 2 ^ 32) (h : sl.phase < sl.modulus cap) (m : Nat) :
    ((sl.withFreq freq).advances cap m).address =
      (sl.phase + m * (freq * cap)) % (cap * (sl.rate.toNat * 2 ^ 16)) / (sl.rate.toNat * 2 ^ 16) := by
  have hfreq : (sl.withFreq freq).freq.toNat = freq := toNat_freqOperand hf
  rw [address_advances (sl := sl.withFreq freq) h, hfreq]
  rfl

/-- Settles O37: OFREQ keeps the phase below the modulus, on which the frequency has no say. -/
theorem lawAfterFrequencyChange : Obligations.LawAfterFrequencyChange := by
  refine ⟨fun s o freq m sl ht hs ho hf hf' hsl => ?_, fun s o freq m sl _ ht hs ho hf hf' hsl hown => ?_⟩
  all_goals
    obtain ⟨-, hfull, -, -, hlt⟩ := hs.live o sl hsl
    have hphase : (sl.withFreq freq).phase < (sl.withFreq freq).modulus s.cap := hlt
    have hset := exec_ofreq_of_checks ho (Nat.ne_of_gt hf) hsl
    have hslot := slot_setSlot_same s (sl.withFreq freq) (lt_length_of_slot s hsl)
    rw [← address_withFreq_advances hf' hlt m]
  · obtain ⟨v, hv⟩ := ht.exists_entry_of_phase hfull (phase_advances_lt hphase m)
    exact ⟨_, _, v, _, hset, hslot, oscStep_eq_some.2 ⟨hv, rfl⟩, hv⟩
  · obtain ⟨t, v, hrun, hv, hres⟩ :=
      execAll_ostep_of_filled (s := s.setSlot o (sl.withFreq freq)) ht.congr hfull ho hslot hown hphase m
    exact ⟨t, v, execAll_cons_eq_next.2 ⟨_, hset, hrun⟩, hv, hres⟩

/-- A run of OINIT and n+1 OSTEPs that raises nothing: RES and the slot are those of the fresh slot advanced, and no other slot changes. -/
theorem execAll_oinit_ostep {o freq sr n : Nat} (hlen : s.slots.length = s.cfg.nOsc)
    (h : execAll (.oinit o freq sr :: List.replicate (n + 1) (.ostep o)) s = .next t) (hh : t.halted = false) :
    (∃ v, s.table.readEntry ((Slot.fresh freq sr).advances s.cap n).address = some v ∧ t.res = zext64 v) ∧
    t.slot o = some ((Slot.fresh freq sr).advances s.cap (n + 1)) ∧ ∀ p, p ≠ o → t.slot p = s.slot p := by
  obtain ⟨u, hu, h⟩ := execAll_cons_eq_next.1 h
  rcases execOinit_cases hu with ⟨f, -, rfl⟩ | ⟨ho, -, -, -, -, hown, rfl⟩
  · rw [execAll_halted h rfl] at hh
    cases hh
  obtain ⟨hsame, hother, hlength, -⟩ := setSlot_frame (ho.trans_eq hlen.symm) (Slot.fresh freq sr)
  obtain ⟨-, v, hv, rfl⟩ := (execAll_ostep_eq_next (s := s.setSlot o (Slot.fresh freq sr)) ho hsame hown n).1 h
  obtain ⟨hsame', hother', -⟩ :=
    setSlot_frame (ho.trans_eq (hlength.trans hlen).symm) ((Slot.fresh freq sr).advances s.cap (n + 1))
  exact ⟨⟨v, hv, rfl⟩, hsame', fun p hp => (hother' p hp).trans (hother p hp)⟩

/-- Settles O38: both runs read the same entry of the same table and leave the same slot. -/
theorem equalSlotsReturnEqualSequences : Obligations.EqualSlotsReturnEqualSequences := by
  intro s s' o o' freq sr n t t' htable hcap hlen hlen' _ _ h hh h' hh'
  obtain ⟨⟨v, hv, hres⟩, hslot, hother⟩ := execAll_oinit_ostep hlen h hh
  obtain ⟨⟨v', hv', hres'⟩, hslot', -⟩ := execAll_oinit_ostep hlen' h' hh'
  rw [← htable, ← hcap, hv] at hv'
  cases hv'
  exact ⟨hres.trans hres'.symm, by rw [hslot, hslot', hcap], hother⟩

end Sys2Proof.Machine
end

section
/-! Pairing of requests and responses (42_bridge.md R159): what each agent's step does to the one message there is, so that every step keeps the
pairing, whatever else the state holds (O52). -/

namespace Sys2Proof.Machine

open Sys2Proof

variable {s t u : State} {turn : Turn}

/-! ### The one message -/

/-- There is at most one message, and none while no request is outstanding (42_bridge.md R159). -/
theorem BridgeInv.messages_le_one (h : BridgeInv s) :
    s.reqq + s.respq.length ≤ 1 ∧ (s.pend = false → s.reqq + s.respq.length = 0) := by
  cases hb : s.bact with
  | false =>
    obtain ⟨hreqq, hrespq, -⟩ := h.idle hb
    simp [hreqq, hrespq]
  | true =>
    obtain ⟨-, -, -, hone⟩ := h.active hb
    refine ⟨by omega, fun hp => ?_⟩
    rw [hp, if_neg Bool.false_ne_true] at hone
    omega

theorem BridgeInv.emit_command (h : BridgeInv s) (w : Command) (oc : CommandOutcome) : BridgeInv (s.emit (.command w oc)) :=
  h.congr

theorem BridgeInv.beginBurst (h : BridgeInv s) {n : Nat} (he : s.burstEnabled n = true) : BridgeInv (s.beginBurst n) := by
  obtain ⟨-, hsen, hbact, hpos, hmax⟩ := burstEnabled_iff.1 he
  obtain ⟨hreqq, hrespq, hpend⟩ := h.idle hbact
  exact ⟨fun _ => ⟨hsen, hpos, hmax, by simp [hreqq, hrespq, hpend]⟩, fun hb => absurd hb (by simp), h.paired⟩

theorem BridgeInv.issue (h : BridgeInv s) (he : s.issueEnabled = true) :
    BridgeInv { s with reqq := s.reqq + 1, pend := true } := by
  obtain ⟨-, hbact, hpend, -⟩ := issueEnabled_iff.1 he
  obtain ⟨hsen, hbpos, hbn, hone⟩ := h.active hbact
  exact ⟨fun _ => ⟨hsen, hbpos, hbn, by simpa [hpend, add_right_comm] using hone⟩,
    fun hb => absurd (hb.symm.trans hbact) Bool.false_ne_true, h.paired⟩

theorem BridgeInv.answer (h : BridgeInv s) (hpos : 0 < s.reqq) (v : Binary32) :
    BridgeInv (({ s with reqq := s.reqq - 1, respq := s.respq ++ [v] } : State).emit (.ctlSample v)) := by
  obtain ⟨hbact, hpend, hreqq, hrespq⟩ := h.of_reqq_pos hpos
  obtain ⟨hsen, hbpos, hbn, -⟩ := h.active hbact
  exact ⟨fun _ => ⟨hsen, hbpos, hbn, by simp [hreqq, hrespq, hpend]⟩, fun hb => absurd (hb.symm.trans hbact) Bool.false_ne_true,
    by simp [h.paired]⟩

theorem BridgeInv.receiveFrame (h : BridgeInv s) (he : s.frameEnabled = true) {v : Binary32} {later : List Binary32}
    (hr : s.respq = v :: later) (st : Stream) (q : BitVec 64) :
    BridgeInv ((({ s with respq := later } : State).emit (.rndSample v)).writeFrame st q).finishBurst := by
  obtain ⟨-, hbact, hpend, -⟩ := frameEnabled_iff.1 he
  obtain ⟨hsen, hbpos, hbn, hone⟩ := h.active hbact
  simp only [hr, List.length_cons, hpend, if_true] at hone
  have hreqq : s.reqq = 0 := by omega
  obtain rfl : later = [] := List.length_eq_zero_iff.1 (by omega)
  constructor
  · intro hb
    have hne : s.bpos + 1 ≠ s.bn := fun heq => by simp [heq] at hb
    have hlt : s.bpos + 1 < s.bn := by omega
    exact ⟨by simpa [State.sen] using hsen, by simpa using hlt, by simpa using hbn, by simp [hreqq]⟩
  · intro _
    simp [hreqq]
  · rw [ctlSamples_finishBurst, rndSamples_finishBurst]
    simpa [hr] using h.paired

theorem bridgeInv_assertReset (s : State) : BridgeInv s.assertReset :=
  ⟨fun hb => absurd hb (by simp), fun _ => ⟨rfl, rfl, rfl⟩, rfl⟩

theorem Persists.sen (h : Persists s t) (hs : s.sen = true) : t.sen = true := by
  obtain ⟨st, hst⟩ := Option.isSome_iff_exists.1 hs
  rw [State.sen, h.2 st hst]
  rfl

/-- A command that completes leaves the bridge alone; SSTART among them only starts the stream. -/
theorem BridgeInv.completes (h : BridgeInv s) {i : Instr} (hc : Completes i s t) : BridgeInv t := by
  have hsen := hc.persists.sen
  rw [hc.frame]
  exact h.congr (hsen := hsen)

/-- What one turn does keeps the pairing, in every state that has it. -/
theorem Did.bridgeInv (hd : Did turn u t) (h : BridgeInv u) : BridgeInv t := by
  cases hd with
  | nothing => exact h
  | raised _ w ws f => exact BridgeInv.emit_command (s := (u.takeWord ws).raise f) h.congr ..
  | fault => exact h.congr
  | completed _ x w ws i _ _ _ hc => exact (BridgeInv.completes (s := u.takeWord ws) h.congr hc).emit_command ..
  | burst _ n later _ he => exact BridgeInv.beginBurst (s := { u with bursts := later }) h.congr he
  | issued _ he => exact h.issue he
  | answered _ sl a he =>
    obtain ⟨-, hpos, -⟩ := controlEnabled_iff.1 he
    exact (h.answer hpos (u.attenuate a)).congr
  | wroteFrame _ v later st q he hr => exact h.receiveFrame he hr st q
  | reset => exact bridgeInv_assertReset u

theorem step_bridgeInv (hstep : step s = .next t) (h : BridgeInv s) : BridgeInv t := by
  obtain ⟨-, ⟨-, rfl⟩ | ⟨turn, rest, -, hd⟩⟩ := step_did hstep
  · exact h
  · exact hd.bridgeInv h.congr

/-- The k-th sample received is the k-th computed (42_bridge.md R159). -/
theorem BridgeInv.received_eq_computed (h : BridgeInv s) {k : Nat} {v : Binary32} (hk : (rndSamples s.hist)[k]? = some v) :
    (ctlSamples s.hist)[k]? = some v := by
  obtain ⟨hlt, -⟩ := List.getElem?_eq_some_iff.1 hk
  rwa [h.paired, List.getElem?_append_left hlt]

/-- Settles O52: whatever the first turn does moves the one message on, or leaves the bridge alone. -/
theorem pairingIsKeptInEveryOrder : Obligations.PairingIsKeptInEveryOrder := by
  refine ⟨fun s t h hstep => step_bridgeInv hstep h, fun s h hl => ?_, invariantHoldsAtReset.bridge⟩
  obtain ⟨-, -, -, -, -, -, -, hqdepth, -⟩ := ranges_of_legal hl
  obtain ⟨hone, hnone⟩ := h.messages_le_one
  refine ⟨by omega, by omega, fun hp => ?_, fun _ => by omega, fun k v => h.received_eq_computed⟩
  have := hnone hp
  omega

end Sys2Proof.Machine
end

section
/-! The bridge's rules one by one (42_bridge.md R152 to R157, R161, R162, R167): SSTART, each agent's step in its turn, and final states
(O13, O29 to O33, O54). -/

namespace Sys2Proof.Machine

open Sys2Proof

variable {s : State} {w : Command} {st : Stream} {sl : Slot} {a v : Binary32} {later : List Binary32} {q : BitVec 64}

/-! ### The quantizer's answers -/

theorem quant_of_isNaN (mode : Config.QuantRound) (f : Format) (h : isNaN v = true) : quant mode f v = .error .qnan := if_pos h

/-- A pattern no wider than its format's bits still fits them when it is widened to 64. -/
theorem toNat_setWidth_lt {n : Nat} (x : BitVec n) : (x.setWidth 64).toNat < 2 ^ n :=
  (BitVec.toNat_setWidth ..).trans_lt ((Nat.mod_le ..).trans_lt x.isLt)

/-- What the quantizer answers is a pattern of its format's width (43_quantizer.md R181). -/
theorem quant_lt {mode : Config.QuantRound} {f : Format} (h : quant mode f v = .ok q) : q.toNat < 2 ^ formatWidth f := by
  unfold quant at h
  split at h
  · cases h
  injection h with h
  subst h
  cases f
  case f64 => exact BitVec.isLt _
  all_goals exact toNat_setWidth_lt _

/-- The quantizer answers for every pattern but a NaN (43_quantizer.md R181, R186). -/
theorem exists_quant (mode : Config.QuantRound) (f : Format) (h : isNaN v = false) : ∃ q, quant mode f v = .ok q :=
  ⟨_, if_neg (by simp [h])⟩

theorem InUnitRange.not_isNaN (h : InUnitRange v) : isNaN v = false := by
  rcases pattern_kinds v with ⟨-, -, hn⟩ | ⟨hf, -⟩ | ⟨hf, -⟩
  · exact hn
  all_goals exact absurd (hf.symm.trans h.1) Bool.false_ne_true

/-! ### SSTART -/

theorem spells_sstart_iff (hop : opField w = Opcode.sstart.code) :
    Opcode.sstart.spells w = true ↔ rsvField w = 0 ∧ aField w = 0 := by
  rw [spells_iff]
  simp only [hop, true_and, Opcode.fixes, Bool.false_eq_true, false_implies, true_implies, and_true]

/-- SSTART with a format that exists (30_encoding.md R90). -/
theorem exec_sstart_of_formatOf {fmt : Nat} {f : Format} (hf : formatOf fmt = some f) (ch : Nat) (s : State) :
    exec (.sstart fmt ch) s =
      if ch = 0 ∨ s.cfg.chMax < ch then .next (s.raise .badCh)
      else if s.sen = true then .next (s.raise .streamActive)
      else if s.ov 0 = false then .next (s.raise .streamNoOsc)
      else .next { s with stream := some { fmt := f, ch := channelOperand ch } } := by
  simp only [exec, execSstart, hf]

/-- Settles O13: the row fixes A; each check stands behind the failure of those before it, and STATUS shows the SEN that SSTART sets. -/
theorem sstartFollowsItsRule : Obligations.SstartFollowsItsRule := by
  refine ⟨fun w s hop => runCommand_of_opField (o := .sstart) hop (spells_sstart_iff hop) s, fun fmt ch s => ⟨fun hfmt => ?_, ?_⟩⟩
  · simp only [exec, execSstart, formatOf_none hfmt]
  rcases Nat.lt_or_ge fmt 10 with hfmt | hfmt
  · obtain ⟨f, hf⟩ := formatOf_some hfmt
    rw [exec_sstart_of_formatOf hf]
    have hch (h0 : ch ≠ 0) (hmax : ch ≤ s.cfg.chMax) : ¬(ch = 0 ∨ s.cfg.chMax < ch) := by omega
    refine ⟨fun _ hbad => if_pos hbad, fun _ h0 hmax hsen => ?_, fun _ h0 hmax hsen hov => ?_, fun _ h0 hmax hsen hov => ?_⟩
    · rw [if_neg (hch h0 hmax), if_pos hsen]
    · rw [if_neg (hch h0 hmax), if_neg (by simp [hsen]), if_pos hov]
    · rw [if_neg (hch h0 hmax), if_neg (by simp [hsen]), if_neg (by simp [hov])]
      exact ⟨_, f, rfl, formatOf_eq_some.1 hf, rfl, getLsbD_status _ 3⟩
  · exact ⟨fun h => by omega, fun h => by omega, fun h => by omega, fun h => by omega⟩

/-! ### The steps of the other agents where they are enabled -/

theorem burstStep_of_enabled {n : Nat} {ns : List Nat} (hb : s.bursts = n :: ns) (he : s.burstEnabled n = true) :
    burstStep s = .next (({ s with bursts := ns } : State).beginBurst n) := by
  simp only [burstStep, hb, he, if_true]

theorem burstStep_of_not_enabled {n : Nat} {ns : List Nat} (hb : s.bursts = n :: ns) (he : ¬s.burstEnabled n = true) :
    burstStep s = .next s := by
  simp only [burstStep, hb, if_neg he]

theorem issueStep_of_enabled (he : s.issueEnabled = true) : issueStep s = .next { s with reqq := s.reqq + 1, pend := true } :=
  if_pos he

theorem controlStep_of_enabled (he : s.controlEnabled = true) (hsl : s.slot 0 = some sl)
    (ha : s.table.readEntry sl.address = some a) :
    controlStep s = .next ((({ s with reqq := s.reqq - 1, respq := s.respq ++ [s.attenuate a] } : State).setSlot 0
      (sl.advance s.cap)).emit (.ctlSample (s.attenuate a))) := by
  simp only [controlStep, he, if_true, hsl, oscStep_eq_some.2 ⟨ha, rfl⟩]

theorem frameStep_of_enabled (he : s.frameEnabled = true) (hr : s.respq = v :: later) (hs : s.stream = some st)
    (hq : quant s.cfg.quantRound st.fmt v = .ok q) :
    frameStep s = .next ((({ s with respq := later } : State).emit (.rndSample v)).writeFrame st q).finishBurst := by
  simp only [frameStep, he, if_true, hr, hs, hq]

/-- A NaN sample raises QNAN and nothing is written (42_bridge.md R155). -/
theorem frameStep_of_isNaN (he : s.frameEnabled = true) (hr : s.respq = v :: later) (hs : s.stream = some st)
    (hn : isNaN v = true) : frameStep s = .next (s.raise .qnan) := by
  simp only [frameStep, he, if_true, hr, hs, quant_of_isNaN _ _ hn]

/-! ### Burst requests, issue, device events, final states -/

/-- Settles O29: a request is taken off the device's list exactly when it is enabled. -/
theorem burstRequestIsAcceptedOrHeld : Obligations.BurstRequestIsAcceptedOrHeld := by
  intro s rest n later hl hs hb
  rw [step_of_turn hl hs]
  exact ⟨fun h => burstStep_of_enabled hb (burstEnabled_iff.2 h), fun h => burstStep_of_not_enabled hb (mt burstEnabled_iff.1 h)⟩

/-- Settles O30: the enabling condition decides. -/
theorem issueStepPushesOneRequest : Obligations.IssueStepPushesOneRequest := by
  intro s rest hl hs
  rw [step_of_turn hl hs]
  exact ⟨fun h => issueStep_of_enabled (issueEnabled_iff.2 h), fun h => if_neg (mt issueEnabled_iff.1 h)⟩

/-- Settles O33: HALTED alone decides whether either event is enabled. -/
theorem deviceEventsRaiseTheirFaults : Obligations.DeviceEventsRaiseTheirFaults := by
  intro s rest hl
  refine ⟨fun hs hh => (step_of_turn hl hs).trans (if_neg (by simp [hh])),
    fun hs hh => (step_of_turn hl hs).trans (if_neg (by simp [hh])), ?_⟩
  rintro (hs | hs) hh
  · exact (step_of_turn hl hs).trans (if_pos hh)
  · exact (step_of_turn hl hs).trans (if_pos hh)

/-- Settles O54: the conjuncts of `State.final` one by one (42_bridge.md R167). -/
theorem finalStatesAreQuiet : Obligations.FinalStatesAreQuiet := by
  intro s
  simp only [State.final, Bool.and_eq_true, Bool.not_eq_true', List.isEmpty_iff, beq_iff_eq, and_assoc]

/-! ### The control step -/

/-- Under the invariant a request in the queue finds slot 0 live and its sample in range (42_bridge.md R157). -/
theorem Inv.sample_of_reqq_pos (h : Inv s) (hl : s.cfg.legal = true) (hpos : 0 < s.reqq) :
    ∃ sl a, s.slot 0 = some sl ∧ s.table.readEntry sl.address = some a ∧ InUnitRange (s.attenuate a) := by
  obtain ⟨hbact, -⟩ := h.bridge.of_reqq_pos hpos
  obtain ⟨-, -, hov⟩ := h.stream_of_bact hbact
  obtain ⟨sl, hsl⟩ := Option.isSome_iff_exists.1 hov
  obtain ⟨a, ha⟩ := exists_entry_of_slot h.table h.slots hsl
  exact ⟨sl, a, hsl, ha, attenuate_inUnitRange hl (h.table.inUnitRange_of_readEntry ha)⟩

/-- Settles O31: slot 0 is one of the slots there are, so its advance is read back; the invariant gives the entry and its range. -/
theorem controlStepAnswersOneRequest : Obligations.ControlStepAnswersOneRequest := by
  intro s rest hl hs
  rw [step_of_turn hl hs]
  refine ⟨fun sl a hh hpos hroom hsl ha => ?_, fun h => if_neg (mt controlEnabled_iff.1 h), fun h hpos => h.sample_of_reqq_pos hl hpos⟩
  obtain ⟨hsame, hother, hlength, -⟩ := setSlot_frame (lt_length_of_slot s hsl) (sl.advance s.cap)
  exact ⟨_, controlStep_of_enabled (controlEnabled_iff.2 ⟨hh, hpos, hroom⟩) hsl ha, hsame, hother, hlength, rfl⟩

/-! ### The frame step -/

/-- After the replicator every channel slot of the frame holds the pattern (43_quantizer.md R189). -/
theorem readSlot_writeFrame_same (s : State) (hq : q.toNat < 2 ^ formatWidth st.fmt) {c : Nat} (hc : c < st.ch.toNat) :
    (s.writeFrame st q).out.readSlot (formatWidth st.fmt) (s.bpos * st.ch.toNat + c) = some q :=
  Memory.readSlot_replicateSlot_same _ _ _ _ _ _ (hq.trans_eq (formatWidth_bytes _)) hc

/-- Burst completion, as one update of BACT and the history (42_bridge.md R156). -/
theorem finishBurst_eq (s : State) :
    s.finishBurst =
      { s with
        bact := s.bact && !decide (s.bpos = s.bn)
        hist := s.hist ++ (if s.bpos = s.bn then [.burstDone s.bn] else []) } := by
  unfold State.finishBurst
  split
  · next h => simp [h, State.emit]
  · next h => simp [h]

/-- Settles O32: the frame's slots are the CH from BPOS·CH on; the burst is done when the next BPOS is BN. -/
theorem frameStepWritesOneFrame : Obligations.FrameStepWritesOneFrame := by
  intro s rest hl hs
  rw [step_of_turn hl hs]
  have he (v : Binary32) (later : List Binary32) (hh : s.halted = false) (hb : s.bact = true) (hp : s.pend = true)
      (hr : s.respq = v :: later) : ({ s with sched := rest } : State).frameEnabled = true :=
    frameEnabled_iff.2 ⟨hh, hb, hp, by simp [hr]⟩
  refine ⟨fun v later st q hh hb hp hr hst hq => ?_,
    fun v later st hh hb hp hr hst hn => frameStep_of_isNaN (he v later hh hb hp hr) hr hst hn,
    fun h v later hr => (h.samples v (by simp [hr])).not_isNaN, fun h => if_neg (mt frameEnabled_iff.1 h)⟩
  refine ⟨_, frameStep_of_enabled (he v later hh hb hp hr) hr hst hq, fun c hc => ?_, fun x hx => ?_, ?_⟩
  · rw [finishBurst_out]
    exact readSlot_writeFrame_same _ (quant_lt hq) hc
  · rw [finishBurst_out]
    exact Memory.readByte_replicateSlot_other _ _ _ _ _ _ (by rwa [← Nat.succ_mul])
  · simp only [finishBurst_eq, State.writeFrame, State.emit, hb, Bool.true_and]

end Sys2Proof.Machine
end

section
/-! What the buffer holds (42_bridge.md R155, R160; 43_quantizer.md R189): it follows the samples received in every order (O53), so that a burst whose
steps come in turn renders the exact sequence (O36). -/

namespace Sys2Proof.Machine

open Sys2Proof

variable {s t u : State} {turn : Turn} {st : Stream} {v : Binary32} {q : BitVec 64}

/-! ### The buffer follows the samples received -/

/-- A step that keeps BPOS, OUT and the samples received, and loses no stream configuration, keeps what the buffer holds. -/
theorem OutputInv.of_persists (h : OutputInv s) (hp : Persists s t) (hbpos : t.bpos = s.bpos := by simp) (hout : t.out = s.out := by simp)
    (hcfg : t.cfg = s.cfg := by simp) (hrnd : rndSamples t.hist = rndSamples s.hist := by simp) : OutputInv t := by
  obtain ⟨hlen, hnone, hframes⟩ := h
  unfold OutputInv
  rw [hbpos, hout, hcfg, hrnd]
  cases hs : s.stream with
  | none =>
    refine ⟨hlen, fun _ => hnone hs, fun st _ j c hj => ?_⟩
    rw [hnone hs] at hj
    exact absurd hj (Nat.not_lt_zero j)
  | some st =>
    rw [hp.2 st hs]
    exact ⟨hlen, fun hn => absurd hn (by simp), fun st' hst' => hframes st' (hs.trans hst')⟩

/-- With no frame written yet there is nothing to hold. -/
theorem outputInv_of_bpos_eq_zero (h : s.bpos = 0) : OutputInv s :=
  ⟨by omega, fun _ => h, fun st _ j c hj => by omega⟩

/-- Slots of frame j lie below the slots of any later frame. -/
theorem frameSlot_lt {ch j k c : Nat} (hj : j < k) (hc : c < ch) : j * ch + c < k * ch :=
  calc j * ch + c < j * ch + ch := Nat.add_lt_add_left hc _
    _ = (j + 1) * ch := (Nat.succ_mul j ch).symm
    _ ≤ k * ch := Nat.mul_le_mul_right ch hj

/-- A frame written on top of those before leaves their slots alone and holds the conversion of the newest sample (43_quantizer.md R189). -/
theorem OutputInv.writeFrame (h : OutputInv s) (hs : s.stream = some st) (hq : quant s.cfg.quantRound st.fmt v = .ok q) :
    OutputInv ((s.emit (.rndSample v)).writeFrame st q) := by
  obtain ⟨hlen, -, hframes⟩ := h
  have hrnd : rndSamples ((s.emit (.rndSample v)).writeFrame st q).hist = rndSamples s.hist ++ [v] := by simp
  unfold OutputInv
  rw [hrnd, List.length_append, List.length_singleton, writeFrame_bpos, emit_bpos]
  refine ⟨Nat.succ_le_succ hlen, fun hn => absurd (hn.symm.trans hs) (by simp), fun st' hst' j c hj hc => ?_⟩
  obtain rfl : st = st' := Option.some.inj (hs.symm.trans hst')
  rw [Nat.add_sub_add_right]
  rcases Nat.lt_succ_iff_lt_or_eq.1 hj with hj | rfl
  · obtain ⟨v', q', hv', hq', hslot⟩ := hframes st hs j c hj hc
    refine ⟨v', q', ?_, hq', ?_⟩
    · rwa [List.getElem?_append_left (by omega)]
    · exact (Memory.readSlot_replicateSlot_other _ _ _ _ _ _ (.inl (frameSlot_lt hj hc))).trans hslot
  · refine ⟨v, q, ?_, hq, readSlot_writeFrame_same (s.emit (.rndSample v)) (quant_lt hq) hc⟩
    rw [Nat.sub_add_cancel hlen]
    exact List.getElem?_concat_length

theorem Completes.bpos_eq {i : Instr} (h : Completes i s t) : t.bpos = s.bpos := (congrArg State.bpos h.frame).trans rfl
theorem Completes.out_eq {i : Instr} (h : Completes i s t) : t.out = s.out := (congrArg State.out h.frame).trans rfl
theorem Completes.hist_eq {i : Instr} (h : Completes i s t) : t.hist = s.hist := (congrArg State.hist h.frame).trans rfl

/-- A command that completes writes neither the buffer nor the samples received; SSTART finds BPOS = 0. -/
theorem OutputInv.completes (h : OutputInv s) {i : Instr} (hc : Completes i s t) : OutputInv t :=
  h.of_persists hc.persists hc.bpos_eq hc.out_eq hc.cfg_eq (by rw [hc.hist_eq])

theorem OutputInv.emit_command (h : OutputInv s) (w : Command) (oc : CommandOutcome) : OutputInv (s.emit (.command w oc)) :=
  h.of_persists persists_of_eq

/-- What one turn does keeps what the buffer holds. -/
theorem Did.outputInv (hd : Did turn u t) (h : OutputInv u) : OutputInv t := by
  cases hd with
  | nothing => exact h
  | raised _ w ws f => exact OutputInv.emit_command (s := (u.takeWord ws).raise f) (h.of_persists persists_of_eq) ..
  | completed _ x w ws i _ _ _ hc =>
    exact (OutputInv.completes (s := u.takeWord ws) (h.of_persists persists_of_eq) hc).emit_command ..
  | burst => exact outputInv_of_bpos_eq_zero rfl
  | issued => exact h.of_persists persists_of_eq
  | answered _ sl a => exact h.of_persists (persists_setSlot u 0 (sl.advance u.cap))
  | wroteFrame _ v later st q _ _ hs hq =>
    have hw : OutputInv ((({ u with respq := later } : State).emit (.rndSample v)).writeFrame st q) :=
      OutputInv.writeFrame (s := { u with respq := later }) (h.of_persists persists_of_eq) hs hq
    exact hw.of_persists persists_of_eq (hrnd := rndSamples_finishBurst _)
  | fault => exact h.of_persists persists_of_eq
  | reset => exact outputInv_of_bpos_eq_zero rfl

theorem step_outputInv (hstep : step s = .next t) (h : OutputInv s) : OutputInv t := by
  obtain ⟨-, ⟨-, rfl⟩ | ⟨turn, rest, -, hd⟩⟩ := step_did hstep
  · exact h
  · exact hd.outputInv (h.of_persists persists_of_eq)

/-- Settles O53: only the frame step writes the buffer, one frame for one sample received. -/
theorem outputFollowsTheSamplesReceived : Obligations.OutputFollowsTheSamplesReceived :=
  ⟨outputInv_of_bpos_eq_zero rfl, fun _ _ _ h hstep => step_outputInv hstep h⟩

end Sys2Proof.Machine
end

section
/-! A burst whose steps come in turn renders the exact sequence (41_oscillator.md R136; 42_bridge.md R160) (O36): one round of issue, control and frame
writes one frame, and n rounds complete the burst. -/

namespace Sys2Proof.Machine

open Sys2Proof

variable {s t : State} {rest : List Turn} {st : Stream} {sl : Slot} {a : Binary32} {q : BitVec 64} {n k : Nat}

/-! ### Runs of steps -/

theorem runSteps_succ (h : step s = .next t) (n : Nat) : runSteps (n + 1) s = runSteps n t := by
  simp only [runSteps, h]

theorem runSteps_succ_eq_next : runSteps (n + 1) s = .next t ↔ ∃ u, step s = .next u ∧ runSteps n u = .next t := by
  simp only [runSteps]
  split
  · next u hu => simp [hu]
  · next hu => simp [hu]
  · next hu => simp [hu]

/-- A run goes on from where its first m steps end. -/
theorem runSteps_add {m : Nat} (h : runSteps m s = .next t) (n : Nat) : runSteps (m + n) s = runSteps n t := by
  induction m generalizing s with
  | zero => cases h; rw [Nat.zero_add]
  | succ m ih =>
    obtain ⟨u, hu, h⟩ := runSteps_succ_eq_next.1 h
    rw [Nat.succ_add, runSteps_succ hu, ih h]

/-- What every step keeps, every run keeps. -/
theorem runSteps_preserves {P : State → Prop} (hP : ∀ s t, P s → step s = .next t → P t) (h : runSteps n s = .next t) (hs : P s) : P t := by
  induction n generalizing s with
  | zero => cases h; exact hs
  | succ n ih =>
    obtain ⟨u, hu, h⟩ := runSteps_succ_eq_next.1 h
    exact ih h (hP s u hs hu)

/-! ### One round of issue, control and frame -/

/-- The state once the issue step of a round has asked for a sample. -/
def State.asked (t : State) (rest : List Turn) : State :=
  { t with sched := .control :: .frame :: rest, reqq := 1, respq := [], pend := true }

/-- The state once the control step of a round has answered with the amplitude a of slot 0. -/
def State.answered (t : State) (rest : List Turn) (sl : Slot) (a : Binary32) : State :=
  { t.setSlot 0 (sl.advance t.cap) with
    sched := .frame :: rest
    reqq := 0
    respq := [t.attenuate a]
    pend := true
    hist := t.hist ++ [.ctlSample (t.attenuate a)] }

/-- The state once the frame step of a round has written the pattern q of that sample. -/
def State.rendered (t : State) (rest : List Turn) (sl : Slot) (a : Binary32) (st : Stream) (q : BitVec 64) : State :=
  { t.setSlot 0 (sl.advance t.cap) with
    sched := rest
    reqq := 0
    respq := []
    pend := false
    out := t.out.replicateSlot (formatWidth st.fmt) (t.bpos * st.ch.toNat) q st.ch.toNat
    bpos := t.bpos + 1
    bact := !decide (t.bpos + 1 = t.bn)
    hist := t.hist ++ [.ctlSample (t.attenuate a)] ++ [.rndSample (t.attenuate a)] ++
      (if t.bpos + 1 = t.bn then [.burstDone t.bn] else []) }

theorem ctlSamples_rendered (t : State) (rest : List Turn) (sl : Slot) (a : Binary32) (st : Stream) (q : BitVec 64) :
    ctlSamples (t.rendered rest sl a st q).hist = ctlSamples t.hist ++ [t.attenuate a] := by
  simp only [State.rendered, ctlSamples_append, ctlSamples_ctlSample, ctlSamples_rndSample, List.append_nil]
  split <;> simp [ctlSamples]

theorem step_asks (hl : t.cfg.legal = true) (hs : t.sched = .issue :: .control :: .frame :: rest) (hh : t.halted = false)
    (hb : t.bact = true) (hp : t.pend = false) (hreqq : t.reqq = 0) (hrespq : t.respq = []) : step t = .next (t.asked rest) := by
  obtain ⟨-, -, -, -, -, -, -, hqdepth, -⟩ := ranges_of_legal hl
  have he : ({ t with sched := .control :: .frame :: rest } : State).issueEnabled = true :=
    issueEnabled_iff.2 ⟨hh, hb, hp, hreqq.trans_lt hqdepth⟩
  rw [step_of_turn hl hs, takeTurn, issueStep_of_enabled he]
  simp only [State.asked, hreqq, hrespq]

theorem step_answers (hl : t.cfg.legal = true) (hh : t.halted = false) (hsl : t.slot 0 = some sl)
    (ha : t.table.readEntry sl.address = some a) : step (t.asked rest) = .next (t.answered rest sl a) := by
  obtain ⟨-, -, -, -, -, -, -, hqdepth, -⟩ := ranges_of_legal hl
  have he : (t.asked rest).controlEnabled = true := controlEnabled_iff.2 ⟨hh, Nat.one_pos, hqdepth⟩
  exact (step_of_turn (s := t.asked rest) hl rfl).trans (controlStep_of_enabled he hsl ha)

theorem step_renders (hl : t.cfg.legal = true) (hh : t.halted = false) (hb : t.bact = true) (hst : t.stream = some st)
    (hq : quant t.cfg.quantRound st.fmt (t.attenuate a) = .ok q) :
    step (t.answered rest sl a) = .next (t.rendered rest sl a st q) := by
  have he : ({ t.answered rest sl a with sched := rest } : State).frameEnabled = true :=
    frameEnabled_iff.2 ⟨hh, hb, rfl, List.cons_ne_nil _ _⟩
  rw [step_of_turn (s := t.answered rest sl a) hl rfl, takeTurn, frameStep_of_enabled he rfl hst hq, finishBurst_eq]
  simp only [State.writeFrame, State.emit, State.answered, State.rendered, setSlot_bact, setSlot_bpos, setSlot_bn,
    setSlot_out, hb, Bool.true_and]

/-- The k-th sample of a burst that starts in s with slot 0 at sl: the amplitude k advances on, times GAIN (42_bridge.md R157, R160). -/
def burstSample (s : State) (sl : Slot) (k : Nat) : Binary32 :=
  s.attenuate ((s.table.readEntry (sl.advances s.cap k).address).getD 0)

/-- t is where k rounds lead in a burst of n frames that starts in s with slot 0 at sl. -/
structure BurstAfter (s : State) (st : Stream) (sl : Slot) (n k : Nat) (t : State) : Prop where
  inv : Inv t
  output : OutputInv t
  running : t.halted = false
  pend : t.pend = false
  bact : t.bact = !decide (k = n)
  bn : t.bn = n
  bpos : t.bpos = k
  cap : t.cap = s.cap
  table : t.table = s.table
  cfg : t.cfg = s.cfg
  stream : t.stream = some st
  slot : t.slot 0 = some (sl.advances s.cap k)
  samples : ctlSamples t.hist = ctlSamples s.hist ++ (List.range k).map (burstSample s sl)
  done : k = n → t.hist.getLast? = some (.burstDone n)

theorem BurstAfter.attenuate_eq (h : BurstAfter s st sl n k t) (ha : t.table.readEntry (sl.advances s.cap k).address = some a) :
    t.attenuate a = burstSample s sl k := by
  rw [burstSample, ← h.table, ha, State.attenuate, State.attenuate, h.cfg, Option.getD_some]

/-- One round answers and takes a burst one frame further. -/
theorem BurstAfter.round (h : BurstAfter s st sl n k t) (hl : s.cfg.legal = true) (hk : k < n)
    (hs : t.sched = .issue :: .control :: .frame :: rest) :
    ∃ t', runSteps 3 t = .next t' ∧ t'.sched = rest ∧ BurstAfter s st sl n (k + 1) t' := by
  have hlt : t.cfg.legal = true := h.cfg ▸ hl
  have hb : t.bact = true := by rw [h.bact, decide_eq_false (by omega)]; rfl
  obtain ⟨-, hnone⟩ := h.inv.bridge.messages_le_one
  have hempty := hnone h.pend
  obtain ⟨a, ha⟩ := exists_entry_of_slot h.inv.table h.inv.slots h.slot
  have hrange : InUnitRange (t.attenuate a) := attenuate_inUnitRange hlt (h.inv.table.inUnitRange_of_readEntry ha)
  obtain ⟨q, hq⟩ := exists_quant t.cfg.quantRound st.fmt hrange.not_isNaN
  have hask : step t = .next (t.asked rest) :=
    step_asks hlt hs h.running hb h.pend (by omega) (List.length_eq_zero_iff.1 (by omega))
  have hanswer := step_answers (rest := rest) hlt h.running h.slot ha
  have hrender := step_renders (rest := rest) (sl := sl.advances s.cap k) hlt h.running hb h.stream hq
  have hpos : t.bpos + 1 = k + 1 := congrArg (· + 1) h.bpos
  refine ⟨_, by rw [runSteps_succ hask, runSteps_succ hanswer, runSteps_succ hrender, runSteps], rfl, ?_⟩
  exact
    { inv := everyStepKeepsTheInvariant _ _
        (everyStepKeepsTheInvariant _ _ (everyStepKeepsTheInvariant _ _ h.inv hask) hanswer) hrender
      output := step_outputInv hrender (step_outputInv hanswer (step_outputInv hask h.output))
      running := h.running
      pend := rfl
      bact := by rw [← hpos, ← h.bn]; rfl
      bn := h.bn
      bpos := hpos
      cap := h.cap
      table := h.table
      cfg := h.cfg
      stream := h.stream
      slot := by
        rw [advances_succ, ← h.cap]
        exact slot_setSlot_same t _ (lt_length_of_slot t h.slot)
      samples := by
        rw [ctlSamples_rendered, h.samples, h.attenuate_eq ha, List.range_succ, List.map_append, List.append_assoc]
        rfl
      done := fun hn => by
        rw [← h.bn]
        simp only [State.rendered, if_pos (hpos.trans (hn.trans h.bn.symm))]
        exact List.getLast?_concat .. }

/-- m rounds take a burst m frames further. -/
theorem BurstAfter.rounds {m : Nat} (h : BurstAfter s st sl n k t) (hl : s.cfg.legal = true) (hk : k + m = n)
    (hs : t.sched = (List.replicate m [Turn.issue, Turn.control, Turn.frame]).flatten ++ rest) :
    ∃ t', runSteps (3 * m) t = .next t' ∧ t'.sched = rest ∧ BurstAfter s st sl n n t' := by
  induction m generalizing k t with
  | zero =>
    obtain rfl : k = n := hk
    exact ⟨t, rfl, hs, h⟩
  | succ m ih =>
    obtain ⟨u, hu, hsu, hau⟩ := h.round hl (by omega) hs
    obtain ⟨t', ht', hs', ha'⟩ := ih hau (by omega) hsu
    exact ⟨t', by rw [Nat.mul_succ, Nat.add_comm, runSteps_add hu, ht'], hs', ha'⟩

/-- An accepted request begins a burst of which no frame is written (42_bridge.md R153). -/
theorem burstAfter_zero {later : List Nat} (hl : s.cfg.legal = true) (h : Inv s) (hh : s.halted = false) (hb : s.bact = false)
    (hst : s.stream = some st) (hsl : s.slot 0 = some sl) (hn : 1 ≤ n) (hmax : n ≤ s.cfg.framesMax) (hbursts : s.bursts = n :: later)
    (hs : s.sched = .burstReq :: rest) : ∃ t, step s = .next t ∧ t.sched = rest ∧ BurstAfter s st sl n 0 t := by
  have he : ({ s with sched := rest } : State).burstEnabled n = true :=
    burstEnabled_iff.2 ⟨hh, by rw [State.sen, hst]; rfl, hb, hn, hmax⟩
  have hstep := (step_of_turn hl hs).trans (burstStep_of_enabled hbursts he)
  obtain ⟨-, -, hpend⟩ := h.bridge.idle hb
  exact ⟨_, hstep, rfl,
    { inv := everyStepKeepsTheInvariant _ _ h hstep
      output := outputInv_of_bpos_eq_zero rfl
      running := hh
      pend := hpend
      bact := by rw [decide_eq_false (by omega)]; rfl
      bn := rfl
      bpos := rfl
      cap := rfl
      table := rfl
      cfg := rfl
      stream := hst
      slot := hsl
      samples := (List.append_nil _).symm
      done := fun h0 => by omega }⟩

/-- When a burst is done the samples received are all those computed, and the device sees the conversion of sample k in every slot of
frame k (42_bridge.md R156, R159, R160). -/
theorem BurstAfter.deviceSlot (h : BurstAfter s st sl n n t) {c : Nat} (hk : k < n) (hc : c < st.ch.toNat) :
    ∃ q, quant s.cfg.quantRound st.fmt (burstSample s sl k) = .ok q ∧ t.deviceSlot (k * st.ch.toNat + c) = some q := by
  have hbact : t.bact = false := by rw [h.bact, decide_eq_true rfl]; rfl
  obtain ⟨-, hrespq, -⟩ := h.inv.bridge.idle hbact
  have hrnd : rndSamples t.hist = ctlSamples s.hist ++ (List.range n).map (burstSample s sl) := by
    rw [← h.samples, h.inv.bridge.paired, hrespq, List.append_nil]
  obtain ⟨-, -, hframes⟩ := h.output
  obtain ⟨v, q, hv, hq, hslot⟩ := hframes st h.stream k c (h.bpos.symm ▸ hk) hc
  rw [hrnd, h.bpos, List.length_append, List.length_map, List.length_range, Nat.add_sub_cancel,
    List.getElem?_append_right (Nat.le_add_right ..), Nat.add_sub_cancel_left, List.getElem?_map, List.getElem?_range hk] at hv
  obtain rfl : burstSample s sl k = v := Option.some.inj hv
  rw [h.cfg] at hq
  exact ⟨q, hq, (deviceSlot_of_done h.stream hbact (h.bn.symm ▸ frameSlot_lt hk hc)).trans hslot⟩

/-- Settles O36: the request and then n rounds; slot 0 starts at phase 0, so k advances on its address is the law's index. -/
theorem burstRendersTheSequence : Obligations.BurstRendersTheSequence := by
  intro s n later rest st sl hl h hh hb hst hsl h0 hn hmax hbursts hs
  obtain ⟨hcap, hfull, -, hrate, hphase⟩ := h.slots.live 0 sl hsl
  obtain ⟨u, hu, hsu, hzero⟩ := burstAfter_zero hl h hh hb hst hsl hn hmax hbursts hs
  obtain ⟨t, ht, hst', hdone⟩ := hzero.rounds hl (Nat.zero_add n) hsu
  simp only [lawIndex_eq_address hcap hrate h0]
  refine ⟨t, by rw [runSteps_add (m := 1) (runSteps_succ hu 0), ht], by rw [hdone.bact, decide_eq_true rfl]; rfl, hdone.bpos, hst',
    hdone.running, hdone.done rfl, hdone.samples, fun k c hk hc => ?_⟩
  obtain ⟨v, hv⟩ := h.table.exists_entry_of_phase hfull (phase_advances_lt hphase k)
  obtain ⟨q, hq, hslot⟩ := hdone.deviceSlot hk hc
  rw [burstSample, hv] at hq
  exact ⟨v, q, hv, hq, hslot⟩

end Sys2Proof.Machine
end

section
/-! QCONV and the replicator's bytes (43_quantizer.md R181, R186, R188, R191) (O14, O46, O48). -/

namespace Sys2Proof.Machine

open Sys2Proof

variable {s : State} {w : Command} {v : Binary32}

/-! ### QCONV -/

/-- Settles O46: `quant` answers but for a NaN, and what it answers fits the format's width. -/
theorem quantizerRejectsExactlyNans : Obligations.QuantizerRejectsExactlyNans := by
  refine fun mode f v => ⟨quant_of_isNaN mode f, fun h => ?_⟩
  obtain ⟨q, hq⟩ := exists_quant mode f h
  exact ⟨q, hq, quant_lt hq⟩

theorem spells_qconv_iff (hop : opField w = Opcode.qconv.code) :
    Opcode.qconv.spells w = true ↔ rsvField w = 0 ∧ bField w = 0 := by
  rw [spells_iff]
  simp only [hop, true_and, Opcode.fixes, Bool.false_eq_true, false_implies, true_implies, and_true]

/-- Settles O14: the row fixes B; the format's code is checked before the value. -/
theorem qconvFollowsItsRule : Obligations.QconvFollowsItsRule := by
  refine ⟨fun w s hop => runCommand_of_opField (o := .qconv) hop (spells_qconv_iff hop) s,
    fun fmt v s => ⟨fun hfmt => ?_, fun hfmt hn => ?_, fun hfmt hn => ?_⟩⟩
  · simp only [exec, execQconv, formatOf_none hfmt]
  all_goals obtain ⟨f, hf⟩ := formatOf_some hfmt
  · simp only [exec, execQconv, hf, quant_of_isNaN _ _ hn]
  · obtain ⟨q, hq⟩ := exists_quant s.cfg.quantRound f hn
    refine ⟨f, q, formatOf_eq_some.1 hf, hq, quant_lt hq, ?_⟩
    simp only [exec, execQconv, hf, hq]
    rfl

/-! ### The byte image of a frame -/

/-- Byte j of a number, lowest first (20_memory.md R65). -/
theorem getElem?_bytesLE {n j : Nat} (v : Nat) (hj : j < n) : (bytesLE n v)[j]? = some (BitVec.ofNat 8 (v / 256 ^ j)) := by
  induction n generalizing v j with
  | zero => omega
  | succ n ih =>
    cases j with
    | zero => simp [bytesLE]
    | succ j => rw [bytesLE, List.getElem?_cons_succ, ih _ (by omega), Nat.div_div_eq_div_mul, ← Nat.pow_succ']

/-- Byte j of a pattern is its bits 8j to 8j+7. -/
theorem ofNat_div_eq_extractLsb' (q : BitVec 64) (j : Nat) : BitVec.ofNat 8 (q.toNat / 256 ^ j) = q.extractLsb' (8 * j) 8 := by
  rw [BitVec.extractLsb', Nat.shiftRight_eq_div_pow, Nat.pow_mul]

theorem readByte_writeSlot_inside (m : Memory) (w k : Nat) (q : BitVec 64) {j : Nat} (hj : j < w / 8) :
    (m.writeSlot w k q).readByte (slotAddr w k + j) = some (q.extractLsb' (8 * j) 8) := by
  rw [Memory.writeSlot, Memory.writeLE, Memory.readByte_writeBytes_inside _ _ _ _ (by simpa using hj), getElem?_bytesLE _ hj,
    ofNat_div_eq_extractLsb']

/-- Two slots share no byte, so the last write of a channel slot is the only one to its bytes. -/
theorem readByte_replicateSlot_inside (m : Memory) (w k : Nat) (q : BitVec 64) {n c j : Nat} (hc : c < n) (hj : j < w / 8) :
    (m.replicateSlot w k q n).readByte (slotAddr w (k + c) + j) = some (q.extractLsb' (8 * j) 8) := by
  induction n with
  | zero => omega
  | succ n ih =>
    rw [Memory.replicateSlot]
    rcases (Nat.lt_succ_iff.1 hc).eq_or_lt with rfl | hlt
    · exact readByte_writeSlot_inside _ _ _ _ hj
    · rw [Memory.readByte_writeSlot_other, ih hlt]
      have hnext : slotAddr w (k + c + 1) ≤ slotAddr w (k + n) := Nat.mul_le_mul_right _ (by omega)
      rw [slotAddr, Nat.add_mul, Nat.one_mul] at hnext
      exact .inl ((Nat.add_lt_add_left hj _).trans_le hnext)

/-- Settles O48: inside the frame the bytes of a replicated slot; outside it no slot is written. -/
theorem replicatorWritesLittleEndianFrames : Obligations.ReplicatorWritesLittleEndianFrames := by
  refine fun s st q _ => ⟨fun c j hc hj => readByte_replicateSlot_inside _ _ _ _ hc hj, fun a ha => ?_⟩
  exact Memory.readByte_replicateSlot_other _ _ _ _ _ _ (by rwa [← Nat.succ_mul])

end Sys2Proof.Machine
end

section
/-! The float formats (43_quantizer.md R184, R185): the binary64 patterns by their fields, and the fields `widen64` gives (O45). -/

namespace Sys2Proof.Machine

open Sys2Proof

variable {v : Binary32} {neg : Bool} {e f : Nat}

/-! ### Binary64 patterns by their fields -/

/-- The binary64 pattern of a sign, an exponent field and a fraction field. -/
def pattern64 (neg : Bool) (e f : Nat) : Binary64 := BitVec.ofNat 64 ((if neg then 2 ^ 63 else 0) + (e * 2 ^ 52 + f))

/-- The magnitude that the fields of a finite binary64 pattern give, in units of 2^-1074. -/
def mag64 (e f : Nat) : Nat := if e = 0 then f else (f + 2 ^ 52) * 2 ^ (e - 1)

section Fields
variable (neg) (he : e < 2 ^ 11) (hf : f < 2 ^ 52)
include he hf

theorem toNat_pattern64 : (pattern64 neg e f).toNat = (if neg then 2 ^ 63 else 0) + (e * 2 ^ 52 + f) := by
  rw [pattern64, BitVec.toNat_ofNat, Nat.mod_eq_of_lt]
  split <;> omega

theorem msb_pattern64 : (pattern64 neg e f).msb = neg := by
  rw [BitVec.msb_eq_decide, toNat_pattern64 neg he hf]
  cases neg
  · simp; omega
  · simp

theorem expField_pattern64 : ((pattern64 neg e f).extractLsb' 52 11).toNat = e := by
  rw [BitVec.extractLsb'_toNat, toNat_pattern64 neg he hf, Nat.shiftRight_eq_div_pow]
  split <;> omega

theorem fracField_pattern64 : ((pattern64 neg e f).extractLsb' 0 52).toNat = f := by
  rw [BitVec.extractLsb'_toNat, toNat_pattern64 neg he hf, Nat.shiftRight_zero]
  split <;> omega

theorem val64_pattern64 : val64 (pattern64 neg e f) = (if neg then -(mag64 e f : ℚ) else mag64 e f) / 2 ^ 1074 := by
  rw [val64, expField_pattern64 neg he hf, fracField_pattern64 neg he hf, msb_pattern64 neg he hf, mag64, Nat.cast_ite]

end Fields

/-! ### The fields of `widen64` -/

/-- A normal value keeps its significand, 29 bits further up, under an exponent field biased by 896 more. -/
theorem mag64_of_normal (h : e ≠ 0) (f : Nat) : mag64 (e + 896) (f * 2 ^ 29) = (f + 2 ^ 23) * 2 ^ (e - 1) * 2 ^ 925 := by
  have hexp : 29 + (e + 896 - 1) = e - 1 + 925 := by omega
  rw [mag64, if_neg (by omega), show 2 ^ 52 = 2 ^ 23 * 2 ^ 29 by norm_num, ← Nat.add_mul, mul_assoc, ← pow_add, hexp, pow_add,
    ← mul_assoc]

/-- A subnormal value with its leading one at bit l becomes normal: that bit is dropped and the others move up to the top. -/
theorem mag64_of_subnormal {l : Nat} (hl : l < 23) (hlow : 2 ^ l ≤ f) :
    mag64 (l + 874) ((f - 2 ^ l) * 2 ^ (52 - l)) = f * 2 ^ 925 := by
  have hscale : 2 ^ 52 = 2 ^ l * 2 ^ (52 - l) := by rw [← pow_add, Nat.add_sub_cancel' (by omega)]
  have hexp : 52 - l + (l + 874 - 1) = 925 := by omega
  rw [mag64, if_neg (by omega), hscale, ← Nat.add_mul, Nat.sub_add_cancel hlow, mul_assoc, ← pow_add, hexp]

theorem subnormal_fraction_lt {l : Nat} (hl : l < 23) (hhigh : f < 2 ^ (l + 1)) : (f - 2 ^ l) * 2 ^ (52 - l) < 2 ^ 52 := by
  calc (f - 2 ^ l) * 2 ^ (52 - l) < 2 ^ l * 2 ^ (52 - l) :=
        Nat.mul_lt_mul_of_pos_right (by omega) (Nat.two_pow_pos _)
    _ = 2 ^ 52 := by rw [← pow_add, Nat.add_sub_cancel' (by omega)]

/-- `widen64` keeps the sign and, of a finite value, the magnitude: a unit of 2^-149 is 2^925 units of 2^-1074. -/
theorem exists_widen64_eq (v : Binary32) :
    ∃ e f, e < 2 ^ 11 ∧ f < 2 ^ 52 ∧ widen64 v = pattern64 (signBit v) e f ∧
      (isFinite v = true → e ≠ 0x7FF ∧ mag64 e f = mag v * 2 ^ 925) := by
  have hE := expField_lt v
  have hF := fracField_lt v
  by_cases hinf : expField v = 0xFF
  · refine ⟨0x7FF, fracField v * 2 ^ 29, by norm_num, by omega, ?_, fun hfin => ?_⟩
    · simp only [widen64, pattern64, if_pos hinf]
    · exact absurd hinf (bne_iff_ne.1 hfin)
  by_cases hexp : expField v = 0
  · by_cases hzero : fracField v = 0
    · refine ⟨0, 0, by norm_num, by norm_num, ?_, fun _ => ⟨by norm_num, ?_⟩⟩
      · simp only [widen64, pattern64, if_neg hinf, if_pos hexp, if_pos hzero, Nat.zero_mul]
      · rw [mag_of_expField_eq_zero hexp, hzero, Nat.zero_mul, mag64, if_pos rfl]
    · have hlog : (fracField v).log2 < 23 := (Nat.log2_lt hzero).2 hF
      refine ⟨(fracField v).log2 + 874, _, by omega, subnormal_fraction_lt hlog Nat.lt_log2_self, ?_, fun _ => ⟨by omega, ?_⟩⟩
      · simp only [widen64, pattern64, if_neg hinf, if_pos hexp, if_neg hzero]
      · rw [mag64_of_subnormal hlog (Nat.log2_self_le hzero), mag_of_expField_eq_zero hexp]
  · refine ⟨expField v + 896, fracField v * 2 ^ 29, by omega, by omega, ?_, fun _ => ⟨by omega, ?_⟩⟩
    · simp only [widen64, pattern64, if_neg hinf, if_neg hexp]
    · rw [mag64_of_normal hexp, mag_of_expField_ne_zero hexp]

theorem msb_widen64 (v : Binary32) : (widen64 v).msb = signBit v := by
  obtain ⟨e, f, he, hf, heq, -⟩ := exists_widen64_eq v
  rw [heq, msb_pattern64 _ he hf]

theorem val64_widen64 (h : isFinite v = true) : val64 (widen64 v) = val v := by
  obtain ⟨e, f, he, hf, heq, hfin⟩ := exists_widen64_eq v
  rw [heq, val64_pattern64 _ he hf, (hfin h).2, val, units, Nat.cast_mul, Nat.cast_pow, Nat.cast_ofNat,
    show (2 : ℚ) ^ 1074 = 2 ^ 149 * 2 ^ 925 from pow_add 2 149 925]
  split
  · rw [← neg_mul, mul_div_mul_right _ _ (by positivity), Int.cast_neg, Int.cast_natCast]
  · rw [mul_div_mul_right _ _ (by positivity), Int.cast_natCast]

theorem expField_widen64_ne (h : isFinite v = true) : (widen64 v).extractLsb' 52 11 ≠ 0x7FF := by
  obtain ⟨e, f, he, hf, heq, hfin⟩ := exists_widen64_eq v
  rw [heq]
  intro hcontra
  have hexp := expField_pattern64 (signBit v) he hf
  rw [hcontra] at hexp
  exact (hfin h).1 hexp.symm

theorem quant_f32 (mode : Config.QuantRound) (h : isNaN v = false) : quant mode .f32 v = .ok (v.setWidth 64) :=
  if_neg (by simp [h])

theorem quant_f64 (mode : Config.QuantRound) (h : isNaN v = false) : quant mode .f64 v = .ok (widen64 v) :=
  if_neg (by simp [h])

/-- Settles O45: the fields of `widen64` give the value and the sign; the zeros and infinities are four patterns. -/
theorem floatFormatsAreExact : Obligations.FloatFormatsAreExact := by
  refine fun mode v h => ⟨quant_f32 mode h, quant_f64 mode h, fun hfin => ⟨val64_widen64 hfin, expField_widen64_ne hfin⟩,
    msb_widen64 v, ?_, ?_, ?_, ?_⟩
  all_goals rintro rfl; decide

/-! ### A finite binary32 by its value and sign -/

theorem le_mag_of_lt_expField {b : Binary32} (h : e < expField b) : 2 ^ (e + 23) ≤ mag b := by
  rw [mag_of_expField_ne_zero (by omega)]
  calc 2 ^ (e + 23) = 2 ^ 23 * 2 ^ e := by rw [← pow_add, add_comm]
    _ ≤ (fracField b + 2 ^ 23) * 2 ^ (expField b - 1) :=
      Nat.mul_le_mul (Nat.le_add_left ..) (Nat.pow_le_pow_right two_pos (by omega))

/-- A magnitude's exponent field is the binade it lies in. -/
theorem expField_le_of_mag_le {b c : Binary32} (h : mag b ≤ mag c) : expField b ≤ expField c := by
  by_contra hlt
  exact ((mag_lt_of_expField_le le_rfl).trans_le (le_mag_of_lt_expField (not_le.1 hlt))).not_ge h

theorem eq_of_mag_eq {b c : Binary32} (hmag : mag b = mag c) (hsign : signBit b = signBit c) : b = c := by
  have hexp : expField b = expField c := (expField_le_of_mag_le hmag.le).antisymm (expField_le_of_mag_le hmag.ge)
  have hfrac : fracField b = fracField c := by
    by_cases h0 : expField b = 0
    · rwa [mag_of_expField_eq_zero h0, mag_of_expField_eq_zero (hexp ▸ h0)] at hmag
    · rw [mag_of_expField_ne_zero h0, mag_of_expField_ne_zero (hexp ▸ h0), hexp] at hmag
      exact Nat.add_right_cancel (Nat.eq_of_mul_eq_mul_right (Nat.two_pow_pos _) hmag)
  have hb := b.isLt
  have hc := c.isLt
  rw [expField_eq_toNat, expField_eq_toNat] at hexp
  rw [fracField_eq_toNat, fracField_eq_toNat] at hfrac
  rw [signBit_eq_toNat, signBit_eq_toNat, decide_eq_decide] at hsign
  exact BitVec.eq_of_toNat_eq (by omega)

theorem eq_of_val_eq {b c : Binary32} (hval : val b = val c) (hsign : signBit b = signBit c) : b = c := by
  have habs : (mag b : ℚ) / 2 ^ 149 = mag c / 2 ^ 149 := by rw [← abs_val, ← abs_val, hval]
  rw [div_left_inj' (by positivity)] at habs
  exact eq_of_mag_eq (by exact_mod_cast habs) hsign

end Sys2Proof.Machine
end

section
/-! The integer formats (43_quantizer.md R182, R183): what QUANT_ROUND answers is the rounded integer of `RoundsTo`, the patterns hold it saturated,
in two's complement and in offset binary (O44). -/

namespace Sys2Proof.Machine

open Sys2Proof

variable {mode : Config.QuantRound} {w : Nat} {v : Binary32} {x : ℚ} {r r' : ℤ}

/-! ### The two roundings -/

theorem RoundsTo.neg (h : RoundsTo mode x r) : RoundsTo mode (-x) (-r) := by
  cases mode with
  | rne =>
    obtain ⟨hnear, htie⟩ := h
    have habs : |((-r : ℤ) : ℚ) - -x| = |(r : ℚ) - x| := by rw [← abs_neg]; push_cast; ring_nf
    exact ⟨habs.le.trans hnear, fun heq => (htie (habs.symm.trans heq)).neg⟩
  | rtz =>
    obtain ⟨hpos, hneg⟩ := h
    refine ⟨fun hx => ?_, fun hx => ?_⟩
    · have := hneg (by linarith)
      push_cast
      constructor <;> linarith
    · have := hpos (by linarith)
      push_cast
      constructor <;> linarith

/-- Of two different integers within 1/2 of x, both are at 1/2 and one is odd. -/
theorem NearestEven.unique (h : NearestEven x r) (h' : NearestEven x r') : r = r' := by
  obtain ⟨hnear, htie⟩ := h
  obtain ⟨hnear', htie'⟩ := h'
  by_contra hne
  have hstep : (1 : ℚ) ≤ |(r : ℚ) - r'| := by exact_mod_cast Int.one_le_abs (sub_ne_zero.2 hne)
  have htriangle := abs_sub_le (r : ℚ) x r'
  rw [abs_sub_comm x] at htriangle
  obtain ⟨a, ha⟩ := htie (by linarith)
  obtain ⟨b, hb⟩ := htie' (by linarith)
  have hle : |(r : ℚ) - r'| ≤ 1 := by linarith
  have hleInt : |r - r'| ≤ 1 := by exact_mod_cast hle
  rw [abs_le] at hleInt
  omega

theorem TowardZero.unique (h : TowardZero x r) (h' : TowardZero x r') : r = r' := by
  rcases le_total 0 x with hx | hx
  · exact (Int.floor_eq_iff.2 (h.1 hx)).symm.trans (Int.floor_eq_iff.2 (h'.1 hx))
  · have hceil {k : ℤ} (hk : TowardZero x k) : ⌈x⌉ = k := Int.ceil_eq_iff.2 ((hk.2 hx).symm)
    exact (hceil h).symm.trans (hceil h')

theorem RoundsTo.unique (h : RoundsTo mode x r) (h' : RoundsTo mode x r') : r = r' := by
  cases mode with
  | rne => exact NearestEven.unique h h'
  | rtz => exact TowardZero.unique h h'

theorem nearestEven_divRne (n : Nat) {d : Nat} (hd : 0 < d) : NearestEven ((n : ℚ) / d) (divRne n d) := by
  have hd' : (0 : ℚ) < d := by exact_mod_cast hd
  obtain ⟨hlo, hhi, htie⟩ := divRne_spec n d hd
  have hdist : |((divRne n d : ℤ) : ℚ) - n / d| = |(divRne n d * d - n : ℚ)| / d := by
    rw [Int.cast_natCast, ← abs_of_pos hd', ← abs_div, abs_of_pos hd', sub_div, mul_div_cancel_right₀ _ hd'.ne']
  rw [NearestEven, hdist, div_le_iff₀ hd', div_eq_iff hd'.ne']
  constructor
  · have hlo' : (2 * (divRne n d * d) : ℚ) ≤ 2 * n + d := by exact_mod_cast hlo
    have hhi' : (2 * n : ℚ) ≤ 2 * (divRne n d * d) + d := by exact_mod_cast hhi
    rw [abs_le]
    constructor <;> linarith
  · intro heq
    rw [Int.even_coe_nat, Nat.even_iff]
    rcases (abs_eq (by positivity)).1 heq with h | h
    · exact htie (.inl (by exact_mod_cast (show (2 * (divRne n d * d) : ℚ) = 2 * n + d by linarith)))
    · exact htie (.inr (by exact_mod_cast (show (2 * n : ℚ) = 2 * (divRne n d * d) + d by linarith)))

theorem towardZero_floor (hx : 0 ≤ x) : TowardZero x ⌊x⌋ := by
  refine ⟨fun _ => ⟨Int.floor_le x, Int.lt_floor_add_one x⟩, fun hx' => ?_⟩
  rw [le_antisymm hx' hx]
  norm_num

theorem towardZero_div (n d : Nat) : TowardZero ((n : ℚ) / d) (n / d : ℕ) := by
  have h := towardZero_floor (x := (n : ℚ) / d) (by positivity)
  rwa [Rat.floor_natCast_div_natCast] at h

theorem roundsTo_roundQuant (mode : Config.QuantRound) (n : Nat) {d : Nat} (hd : 0 < d) :
    RoundsTo mode ((n : ℚ) / d) (roundQuant mode n d) := by
  cases mode with
  | rne => exact nearestEven_divRne n hd
  | rtz => exact towardZero_div n d

/-! ### Rounding and saturation -/

/-- The scaled value rounded, before saturation (43_quantizer.md R182). -/
def quantRounded (mode : Config.QuantRound) (w : Nat) (v : Binary32) : ℤ :=
  if signBit v then -(roundQuant mode (mag v * 2 ^ (w - 1)) (2 ^ 149) : ℤ) else roundQuant mode (mag v * 2 ^ (w - 1)) (2 ^ 149)

theorem roundsTo_quantRounded (mode : Config.QuantRound) (w : Nat) (v : Binary32) :
    RoundsTo mode (val v * 2 ^ (w - 1)) (quantRounded mode w v) := by
  have h := roundsTo_roundQuant mode (mag v * 2 ^ (w - 1)) (Nat.two_pow_pos 149)
  have hx : ((mag v * 2 ^ (w - 1) : ℕ) : ℚ) / (2 ^ 149 : ℕ) = mag v / 2 ^ 149 * 2 ^ (w - 1) := by push_cast; ring
  rw [hx] at h
  rw [val, units, quantRounded]
  split
  · rw [Int.cast_neg, Int.cast_natCast, neg_div, neg_mul]
    exact h.neg
  · exact h

/-- The saturated integer: r clamped to the range of w bits (43_quantizer.md R182). -/
def saturate (w : Nat) (r : ℤ) : ℤ := max (-2 ^ (w - 1)) (min r (2 ^ (w - 1) - 1))

theorem saturate_range (w : Nat) (r : ℤ) : -2 ^ (w - 1) ≤ saturate w r ∧ saturate w r ≤ 2 ^ (w - 1) - 1 := by
  have hpos : (0 : ℤ) < 2 ^ (w - 1) := by positivity
  exact ⟨le_max_left .., max_le (by omega) (min_le_right ..)⟩

theorem not_isInf_of_isFinite (h : isFinite v = true) : isInf v = false := by
  rw [isInf, beq_eq_false_iff_ne.2 (bne_iff_ne.1 h), Bool.false_and]

theorem quantInt_of_isFinite (mode : Config.QuantRound) (w : Nat) (h : isFinite v = true) :
    quantInt mode w v = saturate w (quantRounded mode w v) := by
  rw [quantInt, if_neg (by simp [not_isInf_of_isFinite h])]
  rfl

theorem quantInt_of_isInf (mode : Config.QuantRound) (w : Nat) (h : isInf v = true) :
    quantInt mode w v = if signBit v then -2 ^ (w - 1) else 2 ^ (w - 1) - 1 := if_pos h

theorem quantInt_range (mode : Config.QuantRound) (w : Nat) (v : Binary32) :
    -2 ^ (w - 1) ≤ quantInt mode w v ∧ quantInt mode w v ≤ 2 ^ (w - 1) - 1 := by
  have hpos : (0 : ℤ) < 2 ^ (w - 1) := by positivity
  by_cases hinf : isInf v = true
  · rw [quantInt_of_isInf mode w hinf]
    split <;> omega
  · rw [quantInt, if_neg hinf]
    exact saturate_range w _

/-! ### The patterns -/

theorem toInt_quantSigned (mode : Config.QuantRound) (hw : 0 < w) (v : Binary32) :
    (quantSigned mode w v).toInt = quantInt mode w v := by
  obtain ⟨hlo, hhi⟩ := quantInt_range mode w v
  exact BitVec.toInt_ofInt_eq_self hw hlo (by omega)

theorem toNat_quantUnsigned (mode : Config.QuantRound) (hw : 0 < w) (v : Binary32) :
    ((quantUnsigned mode w v).toNat : ℤ) = quantInt mode w v + 2 ^ (w - 1) := by
  obtain ⟨hlo, hhi⟩ := quantInt_range mode w v
  have hpow : (2 : ℤ) ^ w = 2 ^ (w - 1) * 2 := (pow_sub_one_mul hw.ne' 2).symm
  rw [quantUnsigned, quantLimit, BitVec.toNat_ofInt, Nat.cast_pow, Nat.cast_ofNat, Int.emod_eq_of_lt (by omega) (by omega),
    Int.toNat_of_nonneg (by omega)]

/-- Nothing is carried into the top bit from below it, where one operand is zero, and what is carried out of it is lost. -/
theorem add_topBit (x : BitVec w) : x + BitVec.twoPow w (w - 1) = x ^^^ BitVec.twoPow w (w - 1) := by
  ext i hi
  have hcarry : BitVec.carry i x (BitVec.twoPow w (w - 1)) false = false := by
    have hlow : 2 ^ (w - 1) % 2 ^ i = 0 := Nat.mod_eq_zero_of_dvd (pow_dvd_pow 2 (by omega))
    have hx := Nat.mod_lt x.toNat (Nat.two_pow_pos i)
    rw [BitVec.carry, BitVec.toNat_twoPow_of_lt (by omega), hlow]
    simpa using hx
  rw [BitVec.getElem_add, BitVec.getElem_xor, hcarry]
  simp

theorem quantUnsigned_eq_xor (mode : Config.QuantRound) (w : Nat) (v : Binary32) :
    quantUnsigned mode w v = quantSigned mode w v ^^^ BitVec.twoPow w (w - 1) := by
  have htop : BitVec.ofInt w (quantLimit w) = BitVec.twoPow w (w - 1) := by
    apply BitVec.eq_of_toNat_eq
    rw [quantLimit, BitVec.toNat_ofInt, BitVec.toNat_twoPow]
    norm_cast
  rw [quantUnsigned, quantSigned, BitVec.ofInt_add, htop, add_topBit]

theorem quant_signed (mode : Config.QuantRound) {f : Format} (h : isNaN v = false)
    (hf : f ∈ [Format.i8, Format.i16, Format.i32, Format.i64]) :
    quant mode f v = .ok ((quantSigned mode (formatWidth f) v).setWidth 64) := by
  simp only [List.mem_cons, List.not_mem_nil, or_false] at hf
  rcases hf with rfl | rfl | rfl | rfl <;> exact if_neg (by simp [h])

theorem quant_unsigned (mode : Config.QuantRound) {f : Format} (h : isNaN v = false)
    (hf : f ∈ [Format.u8, Format.u16, Format.u32, Format.u64]) :
    quant mode f v = .ok ((quantUnsigned mode (formatWidth f) v).setWidth 64) := by
  simp only [List.mem_cons, List.not_mem_nil, or_false] at hf
  rcases hf with rfl | rfl | rfl | rfl <;> exact if_neg (by simp [h])

/-- Settles O44: finite values round and saturate, infinities saturate, and the offset is the top bit. -/
theorem integerFormatsFollowTheirFormula : Obligations.IntegerFormatsFollowTheirFormula := by
  refine ⟨fun mode f v h => ⟨quant_signed mode h, quant_unsigned mode h⟩, fun mode w v hw hnan => ?_⟩
  have hpos : 0 < w := by
    simp only [List.mem_cons, List.not_mem_nil, or_false] at hw
    omega
  have hsigned := toInt_quantSigned mode hpos v
  have hunsigned := toNat_quantUnsigned mode hpos v
  have hpow : ((2 ^ w : ℕ) : ℤ) = 2 ^ (w - 1) * 2 := by exact_mod_cast (pow_sub_one_mul hpos.ne' 2).symm
  refine ⟨fun hfin => ⟨_, roundsTo_quantRounded mode w v, ?_⟩, fun hinf hs => ?_, fun hinf hs => ?_, quantUnsigned_eq_xor mode w v⟩
  · rw [hsigned, hunsigned, quantInt_of_isFinite mode w hfin]
    exact ⟨rfl, rfl⟩
  all_goals rw [quantInt_of_isInf mode w hinf, hs] at hsigned hunsigned
  · refine ⟨hsigned, ?_⟩
    rw [if_neg Bool.false_ne_true] at hunsigned
    omega
  · refine ⟨hsigned, ?_⟩
    rw [if_pos rfl, neg_add_cancel] at hunsigned
    omega

end Sys2Proof.Machine
end

section
/-! The round trip (43_quantizer.md R187): where a rounded value lies, where it saturates, and how far the saturated integer is from the scaled
value (O47). -/

namespace Sys2Proof.Machine

open Sys2Proof

variable {mode : Config.QuantRound} {w : Nat} {v : Binary32} {f : Format} {x : ℚ} {r k : ℤ}

/-! ### Where a rounded value lies -/

theorem TowardZero.abs_sub_lt_one (h : TowardZero x r) : |(r : ℚ) - x| < 1 := by
  rw [abs_lt]
  rcases le_total 0 x with hx | hx
  · obtain ⟨hlo, hhi⟩ := h.1 hx
    constructor <;> linarith
  · obtain ⟨hlo, hhi⟩ := h.2 hx
    constructor <;> linarith

/-- Rounding passes no integer. -/
theorem RoundsTo.le_of_le (h : RoundsTo mode x r) (hk : (k : ℚ) ≤ x) : k ≤ r := by
  have hlt : (k : ℚ) < r + 1 := by
    cases mode with
    | rne => linarith [(abs_le.1 h.1).1]
    | rtz =>
      rcases le_total 0 x with hx | hx
      · linarith [(h.1 hx).2]
      · linarith [(h.2 hx).1]
  exact Int.lt_add_one_iff.1 (by exact_mod_cast hlt)

/-- To nearest an even k is reached from k - 1/2 on, the tie included. -/
theorem NearestEven.le_iff (h : NearestEven x r) (hk : Even k) : k ≤ r ↔ (k : ℚ) - 1 / 2 ≤ x := by
  obtain ⟨hnear, htie⟩ := h
  obtain ⟨hlo, hhi⟩ := abs_le.1 hnear
  constructor
  · intro hkr
    have hkr' : (k : ℚ) ≤ r := by exact_mod_cast hkr
    linarith
  · intro hx
    by_contra hlt
    have hle : (r : ℚ) ≤ k - 1 := by exact_mod_cast Int.le_sub_one_of_lt (not_le.1 hlt)
    have hr : (r : ℚ) = k - 1 := by linarith
    have heven : Even r := htie (by rw [show (r : ℚ) - x = -(1 / 2) by linarith, abs_neg]; norm_num)
    have hrk : r = k - 1 := by exact_mod_cast hr
    rw [Int.even_iff] at heven hk
    omega

/-- Toward zero a positive k is reached from k on. -/
theorem TowardZero.le_iff (h : TowardZero x r) (hk : 0 < k) : k ≤ r ↔ (k : ℚ) ≤ x := by
  refine ⟨fun hkr => ?_, fun hx => RoundsTo.le_of_le (mode := .rtz) h hx⟩
  have hkr' : (k : ℚ) ≤ r := by exact_mod_cast hkr
  have hk' : (1 : ℚ) ≤ k := by exact_mod_cast hk
  rcases le_total 0 x with hx | hx
  · linarith [(h.1 hx).1]
  · linarith [(h.2 hx).2]

/-! ### The saturated integer -/

theorem saturate_of_lt (hr : 2 ^ (w - 1) - 1 < r) : saturate w r = 2 ^ (w - 1) - 1 := by
  have hpos : (0 : ℤ) < 2 ^ (w - 1) := by positivity
  unfold saturate
  omega

theorem saturate_of_le (h : RoundsTo mode x r) (hlo : -2 ^ (w - 1) ≤ x) (hr : r ≤ 2 ^ (w - 1) - 1) : saturate w r = r := by
  have hmin : -2 ^ (w - 1) ≤ r := h.le_of_le (by push_cast; exact hlo)
  unfold saturate
  omega

/-- Under RNE a value saturates from half a unit below the scale on, since the scale is even. -/
theorem saturates_rne_iff (hw : 2 ≤ w) (h : NearestEven x r) : 2 ^ (w - 1) - 1 < r ↔ 2 ^ (w - 1) - 1 / 2 ≤ x := by
  rw [Int.sub_one_lt_iff, h.le_iff (even_two.pow_of_ne_zero (by omega))]
  push_cast
  rfl

/-- Under RTZ a value saturates from the scale on. -/
theorem saturates_rtz_iff (h : TowardZero x r) : 2 ^ (w - 1) - 1 < r ↔ 2 ^ (w - 1) ≤ x := by
  rw [Int.sub_one_lt_iff, h.le_iff (by positivity)]
  push_cast
  rfl

/-- What saturates loses at least half a unit and at most one. -/
theorem saturate_error_of_lt (hw : 2 ≤ w) (h : RoundsTo mode x r) (hhi : x ≤ 2 ^ (w - 1)) (hr : 2 ^ (w - 1) - 1 < r) :
    1 / 2 ≤ |(saturate w r : ℚ) - x| ∧ |(saturate w r : ℚ) - x| ≤ 1 := by
  have hx : 2 ^ (w - 1) - 1 / 2 ≤ x := by
    cases mode with
    | rne => exact (saturates_rne_iff hw h).1 hr
    | rtz => linarith [(saturates_rtz_iff h).1 hr]
  rw [saturate_of_lt hr, abs_sub_comm, abs_of_nonneg (by push_cast; linarith)]
  push_cast
  constructor <;> linarith

theorem saturate_error_le_one (hw : 2 ≤ w) (h : RoundsTo mode x r) (hlo : -2 ^ (w - 1) ≤ x) (hhi : x ≤ 2 ^ (w - 1)) :
    |(saturate w r : ℚ) - x| ≤ 1 := by
  rcases le_or_gt r (2 ^ (w - 1) - 1) with hr | hr
  · rw [saturate_of_le h hlo hr]
    cases mode with
    | rne => linarith [h.1]
    | rtz => exact (TowardZero.abs_sub_lt_one h).le
  · exact (saturate_error_of_lt hw h hhi hr).2

/-! ### The inverse -/

theorem deqSigned_quantSigned (mode : Config.QuantRound) (hw : 0 < w) (v : Binary32) :
    deqSigned w (quantSigned mode w v) = quantInt mode w v / 2 ^ (w - 1) := by
  rw [deqSigned, toInt_quantSigned mode hw]

theorem deqUnsigned_quantUnsigned (mode : Config.QuantRound) (hw : 0 < w) (v : Binary32) :
    deqUnsigned w (quantUnsigned mode w v) = quantInt mode w v / 2 ^ (w - 1) := by
  have hcast : ((quantUnsigned mode w v).toNat : ℚ) = quantInt mode w v + 2 ^ (w - 1) := by
    exact_mod_cast toNat_quantUnsigned mode hw v
  rw [deqUnsigned, hcast, add_sub_cancel_right]

theorem deq_signed (hf : f ∈ [Format.i8, Format.i16, Format.i32, Format.i64]) (q : BitVec (formatWidth f)) :
    deq f (q.setWidth 64) = deqSigned (formatWidth f) q := by
  simp only [List.mem_cons, List.not_mem_nil, or_false] at hf
  rcases hf with rfl | rfl | rfl | rfl <;> exact congrArg (deqSigned _) (setWidth_of_zext q (by decide))

theorem deq_unsigned (hf : f ∈ [Format.u8, Format.u16, Format.u32, Format.u64]) (q : BitVec (formatWidth f)) :
    deq f (q.setWidth 64) = deqUnsigned (formatWidth f) q := by
  simp only [List.mem_cons, List.not_mem_nil, or_false] at hf
  rcases hf with rfl | rfl | rfl | rfl <;> exact congrArg (deqUnsigned _) (setWidth_of_zext q (by decide))

theorem two_le_formatWidth (f : Format) : 2 ≤ formatWidth f := by cases f <;> decide

/-- Signed or unsigned, what an integer format gives back is the saturated integer over the scale. -/
theorem exists_quant_deq (mode : Config.QuantRound) (hv : InUnitRange v)
    (hf : f ∈ [Format.i8, Format.i16, Format.i32, Format.i64] ++ [Format.u8, Format.u16, Format.u32, Format.u64]) :
    ∃ q, quant mode f v = .ok q ∧
      deq f q = saturate (formatWidth f) (quantRounded mode (formatWidth f) v) / 2 ^ (formatWidth f - 1) := by
  have hw : 0 < formatWidth f := two_pos.trans_le (two_le_formatWidth f)
  rw [← quantInt_of_isFinite mode _ hv.1]
  rcases List.mem_append.1 hf with hf | hf
  · exact ⟨_, quant_signed mode hv.not_isNaN hf, by rw [deq_signed hf, deqSigned_quantSigned mode hw]⟩
  · exact ⟨_, quant_unsigned mode hv.not_isNaN hf, by rw [deq_unsigned hf, deqUnsigned_quantUnsigned mode hw]⟩

/-! ### The error -/

/-- An error over the scale 2^(w-1), the distance of the saturated integer from the scaled value measured in units. -/
theorem abs_saturate_div_sub (r : ℤ) (v : Binary32) :
    |(saturate w r : ℚ) / 2 ^ (w - 1) - val v| = |(saturate w r : ℚ) - val v * 2 ^ (w - 1)| / 2 ^ (w - 1) := by
  have hM : (0 : ℚ) < 2 ^ (w - 1) := by positivity
  rw [← abs_of_pos hM, ← abs_div, abs_of_pos hM, sub_div, mul_div_cancel_right₀ _ hM.ne']

/-- The bounds of R187 for the saturated integer over the scale. -/
theorem roundTrip_bounds (hw : 2 ≤ w) (hv : InUnitRange v) (h : RoundsTo mode (val v * 2 ^ (w - 1)) r) {e : ℚ}
    (he : e = |(saturate w r : ℚ) / 2 ^ (w - 1) - val v|) :
    (mode = .rne → r ≤ 2 ^ (w - 1) - 1 → e ≤ 1 / 2 ^ w) ∧
    (mode = .rtz → val v < 1 → e < 1 / 2 ^ (w - 1)) ∧
    (2 ^ (w - 1) - 1 < r → 1 / 2 ^ w ≤ e ∧ e ≤ 1 / 2 ^ (w - 1)) ∧
    (mode = .rne → (2 ^ (w - 1) - 1 < r ↔ 1 - 1 / 2 ^ w ≤ val v)) ∧
    (mode = .rtz → (2 ^ (w - 1) - 1 < r ↔ val v = 1)) ∧
    (val v = 1 → e = 1 / 2 ^ (w - 1)) ∧
    e ≤ 2 / 2 ^ w := by
  obtain ⟨-, hmin, hmax⟩ := hv
  have hM : (0 : ℚ) < 2 ^ (w - 1) := by positivity
  have hpow : (2 : ℚ) ^ w = 2 ^ (w - 1) * 2 := (pow_sub_one_mul (by omega) 2).symm
  have hhalf : (1 : ℚ) / 2 ^ w = 1 / 2 / 2 ^ (w - 1) := by rw [hpow]; ring
  have hone : (2 : ℚ) / 2 ^ w = 1 / 2 ^ (w - 1) := by rw [hpow]; field_simp
  have hlo : -2 ^ (w - 1) ≤ val v * 2 ^ (w - 1) := by simpa using mul_le_mul_of_nonneg_right hmin hM.le
  have hhi : val v * 2 ^ (w - 1) ≤ 2 ^ (w - 1) := mul_le_of_le_one_left hM.le hmax
  have hscale : 2 ^ (w - 1) ≤ val v * 2 ^ (w - 1) ↔ val v = 1 := by
    rw [le_mul_iff_one_le_left hM]
    exact ⟨hmax.antisymm, ge_of_eq⟩
  rw [hone, hhalf, he, abs_saturate_div_sub]
  simp only [div_le_div_iff_of_pos_right hM, div_lt_div_iff_of_pos_right hM, div_left_inj' hM.ne']
  refine ⟨?_, ?_, saturate_error_of_lt hw h hhi, ?_, ?_, fun h1 => ?_, saturate_error_le_one hw h hlo hhi⟩
  · rintro rfl hr
    rw [saturate_of_le h hlo hr]
    exact h.1
  · rintro rfl hlt
    have hr : ¬2 ^ (w - 1) - 1 < r := fun hr => hlt.ne (hscale.1 ((saturates_rtz_iff h).1 hr))
    rw [saturate_of_le h hlo (not_lt.1 hr)]
    exact TowardZero.abs_sub_lt_one h
  · rintro rfl
    rw [saturates_rne_iff hw h, ← div_le_iff₀ hM, sub_div, div_self hM.ne']
  · rintro rfl
    rw [saturates_rtz_iff h, hscale]
  · have hr : 2 ^ (w - 1) ≤ r := h.le_of_le (by push_cast; exact hscale.2 h1)
    rw [saturate_of_lt (Int.sub_one_lt_of_le hr), h1]
    norm_num

/-- Settles O47: a `RoundsTo` has one answer, which `quant` saturates; F64's fields are those of `widen64`. -/
theorem roundTripErrorIsBounded : Obligations.RoundTripErrorIsBounded := by
  refine ⟨fun mode v hv => ⟨quant_f32 mode hv.not_isNaN, congrArg val (setWidth_of_zext v (by decide)), _,
    quant_f64 mode hv.not_isNaN, val64_widen64 hv.1, fun b _ hval hsign => ?_⟩, fun mode f v r hf hv hr => ?_⟩
  · exact eq_of_val_eq (hval.trans (val64_widen64 hv.1)) (hsign.trans (msb_widen64 v))
  · obtain ⟨q, hq, hdeq⟩ := exists_quant_deq mode hv hf
    rw [(roundsTo_quantRounded mode _ v).unique hr] at hdeq
    exact ⟨q, _, _, hq, rfl, rfl, roundTrip_bounds (two_le_formatWidth f) hv hr (by rw [hdeq])⟩

end Sys2Proof.Machine
end

section
/-! Faults (60_exceptions.md R201 to R205): the codes each command can raise, the fault entry, the step that raises, and the halted block
(O15 to O18). -/

namespace Sys2Proof.Machine

open Sys2Proof

variable {s t u : State} {turn : Turn}

/-! ### Commands and their codes -/

/-- A command that raises or completes, and halts, has raised: completing leaves HALTED alone. -/
theorem exists_raise_of_halts {codes : List FaultCode} {i : Instr} (h : RaisedOneOf codes s t ∨ Completes i s t)
    (hs : s.halted = false) (ht : t.halted = true) : ∃ f, t = s.raise f ∧ f ∈ codes := by
  rcases h with ⟨f, hf, rfl⟩ | hc
  · exact ⟨f, rfl, hf⟩
  · exact absurd (ht.symm.trans (hc.halted_eq.trans hs)) (by decide)

/-- Settles O15: each command's inversion lemma names the codes it can raise. -/
theorem commandsRaiseOnlyTheirCodes : Obligations.CommandsRaiseOnlyTheirCodes := by
  intro i s t h hs ht
  cases i with
  | tnew cap => exact exists_raise_of_halts (i := .tnew cap) (execTnew_cases h) hs ht
  | tfill gen => exact exists_raise_of_halts (i := .tfill gen) (execTfill_cases h) hs ht
  | tlen => exact exists_raise_of_halts (i := .tlen) (execTlen_cases h) hs ht
  | tread index => exact exists_raise_of_halts (i := .tread index) (execTread_cases h) hs ht
  | oinit o freq sr => exact exists_raise_of_halts (i := .oinit o freq sr) (execOinit_cases h) hs ht
  | ofreq o freq => exact exists_raise_of_halts (i := .ofreq o freq) (execOfreq_cases h) hs ht
  | ostep o => exact exists_raise_of_halts (i := .ostep o) (execOstep_cases h) hs ht
  | sstart fmt ch => exact exists_raise_of_halts (i := .sstart fmt ch) (execSstart_cases h) hs ht
  | qconv fmt v => exact exists_raise_of_halts (i := .qconv fmt v) (execQconv_cases h) hs ht

/-! ### The fault entry and the step that raises -/

/-- Settles O16: the first code raised is kept, and the other fields are those of the record update. -/
theorem faultEntryIsAsStated : Obligations.FaultEntryIsAsStated :=
  fun _ f => ⟨fun h => raise_fault_of_eq_zero h f, fun h => raise_fault_of_ne_zero h f, rfl, rfl, rfl, f.code_ne_zero⟩

/-- A turn that halts a running block writes FAULT and HALTED of it and nothing else (60_exceptions.md R204). -/
theorem Did.frame_of_halts (hd : Did turn u t) (hu : u.halted = false) (ht : t.halted = true) :
    t = { u with fault := t.fault, halted := true, hist := t.hist, prog := t.prog, pc := t.pc, sched := t.sched } := by
  have hne : t.halted ≠ u.halted := by simp [hu, ht]
  cases hd with
  | raised | fault => rfl
  | completed _ x w ws i _ _ _ hc => exact absurd hc.halted_eq hne
  | reset => exact absurd ht (by simp)
  | nothing | burst | issued | answered | wroteFrame => exact absurd (by simp) hne

/-- Settles O17: what the turn did says what it wrote; the turn's own place in the schedule is left out of the claim. -/
theorem faultsArePrecise : Obligations.FaultsArePrecise := by
  refine ⟨fun s t hstep hs ht => ?_, fun s t hstep hs _ => ?_⟩
  · obtain ⟨-, ⟨-, rfl⟩ | ⟨turn, rest, -, hd⟩⟩ := step_did hstep
    · exact absurd (hs.symm.trans ht) (by decide)
    · exact hd.frame_of_halts hs ht
  · obtain ⟨-, ⟨-, rfl⟩ | ⟨turn, rest, -, hd⟩⟩ := step_did hstep
    · exact ⟨rfl, rfl⟩
    · exact hd.port_cases.resolve_right fun ⟨_, hh, _⟩ => absurd (hs.symm.trans hh) (by decide)

/-! ### The halted block -/

section Halted

variable (hh : s.halted = true)
include hh

theorem portReady_of_halted : s.portReady = false := by rw [State.portReady, hh]; rfl

theorem burstEnabled_of_halted (n : Nat) : s.burstEnabled n = false := by
  rw [← Bool.not_eq_true, burstEnabled_iff]; simp [hh]

theorem issueEnabled_of_halted : s.issueEnabled = false := by
  rw [← Bool.not_eq_true, issueEnabled_iff]; simp [hh]

theorem frameEnabled_of_halted : s.frameEnabled = false := by
  rw [← Bool.not_eq_true, frameEnabled_iff]; simp [hh]

theorem controlEnabled_of_halted : s.controlEnabled = false := by
  rw [← Bool.not_eq_true, controlEnabled_iff]; simp [hh]

/-- While halted every turn but reset's leaves the state alone (60_exceptions.md R205). -/
theorem takeTurn_of_halted (hr : turn ≠ .reset) : takeTurn turn s = .next s := by
  cases turn with
  | hostRead | deviceRead => rfl
  | reset => exact absurd rfl hr
  | teardown | devFail => exact if_pos hh
  | issue => exact if_neg (by simp [issueEnabled_of_halted hh])
  | frame => exact if_neg (by simp [frameEnabled_of_halted hh])
  | control => exact if_neg (by simp [controlEnabled_of_halted hh])
  | command =>
    rw [takeTurn, commandStep]
    split
    · rfl
    · exact if_neg (by simp [portReady_of_halted hh])
  | burstReq =>
    rcases hb : s.bursts with _ | ⟨n, later⟩
    · rw [takeTurn, burstStep, hb]
    · exact burstStep_of_not_enabled hb (by simp [burstEnabled_of_halted hh])

end Halted

/-- With no turn left every agent waits (60_exceptions.md R216). -/
theorem step_of_sched_nil (hl : s.cfg.legal = true) (hs : s.sched = []) : step s = .next s := by
  simp only [step, hl, if_true, nextStep, hs]

/-- Settles O18: HALTED alone disables each step, so the turn taken off the schedule is all that is gone. -/
theorem haltedBlockOnlyWaitsForReset : Obligations.HaltedBlockOnlyWaitsForReset := by
  intro s hh
  refine ⟨portReady_of_halted hh, burstEnabled_of_halted hh, issueEnabled_of_halted hh, frameEnabled_of_halted hh,
    controlEnabled_of_halted hh, fun hl hr => ?_⟩
  rcases hs : s.sched with _ | ⟨turn, rest⟩
  · rw [step_of_sched_nil hl hs, List.tail_nil, ← hs]
  · have hturn : turn ≠ .reset := fun h => hr (by rw [hs, h]; rfl)
    exact (step_of_turn hl hs).trans (takeTurn_of_halted hh hturn)

end Sys2Proof.Machine
end

section
/-! Reset and the boot order (70_reset_and_hazards.md R230, R233): STATUS and the table after reset (O20), the commands of the boot where their checks
pass and where one issued too early fails, and the runs made of them (O55). -/

namespace Sys2Proof.Machine

open Sys2Proof

variable {s : State}

/-! ### The reset state -/

@[simp] theorem ov_assertReset (s : State) (o : Nat) : s.assertReset.ov o = false := by
  rw [State.ov, slot_assertReset]
  rfl

theorem ovField_of_no_slot (h : ∀ o, s.ov o = false) : s.ovField = 0 := by
  apply BitVec.eq_of_getLsbD_eq
  intro o ho
  rw [getLsbD_ovField s ho, h, Bool.and_false, BitVec.ofNat_eq_ofNat, BitVec.getLsbD_zero]

/-- After reset STATUS is 0 (10_state.md R24). -/
theorem status_assertReset (s : State) : s.assertReset.status = 0 := by
  simp [State.status, ovField_of_no_slot (ov_assertReset s), State.tfilled, State.tcreated, State.sen]

/-- Settles O20: the step of reset's turn is `assertReset`, which leaves every slot dead, and with no slot live STATUS is 0. -/
theorem resetPutsEveryFieldAtItsResetValue : Obligations.ResetPutsEveryFieldAtItsResetValue := by
  intro s rest hl hs
  exact ⟨_, step_of_reset hl hs, rfl, rfl, fun _ => rfl, List.length_replicate, slot_assertReset _, rfl, rfl, rfl, rfl, rfl,
    rfl, rfl, rfl, rfl, rfl, status_assertReset _, rfl⟩

/-! ### The commands of the boot, where their checks pass and where one is issued too early -/

section Commands

variable {cap gen freq sr fmt ch : Nat}

theorem exec_tnew_of_checks (h0 : cap ≠ 0) (hmax : cap ≤ s.cfg.capMax) (hcap : s.cap = 0) :
    exec (.tnew cap) s = .next { s with cap := cap, tlen := 0 } := by
  obtain ⟨-, -, -, hnew⟩ := tnewFollowsItsRule.2 cap s
  exact (hnew h0 hmax hcap).1

theorem exec_tfill_of_no_table (hgen : gen < 2) (hcap : s.cap = 0) : exec (.tfill gen) s = .next (s.raise .noTable) := by
  obtain ⟨-, hnone, -⟩ := tfillFollowsItsRule.2 gen s
  exact hnone hgen hcap

theorem exec_tfill_of_checks (hgen : gen < 2) (hcap : s.cap ≠ 0) (hne : s.tlen ≠ s.cap) :
    ∃ m, exec (.tfill gen) s = .next { s with table := m, tlen := s.cap } := by
  obtain ⟨-, -, -, hfill⟩ := tfillFollowsItsRule.2 gen s
  obtain ⟨t, ht, -, -, hframe, -⟩ := hfill hgen hcap hne
  exact ⟨t.table, hframe ▸ ht⟩

theorem exec_oinit_of_no_table {o : Nat} (ho : o < s.cfg.nOsc) (hf : freq ≠ 0) (hr : sr ≠ 0) (hcap : s.cap = 0) :
    exec (.oinit o freq sr) s = .next (s.raise .noTable) := by
  obtain ⟨-, -, -, hnone, -⟩ := oinitFollowsItsRule.2 o freq sr s
  exact hnone ho hf hr hcap

theorem exec_oinit_of_not_filled {o : Nat} (ho : o < s.cfg.nOsc) (hf : freq ≠ 0) (hr : sr ≠ 0) (hcap : s.cap ≠ 0)
    (hne : s.tlen ≠ s.cap) : exec (.oinit o freq sr) s = .next (s.raise .notFilled) := by
  obtain ⟨-, -, -, -, hempty, -⟩ := oinitFollowsItsRule.2 o freq sr s
  exact hempty ho hf hr hcap hne

theorem exec_sstart_of_no_osc (hfmt : fmt < 10) (h0 : ch ≠ 0) (hmax : ch ≤ s.cfg.chMax) (hsen : s.sen = false)
    (hov : s.ov 0 = false) : exec (.sstart fmt ch) s = .next (s.raise .streamNoOsc) := by
  obtain ⟨-, -, -, hdead, -⟩ := sstartFollowsItsRule.2 fmt ch s
  exact hdead hfmt h0 hmax hsen hov

theorem exec_sstart_of_checks (hfmt : fmt < 10) (h0 : ch ≠ 0) (hmax : ch ≤ s.cfg.chMax) (hsen : s.sen = false)
    (hov : s.ov 0 = true) : ∃ st, exec (.sstart fmt ch) s = .next { s with stream := some st } := by
  obtain ⟨-, -, -, -, hstart⟩ := sstartFollowsItsRule.2 fmt ch s
  obtain ⟨t, f, ht, -, hframe, -⟩ := hstart hfmt h0 hmax hsen hov
  exact ⟨_, hframe ▸ ht⟩

end Commands

/-! ### The runs of the boot -/

/-- A run begins with its first command's answer. -/
theorem execAll_cons_of_next {t : State} {i : Instr} (h : exec i s = .next t) (is : List Instr) :
    execAll (i :: is) s = execAll is t := by
  simp only [execAll, h]

/-- A state after reset and the first two commands of the boot order, which fill a table of capacity `cap`
(`execAll_tnew_tfill`). -/
def State.tableReady (s : State) (cap : Nat) (m : Memory) : State :=
  { s.assertReset with cap := cap, tlen := cap, table := m }

theorem ov_tableReady (s : State) (cap : Nat) (m : Memory) (o : Nat) : (s.tableReady cap m).ov o = false :=
  (ov_congr rfl o).trans (ov_assertReset s o)

theorem ov_setSlot_tableReady {cap : Nat} (m : Memory) (hosc : 0 < s.cfg.nOsc) (sl : Slot) :
    ((s.tableReady cap m).setSlot 0 sl).ov 0 = true :=
  congrArg Option.isSome (slot_setSlot_same _ sl (hosc.trans_eq List.length_replicate.symm))

/-- After reset TNEW and TFILL complete, and only the table, its capacity and its length are written. -/
theorem execAll_tnew_tfill {cap gen : Nat} (h0 : cap ≠ 0) (hmax : cap ≤ s.cfg.capMax) (hgen : gen < 2) :
    ∃ m, ∀ is, execAll (.tnew cap :: .tfill gen :: is) s.assertReset = execAll is (s.tableReady cap m) := by
  obtain ⟨m, hm⟩ := exec_tfill_of_checks (s := { s.assertReset with cap := cap, tlen := 0 }) hgen h0 h0.symm
  have hnew := exec_tnew_of_checks (s := s.assertReset) h0 hmax rfl
  exact ⟨m, fun is => (execAll_cons_of_next hnew _).trans (execAll_cons_of_next hm is)⟩

/-- With the table ready OINIT of slot 0 and SSTART complete, and between them write slot 0 and the stream alone. -/
theorem execAll_oinit_sstart {cap freq sr fmt ch : Nat} (m : Memory) (hcap : cap ≠ 0) (hosc : 0 < s.cfg.nOsc) (hf : freq ≠ 0)
    (hr : sr ≠ 0) (hfmt : fmt < 10) (hch : ch ≠ 0) (hmax : ch ≤ s.cfg.chMax) :
    ∃ st, execAll [.oinit 0 freq sr, .sstart fmt ch] (s.tableReady cap m) =
      .next { (s.tableReady cap m).setSlot 0 (Slot.fresh freq sr) with stream := some st } := by
  have hinit := exec_oinit_of_checks (s := s.tableReady cap m) hosc hf hr hcap rfl (by simp [State.tableReady, State.sen])
  obtain ⟨st, hst⟩ := exec_sstart_of_checks (s := (s.tableReady cap m).setSlot 0 (Slot.fresh freq sr)) hfmt hch hmax rfl
    (ov_setSlot_tableReady m hosc _)
  exact ⟨st, (execAll_cons_of_next hinit _).trans (execAll_cons_of_next hst [])⟩

/-- Settles O55: after reset no table exists and no slot is live, so each command but TNEW fails its check until the one before it has
completed. That freq and sr fit their fields plays no part: nothing claimed here reads F or SR. -/
theorem bootOrderStartsTheStream : Obligations.BootOrderStartsTheStream := by
  intro p cap gen freq sr fmt ch hl hcap hcapMax hgen hf _ hr _ hfmt hch hchMax
  obtain ⟨-, -, hosc, -⟩ := ranges_of_legal hl
  rw [Nat.one_le_iff_ne_zero] at hcap hf hr hch
  let s₀ : State := { State.reset with cfg := p }
  obtain ⟨m, hready⟩ := execAll_tnew_tfill (s := s₀) hcap hcapMax hgen
  refine ⟨?_, exec_tfill_of_no_table hgen rfl, exec_oinit_of_no_table hosc hf hr rfl,
    exec_sstart_of_no_osc hfmt hch hchMax rfl (ov_assertReset s₀ 0), ?_, ?_⟩
  · obtain ⟨st, hrun⟩ := execAll_oinit_sstart (s := s₀) m hcap hosc hf hr hfmt hch hchMax
    exact ⟨_, (hready _).trans hrun, rfl, rfl, ov_setSlot_tableReady (s := s₀) m hosc _, rfl, rfl⟩
  · have hnew := exec_tnew_of_checks (s := s₀.assertReset) hcap hcapMax rfl
    have hearly := exec_oinit_of_not_filled (s := { s₀.assertReset with cap := cap, tlen := 0 }) hosc hf hr hcap hcap.symm
    exact ⟨_, (execAll_cons_of_next hnew _).trans (execAll_cons_of_next hearly []), raise_fault_of_eq_zero rfl _⟩
  · have hearly := exec_sstart_of_no_osc (s := s₀.tableReady cap m) hfmt hch hchMax rfl (ov_tableReady s₀ cap m 0)
    exact ⟨_, (hready _).trans (execAll_cons_of_next hearly []), raise_fault_of_eq_zero rfl _⟩

end Sys2Proof.Machine
end
